-- ==== Sys2Proof/Word.lean ====
section
/-! DEFINITION. The words the block stores and the wire carries (00_scope.md R8). -/

namespace Sys2Proof

/-- A byte of the stream, of the frame buffer and of a label table's index. -/
abbrev Byte := BitVec 8

/-- The raw operand of a `U16` field. -/
abbrev Half := BitVec 16

/-- The marker, the hunting window and the raw operand of an `F32` field. -/
abbrev Word := BitVec 32

/-- A binary64 value, held as its 64-bit pattern `bits64(x)` (00_scope.md R11, 30_encoding.md R98). -/
abbrev F64 := BitVec 64

end Sys2Proof
end

