-- ==== Sys2Proof/Machine/Bytes.lean ====
section
/-! DEFINITION. Byte order: the wire is little-endian throughout (00_scope.md R8, 20_memory.md R62). -/

namespace Sys2Proof.Machine

/-- `le16(b0, b1) = b0 + 256*b1`, `b0` the byte that arrived first. -/
def le16 (b0 b1 : Byte) : Half := b1 ++ b0

/-- `le32(b0, b1, b2, b3) = b0 + 256*b1 + 65536*b2 + 16777216*b3`. -/
def le32 (b0 b1 b2 b3 : Byte) : Word := b3 ++ b2 ++ b1 ++ b0

/-- The two bytes of a half word in arrival order. -/
def bytes16 (h : Half) : List Byte := [h.extractLsb' 0 8, h.extractLsb' 8 8]

/-- The four bytes of a word in arrival order. -/
def bytes32 (w : Word) : List Byte :=
  [w.extractLsb' 0 8, w.extractLsb' 8 8, w.extractLsb' 16 8, w.extractLsb' 24 8]

end Sys2Proof.Machine
end

