-- ==== Sys2Proof/Config.lean ====
section
/-! DEFINITION. What the spec leaves free: the NaN a floating-point operation returns (93_implementation_defined.md U4). -/

namespace Sys2Proof

/-- Free value (log 7): the raw bits from which the sign and the payload of a NaN result are taken, for draw number
`seq` of the machine and for place `site` within one operation. It has no body: nothing can be proved of its values. -/
opaque Config.freeNan : (seq site : Nat) → F64

end Sys2Proof
end

