-- ==== Sys2Proof/Syntax.lean ====
section
/-! DEFINITION. The operations of the block as syntax: one constructor per row of spec/opcode_table.json, with the operands
that the event or the wire frame carries (00_scope.md R7, 30_encoding.md R109, R110). -/

namespace Sys2Proof

/-- The closed set of wire layouts (30_encoding.md R92 to R94, R101). -/
inductive Layout where
  | a | b | c
deriving DecidableEq, Repr

/-- The phases of FS (10_state.md R22). -/
inductive Phase where
  | idle | hunt | skip | frame | done
deriving DecidableEq, Repr

/-- The field types a layout is made of (30_encoding.md R97, R100). -/
inductive FieldType where
  | pad8 | u8eFault | u8eState | u16 | f32
deriving DecidableEq, Repr

/-- DESIGN CHOICE (log 13), safe: a display label, whose type the spec leaves open (00_scope.md R5), is a token. -/
structure Label where
  token : Nat
deriving DecidableEq, Repr

/-- A partial map from codes to labels (10_state.md R21): its valid entries, by rising code (log 13). -/
abbrev LabelTable := List (Byte × Label)

/-- The scaling entry of one numeric field: `SCALE_EN[i]`, `SCALE[i]`, `OFFSET[i]` (10_state.md R21). -/
structure Scaling where
  en     : Bool
  scale  : F64
  offset : F64
deriving DecidableEq, Repr

/-- What the configuration inputs and the latched configuration have in common (10_state.md R21). -/
structure ConfigBody where
  magic      : Word
  hdrWords   : BitVec 4
  scaling    : Vector Scaling 8
  faultTable : LabelTable
  stateTable : LabelTable
  /-- bit 4 valid, bits 3 to 0 the numeric field index (30_encoding.md R105) -/
  chsel      : BitVec 5
deriving DecidableEq, Repr

/-- The configuration inputs that `START` samples, the layout still a code (30_encoding.md R104). -/
structure ConfigInputs extends ConfigBody where
  layout : BitVec 2
deriving DecidableEq, Repr

/-- The operations: the 18 rows of spec/opcode_table.json. -/
inductive Instr where
  | nop
  | next
  | start (cfg : ConfigInputs)
  | rxHunt (d : Byte)
  | rxSkip (d : Byte)
  | rxFrame (d : Byte)
  | eos (x : Byte)
  | pad8
  | u8eFault
  | u8eState
  | u16
  | f32
  | kfInit (dt q r p0 : F64)
  | kfStep (z : F64)
  | chx (i : BitVec 4)
  | frameA (f0 f1 f2 f3 f4 f5 : Word) (u0 u1 : Half)
  | frameB (f0 f1 f2 f3 f4 f5 f6 : Word) (u0 : Half) (fault state : Byte)
  | frameC (f0 f1 f2 f3 f4 f5 : Word) (u0 : Half) (fault pad : Byte)
deriving DecidableEq, Repr

/-- The binary64 operand inputs beside `KCMD`: `z` is read with code 01, the other four with code 10
(30_encoding.md R105; each operand under its own name, log 18). -/
structure KfOperands where
  z  : F64
  dt : F64
  q  : F64
  r  : F64
  p0 : F64
deriving DecidableEq, Repr

/-- What the host presents on `CMD`: the code, and the configuration inputs at that moment (30_encoding.md R104). -/
structure CmdWord where
  code : BitVec 2
  cfg  : ConfigInputs
deriving DecidableEq, Repr

/-- What the host presents on `KCMD`: the code and the operand inputs (30_encoding.md R105). -/
structure KcmdWord where
  code : BitVec 2
  ops  : KfOperands
deriving DecidableEq, Repr

/-- The three ports by which events reach the block (30_encoding.md R103 to R105). -/
inductive Port where
  | cmd | src | kcmd
deriving DecidableEq, Repr

/-- A word at one of the six places that 30_encoding.md R110 lists: the three ports, a descriptor of a layout list, the
latched `CHSEL`, a frame unit. -/
inductive PlacedWord where
  | cmd (w : CmdWord)
  | src (w : BitVec 9)
  | kcmd (w : KcmdWord)
  | desc (d : Byte)
  | chsel (c : BitVec 5)
  | unit (bytes : List Byte)
deriving DecidableEq, Repr

end Sys2Proof
end

