-- ==== Sys2Proof/Machine/Layouts.lean ====
section
/-! DEFINITION. The constants of the block: the marker, the layouts' descriptor lists, and what follows from them
(00_scope.md R5, 30_encoding.md R91 to R101). -/

namespace Sys2Proof.Machine

/-- The marker constant (30_encoding.md R91). -/
def magic : Word := 0x74656C65

/-- `LAYOUT` codes (10_state.md R21, 30_encoding.md R101). -/
def layoutCode : Layout → BitVec 2
  | .a => 0
  | .b => 1
  | .c => 2

/-- The layout of a code, code 3 being reserved (30_encoding.md R107). -/
def layoutOfCode (c : BitVec 2) : Option Layout :=
  if c = 0 then some .a else if c = 1 then some .b else if c = 2 then some .c else none

/-- The descriptor list of a layout, in wire order (30_encoding.md R101). -/
def fieldsOf : Layout → List FieldType
  | .a => [.f32, .f32, .f32, .f32, .f32, .f32, .u16, .u16]
  | .b => [.f32, .f32, .f32, .f32, .f32, .f32, .f32, .u16, .u8eFault, .u8eState]
  | .c => [.f32, .f32, .f32, .f32, .f32, .f32, .u16, .u8eFault, .pad8]

/-- The width in bytes of a field (30_encoding.md R100). -/
def fieldWidth : FieldType → Nat
  | .pad8 => 1
  | .u8eFault => 1
  | .u8eState => 1
  | .u16 => 2
  | .f32 => 4

/-- The descriptor byte of a field type (30_encoding.md R100). -/
def fieldCode : FieldType → Byte
  | .pad8 => 0
  | .u8eFault => 1
  | .u8eState => 2
  | .u16 => 3
  | .f32 => 4

/-- A numeric field yields a binary64 channel value (00_scope.md, glossary). -/
def isNumeric : FieldType → Bool
  | .f32 => true
  | .u16 => true
  | .pad8 => false
  | .u8eFault => false
  | .u8eState => false

/-- `PAYLEN(L)`: the sum of all field widths (30_encoding.md R101). -/
def payLen (l : Layout) : Nat := ((fieldsOf l).map fieldWidth).sum

/-- `FRAMELEN(L) = 4 + PAYLEN(L)` (00_scope.md R5). -/
def frameLen (l : Layout) : Nat := 4 + payLen l

/-- `NNUM(L)`: how many numeric fields the layout has (30_encoding.md R106). -/
def numCount (l : Layout) : Nat := (fieldsOf l).countP isNumeric

/-- The decided `HDR_WORDS(L)` (30_encoding.md R96). -/
def hdrWordsOf : Layout → BitVec 4
  | .a => 7
  | .b => 8
  | .c => 7

/-- `PHASE` codes (10_state.md R22). -/
def phaseCode : Phase → BitVec 3
  | .idle => 0
  | .hunt => 1
  | .skip => 2
  | .frame => 3
  | .done => 4

/-- `CHSEL`: the valid bit. -/
def chselValid (c : BitVec 5) : Bool := c.getLsbD 4

/-- `CHSEL`: the numeric field index. -/
def chselIndex (c : BitVec 5) : BitVec 4 := c.extractLsb' 0 4

/-- A configuration that `START` accepts: a layout code other than 3 and no channel outside the layout
(30_encoding.md R107, 40_frame_sync.md R131). -/
def configLegal (cfg : ConfigInputs) : Bool :=
  match layoutOfCode cfg.layout with
  | none => false
  | some l => !chselValid cfg.chsel || decide ((chselIndex cfg.chsel).toNat < numCount l)

/-- The scaling bypass, the default of every field (00_scope.md R5). -/
def noScaling : Scaling := { en := false, scale := 0, offset := 0 }

/-- Configuration inputs that are all zero: what stands beside a command that does not read them. -/
def zeroConfig : ConfigInputs :=
  { magic := 0, hdrWords := 0, scaling := Vector.replicate 8 noScaling, faultTable := [], stateTable := [], chsel := 0,
    layout := 0 }

/-- The decided configuration of a layout: the marker constant, the layout's header size, no scaling, empty tables, no
channel (00_scope.md R5). -/
def plainConfig (l : Layout) : ConfigInputs :=
  { zeroConfig with magic := magic, hdrWords := hdrWordsOf l, layout := layoutCode l }

end Sys2Proof.Machine
end

