-- ==== Sys2Proof/WellFormed.lean ====
section
/-! DEFINITION. The checks on an operation as syntax: what the encodings of 30_encoding.md admit and R107 calls legal. -/

namespace Sys2Proof

/-- A label table lists its valid entries by strictly rising code, so that a partial map has one form (log 13). -/
def LabelTable.wf (t : LabelTable) : Bool := decide (t.Pairwise fun p q => p.1.toNat < q.1.toNat)

/-- `START` carries a legal configuration (30_encoding.md R107) with tables in their one form. -/
def ConfigInputs.wf (cfg : ConfigInputs) : Bool :=
  Machine.configLegal cfg && LabelTable.wf cfg.faultTable && LabelTable.wf cfg.stateTable

/-- Well-formed operations. `CHX` selects a numeric field that some layout has (42_estimator.md R215 (a)); the operands
of KF are not checked (42_estimator.md R203); every byte pattern of a unit or of an event is legal. -/
def Instr.wf : Instr → Bool
  | .nop => true
  | .next => true
  | .start cfg => cfg.wf
  | .rxHunt _ => true
  | .rxSkip _ => true
  | .rxFrame _ => true
  | .eos _ => true
  | .pad8 => true
  | .u8eFault => true
  | .u8eState => true
  | .u16 => true
  | .f32 => true
  | .kfInit _ _ _ _ => true
  | .kfStep _ => true
  | .chx i => decide (i.toNat < 8)
  | .frameA _ _ _ _ _ _ _ _ => true
  | .frameB _ _ _ _ _ _ _ _ _ _ => true
  | .frameC _ _ _ _ _ _ _ _ _ => true

end Sys2Proof
end

