-- ==== Sys2Proof/Decode.lean ====
section
/-! DEFINITION. The encodings of 30_encoding.md: a decoder that is total on every word at every place and rejects by name,
and the encoder. -/

namespace Sys2Proof

/-- Why a word is no operation. -/
inductive Reject where
  /-- `CMD = 11` (30_encoding.md R104, R107) -/
  | reservedCmd
  /-- `KCMD = 11` (30_encoding.md R105, R107) -/
  | reservedKcmd
  /-- `KCMD = 00`: no command (30_encoding.md R105) -/
  | noKcmd
  /-- a byte while `PHASE` is `IDLE` or `DONE`: `SRC` has a meaning only while it is read (30_encoding.md R103) -/
  | sourceNotRead
  /-- descriptor type codes 5 to 7, or `d[7:3]` not zero (30_encoding.md R100, R107) -/
  | reservedDescriptor
  /-- `CHSEL` with its valid bit 0: no channel is routed (30_encoding.md R105) -/
  | noChannel
  /-- a unit whose length is not `FRAMELEN(LAYOUT)` (30_encoding.md R108) -/
  | unitLength
  /-- a unit that does not begin with the marker (30_encoding.md R90, R91) -/
  | unitMarker
deriving DecidableEq, Repr

/-- The two modes that change decoding (30_encoding.md R108). -/
structure DecodeMode where
  phase  : Phase
  layout : Layout
deriving DecidableEq, Repr

/-- `CMD` (30_encoding.md R104). -/
def decodeCmd (w : CmdWord) : Except Reject Instr :=
  if w.code = 0 then .ok .nop
  else if w.code = 1 then .ok .next
  else if w.code = 2 then .ok (.start w.cfg)
  else .error .reservedCmd

/-- `SRC` (30_encoding.md R103): bit 8 is "closed"; which byte event it is depends on `PHASE` alone (R108). -/
def decodeSrc (p : Phase) (w : BitVec 9) : Except Reject Instr :=
  let d := w.extractLsb' 0 8
  if w.getLsbD 8 then .ok (.eos d)
  else
    match p with
    | .idle => .error .sourceNotRead
    | .hunt => .ok (.rxHunt d)
    | .skip => .ok (.rxSkip d)
    | .frame => .ok (.rxFrame d)
    | .done => .error .sourceNotRead

/-- `KCMD` (30_encoding.md R105). -/
def decodeKcmd (w : KcmdWord) : Except Reject Instr :=
  if w.code = 0 then .error .noKcmd
  else if w.code = 1 then .ok (.kfStep w.ops.z)
  else if w.code = 2 then .ok (.kfInit w.ops.dt w.ops.q w.ops.r w.ops.p0)
  else .error .reservedKcmd

/-- The field type of a descriptor byte (30_encoding.md R100). -/
def fieldOfCode (d : Byte) : Option FieldType :=
  if d = 0 then some .pad8
  else if d = 1 then some .u8eFault
  else if d = 2 then some .u8eState
  else if d = 3 then some .u16
  else if d = 4 then some .f32
  else none

/-- The extraction operation of a field type (30_encoding.md R110). -/
def instrOfField : FieldType → Instr
  | .pad8 => .pad8
  | .u8eFault => .u8eFault
  | .u8eState => .u8eState
  | .u16 => .u16
  | .f32 => .f32

/-- A descriptor (30_encoding.md R100). -/
def decodeDesc (d : Byte) : Except Reject Instr :=
  match fieldOfCode d with
  | some f => .ok (instrOfField f)
  | none => .error .reservedDescriptor

/-- `CHSEL = 1iiii` (30_encoding.md R105). -/
def decodeChsel (c : BitVec 5) : Except Reject Instr :=
  if Machine.chselValid c then .ok (.chx (Machine.chselIndex c)) else .error .noChannel

/-- Byte `k` of a unit. -/
def unitByte (u : List Byte) (k : Nat) : Byte := u.getD k 0

/-- The 16-bit field at offset `o` of a unit (20_memory.md R62). -/
def unitHalf (u : List Byte) (o : Nat) : Half := Machine.le16 (unitByte u o) (unitByte u (o + 1))

/-- The 32-bit field at offset `o` of a unit (20_memory.md R62). -/
def unitWord (u : List Byte) (o : Nat) : Word :=
  Machine.le32 (unitByte u o) (unitByte u (o + 1)) (unitByte u (o + 2)) (unitByte u (o + 3))

/-- The wire frame that a unit is under a layout (30_encoding.md R92 to R94). -/
def frameOfUnit (l : Layout) (u : List Byte) : Instr :=
  match l with
  | .a => .frameA (unitWord u 4) (unitWord u 8) (unitWord u 12) (unitWord u 16) (unitWord u 20) (unitWord u 24)
      (unitHalf u 28) (unitHalf u 30)
  | .b => .frameB (unitWord u 4) (unitWord u 8) (unitWord u 12) (unitWord u 16) (unitWord u 20) (unitWord u 24)
      (unitWord u 28) (unitHalf u 32) (unitByte u 34) (unitByte u 35)
  | .c => .frameC (unitWord u 4) (unitWord u 8) (unitWord u 12) (unitWord u 16) (unitWord u 20) (unitWord u 24)
      (unitHalf u 28) (unitByte u 30) (unitByte u 31)

/-- A frame unit: its length comes from the layout alone, its head must be the marker (30_encoding.md R108, R110). -/
def decodeUnit (l : Layout) (u : List Byte) : Except Reject Instr :=
  if u.length ≠ Machine.frameLen l then .error .unitLength
  else if unitWord u 0 ≠ Machine.magic then .error .unitMarker
  else .ok (frameOfUnit l u)

/-- The operation that a word at its place stands for (30_encoding.md R110). -/
def decode (m : DecodeMode) : PlacedWord → Except Reject Instr
  | .cmd w => decodeCmd w
  | .src w => decodeSrc m.phase w
  | .kcmd w => decodeKcmd w
  | .desc d => decodeDesc d
  | .chsel c => decodeChsel c
  | .unit u => decodeUnit m.layout u

/-! The encoder. -/

/-- The operand inputs beside a KF command that does not read them. -/
def zeroOperands : KfOperands := { z := 0, dt := 0, q := 0, r := 0, p0 := 0 }

/-- `SRC` for a byte: bit 8 is 0. -/
def srcByte (d : Byte) : BitVec 9 := (0#1 ++ d : BitVec 9)

/-- `SRC` for "closed": bit 8 is 1. -/
def srcClosed (x : Byte) : BitVec 9 := (1#1 ++ x : BitVec 9)

/-- `MARKER` in arrival order: 65 6C 65 74 (30_encoding.md R91). -/
def markerBytes : List Byte := Machine.bytes32 Machine.magic

/-- The bytes of a wire frame of layout A (30_encoding.md R92). -/
def unitA (f0 f1 f2 f3 f4 f5 : Word) (u0 u1 : Half) : List Byte :=
  markerBytes ++ Machine.bytes32 f0 ++ Machine.bytes32 f1 ++ Machine.bytes32 f2 ++ Machine.bytes32 f3 ++
    Machine.bytes32 f4 ++ Machine.bytes32 f5 ++ Machine.bytes16 u0 ++ Machine.bytes16 u1

/-- The bytes of a wire frame of layout B (30_encoding.md R93). -/
def unitB (f0 f1 f2 f3 f4 f5 f6 : Word) (u0 : Half) (fault state : Byte) : List Byte :=
  markerBytes ++ Machine.bytes32 f0 ++ Machine.bytes32 f1 ++ Machine.bytes32 f2 ++ Machine.bytes32 f3 ++
    Machine.bytes32 f4 ++ Machine.bytes32 f5 ++ Machine.bytes32 f6 ++ Machine.bytes16 u0 ++ [fault, state]

/-- The bytes of a wire frame of layout C (30_encoding.md R94). -/
def unitC (f0 f1 f2 f3 f4 f5 : Word) (u0 : Half) (fault pad : Byte) : List Byte :=
  markerBytes ++ Machine.bytes32 f0 ++ Machine.bytes32 f1 ++ Machine.bytes32 f2 ++ Machine.bytes32 f3 ++
    Machine.bytes32 f4 ++ Machine.bytes32 f5 ++ Machine.bytes16 u0 ++ [fault, pad]

/-- The word of an operation at its place (30_encoding.md R103 to R105, R110). -/
def encode : Instr → PlacedWord
  | .nop => .cmd { code := 0, cfg := Machine.zeroConfig }
  | .next => .cmd { code := 1, cfg := Machine.zeroConfig }
  | .start cfg => .cmd { code := 2, cfg := cfg }
  | .rxHunt d => .src (srcByte d)
  | .rxSkip d => .src (srcByte d)
  | .rxFrame d => .src (srcByte d)
  | .eos x => .src (srcClosed x)
  | .pad8 => .desc (Machine.fieldCode .pad8)
  | .u8eFault => .desc (Machine.fieldCode .u8eFault)
  | .u8eState => .desc (Machine.fieldCode .u8eState)
  | .u16 => .desc (Machine.fieldCode .u16)
  | .f32 => .desc (Machine.fieldCode .f32)
  | .kfInit dt q r p0 => .kcmd { code := 2, ops := { z := 0, dt := dt, q := q, r := r, p0 := p0 } }
  | .kfStep z => .kcmd { code := 1, ops := { zeroOperands with z := z } }
  | .chx i => .chsel (1#1 ++ i : BitVec 5)
  | .frameA f0 f1 f2 f3 f4 f5 u0 u1 => .unit (unitA f0 f1 f2 f3 f4 f5 u0 u1)
  | .frameB f0 f1 f2 f3 f4 f5 f6 u0 fault state => .unit (unitB f0 f1 f2 f3 f4 f5 f6 u0 fault state)
  | .frameC f0 f1 f2 f3 f4 f5 u0 fault pad => .unit (unitC f0 f1 f2 f3 f4 f5 u0 fault pad)

/-- The mode condition under which a word selects the operation (30_encoding.md R110, the column "mode condition"). -/
def inMode (m : DecodeMode) : Instr → Bool
  | .nop => true
  | .next => true
  | .start _ => true
  | .rxHunt _ => m.phase == .hunt
  | .rxSkip _ => m.phase == .skip
  | .rxFrame _ => m.phase == .frame
  | .eos _ => true
  | .pad8 => true
  | .u8eFault => true
  | .u8eState => true
  | .u16 => true
  | .f32 => true
  | .kfInit _ _ _ _ => true
  | .kfStep _ => true
  | .chx _ => true
  | .frameA _ _ _ _ _ _ _ _ => m.layout == .a
  | .frameB _ _ _ _ _ _ _ _ _ _ => m.layout == .b
  | .frameC _ _ _ _ _ _ _ _ _ => m.layout == .c

/-! The opcode table numbers every row from bit 0 of its own place, so rows of different places share numbers (log 11). -/

/-- The `n` low bytes of a number, least significant first. -/
def bytesOfNat : (n w : Nat) → List Byte
  | 0, _ => []
  | n + 1, w => BitVec.ofNat 8 w :: bytesOfNat n (w / 256)

/-- DESIGN CHOICE (log 11): the place and the mode in which a table row's number is read. One byte: `CMD` for 0 to 2,
`CHSEL` for 1iiii, else a descriptor. Two bytes: `SRC` while hunting. 32 or 36 bytes: a unit of layout A or B. -/
def placeTableWord (nbits w : Nat) : Option (DecodeMode × PlacedWord) :=
  if nbits ≤ 8 then
    if w < 3 then
      some ({ phase := .idle, layout := .a }, .cmd { code := BitVec.ofNat 2 w, cfg := Machine.zeroConfig })
    else if 16 ≤ w ∧ w < 32 then some ({ phase := .frame, layout := .a }, .chsel (BitVec.ofNat 5 w))
    else if w < 256 then some ({ phase := .frame, layout := .a }, .desc (BitVec.ofNat 8 w))
    else none
  else if nbits ≤ 16 then
    if w < 512 then some ({ phase := .hunt, layout := .a }, .src (BitVec.ofNat 9 w)) else none
  else if nbits ≤ 256 then
    if w < 2 ^ 256 then some ({ phase := .frame, layout := .a }, .unit (bytesOfNat 32 w)) else none
  else if nbits ≤ 288 then
    if w < 2 ^ 288 then some ({ phase := .frame, layout := .b }, .unit (bytesOfNat 36 w)) else none
  else none

/-- The instruction the decoder reads from a table row's number. -/
def decodeTableWord (nbits w : Nat) : Option Instr :=
  match placeTableWord nbits w with
  | none => none
  | some (m, p) =>
    match decode m p with
    | .ok i => some i
    | .error _ => none

end Sys2Proof
end

