-- ==== Sys2Proof/Machine/Float.lean ====
section
/-! DEFINITION. The binary64 arithmetic of 42_estimator.md R201 and the two conversions of 41_field_extract.md R173, R178,
on bit patterns. Every finite value is an exact multiple of 2^-1074 (the unit); a result is computed exactly in units and
rounded once. Where the result is a NaN the caller supplies which one (93_implementation_defined.md U4). -/

namespace Sys2Proof.Machine

/-- The sign bit (30_encoding.md R98). -/
def signOf (x : F64) : Bool := x.getLsbD 63

/-- The pattern without its sign: biased exponent and fraction. -/
def magOf (x : F64) : Nat := x.toNat % 2 ^ 63

/-- The magnitude pattern of an infinity: exponent 2047, fraction 0. -/
def infMag : Nat := 2047 * 2 ^ 52

/-- Exponent 2047 with a nonzero fraction (30_encoding.md R98). -/
def isNaN (x : F64) : Bool := decide (infMag < magOf x)

/-- Exponent 2047 with fraction 0 (30_encoding.md R98). -/
def isInf (x : F64) : Bool := decide (magOf x = infMag)

/-- Neither a NaN nor an infinity. -/
def isFinite (x : F64) : Bool := decide (magOf x < infMag)

/-- Either zero. -/
def isZero (x : F64) : Bool := decide (magOf x = 0)

/-- The pattern of a sign and a magnitude. -/
def withSign (neg : Bool) (mag : Nat) : F64 := BitVec.ofNat 64 ((if neg then 2 ^ 63 else 0) + mag)

/-- How many units of 2^-1074 a finite magnitude pattern stands for: subnormal `f`, normal `(2^52 + f) * 2^(e-1)`
(30_encoding.md R98). -/
def unitsOf (mag : Nat) : Nat :=
  if mag / 2 ^ 52 = 0 then mag % 2 ^ 52 else (2 ^ 52 + mag % 2 ^ 52) * 2 ^ (mag / 2 ^ 52 - 1)

/-- `n / d` rounded to the nearest integer, ties to even. -/
def roundNearestEven (n d : Nat) : Nat :=
  if 2 * (n % d) < d then n / d
  else if d < 2 * (n % d) then n / d + 1
  else n / d + (n / d) % 2

/-- The exponent, in units, of the last place of a result whose integer part is `q`: 53 significant bits, never below one
unit (gradual underflow, 42_estimator.md R201 (c)). -/
def lastPlace (q : Nat) : Nat := if q < 2 ^ 53 then 0 else q.log2 - 52

/-- The magnitude pattern of `n / d` units, rounded to nearest with ties to even; an overflow gives infinity
(42_estimator.md R201 (b) to (d)). -/
def roundUnits (n d : Nat) : Nat :=
  min (lastPlace (n / d) * 2 ^ 52 + roundNearestEven n (d * 2 ^ lastPlace (n / d))) infMag

/-- The signed number of units of a finite value. -/
def signedUnits (x : F64) : Int := if signOf x then -(unitsOf (magOf x) : Int) else unitsOf (magOf x)

/-- The NaN that raw free bits stand for: their sign and fraction, the fraction never zero; every NaN is one of these. -/
def nanOf (raw : F64) : F64 :=
  withSign (signOf raw) (infMag + (if magOf raw % 2 ^ 52 = 0 then 1 else magOf raw % 2 ^ 52))

/-- The sign changed; of a NaN too. -/
def fneg (x : F64) : F64 := x ^^^ (1#64 <<< 63)

/-- The sum of two finite values (42_estimator.md R201 (b), (f)): an exact zero is +0 unless both operands are negative. -/
def addFinite (a b : F64) : F64 :=
  let z := signedUnits a + signedUnits b
  if z = 0 then withSign (signOf a && signOf b) 0 else withSign (decide (z < 0)) (roundUnits z.natAbs 1)

/-- `fadd` (42_estimator.md R201); `nan` is the NaN returned where the result is one. -/
def fadd (nan a b : F64) : F64 :=
  if isNaN a || isNaN b then nan
  else if isInf a then (if isInf b && signOf a != signOf b then nan else a)
  else if isInf b then b
  else addFinite a b

/-- `fsub(a, b)`: the sum of `a` and `b` with its sign changed (42_estimator.md R201). -/
def fsub (nan a b : F64) : F64 := fadd nan a (fneg b)

/-- `fmul` (42_estimator.md R201): `0 * inf` is a NaN, every sign is the exclusive-or. -/
def fmul (nan a b : F64) : F64 :=
  if isNaN a || isNaN b then nan
  else if isInf a || isInf b then (if isZero a || isZero b then nan else withSign (signOf a ^^ signOf b) infMag)
  else withSign (signOf a ^^ signOf b) (roundUnits (unitsOf (magOf a) * unitsOf (magOf b)) (2 ^ 1074))

/-- `fdiv` (42_estimator.md R201): `0/0` and `inf/inf` are NaNs, `x/0` is an infinity, `x/inf` a zero. -/
def fdiv (nan a b : F64) : F64 :=
  if isNaN a || isNaN b then nan
  else if isInf a then (if isInf b then nan else withSign (signOf a ^^ signOf b) infMag)
  else if isInf b then withSign (signOf a ^^ signOf b) 0
  else if isZero b then (if isZero a then nan else withSign (signOf a ^^ signOf b) infMag)
  else withSign (signOf a ^^ signOf b) (roundUnits (unitsOf (magOf a) * 2 ^ 1074) (unitsOf (magOf b)))

/-- `f64_of_u16` (41_field_extract.md R173): exact, never negative. -/
def f64OfU16 (n : Half) : F64 := withSign false (roundUnits (n.toNat * 2 ^ 1074) 1)

/-- `f64_of_f32` (41_field_extract.md R178): no rounding occurs; a binary32 NaN gives the NaN the caller supplies. -/
def f64OfF32 (nan : F64) (w : Word) : F64 :=
  let s := w.getLsbD 31
  let e := (w.extractLsb' 23 8).toNat
  let f := (w.extractLsb' 0 23).toNat
  if e = 0 then withSign s (roundUnits (f * 2 ^ 925) 1)
  else if e = 255 then (if f = 0 then withSign s infMag else nan)
  else withSign s ((e + 1023 - 127) * 2 ^ 52 + f * 2 ^ 29)

/-- Two values are the same, or both are NaNs: how the spec compares floats (93_implementation_defined.md U4). -/
def sameValue (a b : F64) : Bool := a == b || (isNaN a && isNaN b)

end Sys2Proof.Machine
end

