-- ==== Sys2Proof/Machine/State.lean ====
section
/-! DEFINITION. The state of the block as plain data (10_state.md R20 to R34), the model's own fields for events and
outputs, the reasons a step can stop, and the state after hardware reset (10_state.md R40). -/

namespace Sys2Proof.Machine

/-- Why a sequence ended (10_state.md R27). -/
inductive Cause where
  | none | eos | desync
deriving DecidableEq, Repr

/-- The frame buffer as (offset, byte) pairs in one canonical form (`Memory.wf`). -/
abbrev Memory := List Host.Cell

/-- `FS.CFG`, latched by `START` (10_state.md R21). -/
structure FsConfig extends ConfigBody where
  layout : Layout
deriving DecidableEq, Repr

/-- The registers of FS (10_state.md R21 to R27). -/
structure FrameSync where
  cfg     : FsConfig
  phase   : Phase
  /-- the hunting window, its oldest byte in bits 7 to 0 (R23) -/
  w       : Word
  /-- how many bytes of the session the window holds, saturating at 4 (R23) -/
  wcnt    : BitVec 3
  /-- header bytes still to discard (R24) -/
  skipcnt : BitVec 6
  /-- the frame buffer (R25) -/
  fb      : Memory
  /-- bytes of the current unit already stored (R25) -/
  fidx    : BitVec 6
  demand  : Bool
  cause   : Cause
deriving DecidableEq, Repr

/-- The registers of KF (10_state.md R30 to R34). -/
structure Estimator where
  dt    : F64
  qn    : F64
  rn    : F64
  p0    : F64
  qd00  : F64
  qd01  : F64
  qd11  : F64
  x0    : F64
  x1    : F64
  p00   : F64
  p01   : F64
  p10   : F64
  p11   : F64
  ready : Bool
deriving DecidableEq, Repr

/-- The resolution of an enumerated code (30_encoding.md R106). -/
inductive Resolution where
  | known (label : Label)
  | unknown
deriving DecidableEq, Repr

/-- An enumerated field of a Sample: the raw code and its resolution (30_encoding.md R106). -/
structure EnumValue where
  code : Byte
  res  : Resolution
deriving DecidableEq, Repr

/-- A Sample (30_encoding.md R106, 41_field_extract.md R180). -/
structure Sample where
  num   : List F64
  fault : Option EnumValue
  state : Option EnumValue
deriving DecidableEq, Repr

/-- The outputs (00_scope.md R12, 30_encoding.md R106); the output `none` is the empty list. -/
inductive Output where
  | sample (s : Sample)
  | ended
  | est (value rate : F64)
deriving DecidableEq, Repr

/-- How a presentation was answered (00_scope.md R12; logs 2, 3, 8). -/
inductive Response where
  /-- the step of the operation was taken -/
  | accepted
  /-- not accepted: nothing changes and the sender still holds the event -/
  | held
  /-- refused: nothing changes -/
  | refused
deriving DecidableEq, Repr

/-- The environment as data (log 1): what the host and the byte source still hold, oldest first, and who moves next. -/
structure Environment where
  sched  : List Port
  cmdIn  : List CmdWord
  srcIn  : List (BitVec 9)
  kcmdIn : List KcmdWord
deriving DecidableEq, Repr

/-- The local variables of the extraction loop (41_field_extract.md R171; log 9); the index `i` is the length of `num`. -/
structure Extraction where
  off   : Nat
  num   : List F64
  fault : Option EnumValue
  state : Option EnumValue
deriving DecidableEq, Repr

/-- The state: FS and KF as the spec gives them (10_state.md R20), then the model's own fields. -/
structure State where
  fs     : FrameSync
  kf     : Estimator
  io     : Environment
  xt     : Extraction
  /-- the draw counter of the free NaN values (log 7) -/
  nanSeq : Nat
  resp   : Response
  /-- the outputs of the last step, in order -/
  out    : List Output
deriving DecidableEq, Repr

/-- Why the machine stops with a fault. -/
inductive Fault where
  /-- `MemRead` or `MemWrite` at an offset of the frame buffer that does not exist (above 35). Raised by RX.FRAME, F32,
  U16, U8E.FAULT and U8E.STATE in states that no run reaches (20_memory.md R63; log 6). Safe. -/
  | frameBufferRange
deriving DecidableEq, Repr

/-- Why the model gives no step. -/
inductive Refusal where
  /-- Raised by an arm of `exec` whose instruction has no meaning yet. Safe. No arm is one. -/
  | notModelled (mnemonic : String)
deriving DecidableEq, Repr

/-- `FS.CFG` after hardware reset. DESIGN CHOICE (log 4), unsafe: all zero; R40 leaves it unspecified. -/
def FsConfig.reset : FsConfig :=
  { magic := 0, hdrWords := 0, scaling := Vector.replicate 8 noScaling, faultTable := [], stateTable := [], chsel := 0,
    layout := .a }

/-- FS after hardware reset: `PHASE = IDLE` and `DEMAND = 0` (10_state.md R40). DESIGN CHOICE (logs 4, 5), unsafe: every
other register is zero. -/
def FrameSync.reset : FrameSync :=
  { cfg := FsConfig.reset, phase := .idle, w := 0, wcnt := 0, skipcnt := 0, fb := [], fidx := 0, demand := false,
    cause := .none }

/-- KF after hardware reset: `READY = 0` (10_state.md R40). DESIGN CHOICE (log 4), unsafe: every other register is +0.0. -/
def Estimator.reset : Estimator :=
  { dt := 0, qn := 0, rn := 0, p0 := 0, qd00 := 0, qd01 := 0, qd11 := 0, x0 := 0, x1 := 0, p00 := 0, p01 := 0, p10 := 0,
    p11 := 0, ready := false }

/-- The extraction loop before its first field: `off = 4`, nothing extracted (41_field_extract.md R171). -/
def Extraction.start : Extraction := { off := 4, num := [], fault := none, state := none }

/-- The machine right after hardware reset (10_state.md R40); nothing is presented (log 1). -/
def State.reset : State :=
  { fs := FrameSync.reset, kf := Estimator.reset, io := { sched := [], cmdIn := [], srcIn := [], kcmdIn := [] },
    xt := Extraction.start, nanSeq := 0, resp := .accepted, out := [] }

end Sys2Proof.Machine
end

