-- ==== Sys2Proof/Machine/Ops.lean ====
section
/-! DEFINITION. The shared operations: the frame buffer, the answers to a presentation, `raise End`, the free NaN values. -/

namespace Sys2Proof.Machine

/-- The result of one operation. -/
abbrev Result := Host.Outcome State Fault Refusal

/-- Go on with a next state; a stop stays a stop. -/
def andThen (o : Result) (f : State → Result) : Result :=
  match o with
  | .next s => f s
  | .fault r => .fault r
  | .refused r => .refused r

/-! ### The frame buffer (10_state.md R25, 20_memory.md R61 to R65) -/

/-- The frame buffer has the offsets 0 to 35 (10_state.md R25). -/
def fbSize : Nat := 36

/-- DESIGN CHOICE (log 5), unsafe: what an offset that nothing has written reads as. -/
def unwritten : Byte := 0

/-- One byte of a memory. -/
def Memory.read : Memory → Nat → Byte
  | [], _ => unwritten
  | (k, v) :: m, a => if a = k then v else Memory.read m a

/-- One byte stored; the entry of an offset that reads as unwritten is removed. -/
def Memory.write : Memory → Nat → Byte → Memory
  | [], a, b => if b = unwritten then [] else [(a, b)]
  | (k, v) :: m, a, b =>
    if a < k then (if b = unwritten then (k, v) :: m else (a, b) :: (k, v) :: m)
    else if a = k then (if b = unwritten then m else (a, b) :: m)
    else (k, v) :: Memory.write m a b

/-- The canonical form: offsets strictly rising and in range, no entry equal to what an unlisted offset reads as. -/
def Memory.wf (m : Memory) : Bool :=
  decide (m.Pairwise fun p q => p.1 < q.1) && m.all fun p => decide (p.1 < fbSize) && p.2 != unwritten

/-- `MemRead(off, 1)` (00_scope.md R10). -/
def memRead1 (m : Memory) (off : Nat) : Option Byte :=
  if off + 1 ≤ fbSize then some (m.read off) else none

/-- `MemRead(off, 2)` (00_scope.md R10). -/
def memRead2 (m : Memory) (off : Nat) : Option Half :=
  if off + 2 ≤ fbSize then some (le16 (m.read off) (m.read (off + 1))) else none

/-- `MemRead(off, 4)` (00_scope.md R10). -/
def memRead4 (m : Memory) (off : Nat) : Option Word :=
  if off + 4 ≤ fbSize then some (le32 (m.read off) (m.read (off + 1)) (m.read (off + 2)) (m.read (off + 3))) else none

/-- `MemWrite(off, 1, b)` (00_scope.md R10): only one-byte writes exist. -/
def memWrite1 (m : Memory) (off : Nat) (b : Byte) : Option Memory :=
  if off + 1 ≤ fbSize then some (m.write off b) else none

/-- Bytes stored one after the other from an offset on. -/
def storeBytes (m : Memory) : (off : Nat) → List Byte → Memory
  | _, [] => m
  | off, b :: bs => storeBytes (m.write off b) (off + 1) bs

/-! ### Answers (00_scope.md R12) -/

/-- The answer to a presentation and the outputs of the step. -/
def State.answer (s : State) (r : Response) (o : List Output) : State := { s with resp := r, out := o }

/-- The step was taken, with these outputs. -/
def State.accept (s : State) (o : List Output) : State := s.answer .accepted o

/-- Not accepted: no state changes, no output, the sender still holds the event (00_scope.md R12, 40_frame_sync.md R133). -/
def State.hold (s : State) : State := s.answer .held []

/-- Refused: no state changes, no output (00_scope.md R12, 93_implementation_defined.md U5, U6, U8; log 3). -/
def State.refuse (s : State) : State := s.answer .refused []

/-- The registers of FS replaced. -/
def State.withFs (s : State) (f : FrameSync) : State := { s with fs := f }

/-- The registers of KF replaced, one draw of the free NaN values used up. -/
def State.withKf (s : State) (k : Estimator) : State := { s with kf := k, nanSeq := s.nanSeq + 1 }

/-! ### End conditions (60_exceptions.md R245) -/

/-- What `raise End(cause)` does to FS: `PHASE <- DONE; CAUSE <- cause; DEMAND <- 0`. -/
def FrameSync.ended (f : FrameSync) (c : Cause) : FrameSync := { f with phase := .done, cause := c, demand := false }

/-- `raise End(cause)`: the only entry to `DONE` (60_exceptions.md R245). -/
def raiseEnd (c : Cause) (s : State) : State := (s.withFs (s.fs.ended c)).accept [.ended]

/-- The return: what `START` does to FS (10_state.md R41, 40_frame_sync.md R131); `FB` stays as it is. -/
def FrameSync.started (f : FrameSync) (cfg : ConfigInputs) (l : Layout) : FrameSync :=
  { f with
    cfg := { toConfigBody := cfg.toConfigBody, layout := l }
    phase := .hunt, w := 0, wcnt := 0, skipcnt := 0, fidx := 0, demand := false, cause := .none }

/-! ### Free NaN values (93_implementation_defined.md U4; log 7) -/

/-- The NaN of place `site` in the current draw. -/
def drawNaN (seq site : Nat) : F64 := nanOf (Config.freeNan seq site)

/-! ### Derived lengths (00_scope.md R5) -/

/-- `HDRBYTES = 4 * HDR_WORDS` of the latched configuration. -/
def hdrBytes (c : FsConfig) : BitVec 6 := BitVec.ofNat 6 (4 * c.hdrWords.toNat)

end Sys2Proof.Machine
end

