-- ==== Sys2Proof/Machine/Flags.lean ====
section
/-! DEFINITION. The four status outputs of FS, each a function of the state (10_state.md R28). -/

namespace Sys2Proof.Machine

/-- `rx_ready = (PHASE in {HUNT, SKIP, FRAME}) and (DEMAND = 1)`: the read request to the byte source. -/
def rxReady (f : FrameSync) : Bool :=
  match f.phase with
  | .idle => false
  | .hunt => f.demand
  | .skip => f.demand
  | .frame => f.demand
  | .done => false

/-- `hunting = (PHASE = HUNT)`. -/
def hunting (f : FrameSync) : Bool := f.phase == .hunt

/-- `done = (PHASE = DONE)`. -/
def doneFlag (f : FrameSync) : Bool := f.phase == .done

/-- `cause = CAUSE`, as its code (10_state.md R27). -/
def causeFlag (f : FrameSync) : BitVec 2 :=
  match f.cause with
  | .none => 0
  | .eos => 1
  | .desync => 2

/-- A byte is accepted as the event of phase `p` (40_frame_sync.md R133, 30_encoding.md R110). -/
def byteAccepted (p : Phase) (f : FrameSync) : Bool := rxReady f && f.phase == p

/-- A whole frame unit of layout `l` is accepted: FS collects units, of that layout, and none is begun (log 10). -/
def unitAccepted (l : Layout) (f : FrameSync) : Bool := byteAccepted .frame f && f.cfg.layout == l && f.fidx == 0

end Sys2Proof.Machine
end

