-- ==== Sys2Proof/Machine/Operands.lean ====
section
/-! DEFINITION. The operand forms of the four field types: raw operand, conversion, scaling, table lookup
(30_encoding.md R97, 41_field_extract.md R172 to R178). -/

namespace Sys2Proof.Machine

/-- The scaling entry of numeric field `i`; an index that no layout has is not scaled (log 17). -/
def scalingOf (c : FsConfig) (i : Nat) : Scaling := (c.scaling.toList)[i]?.getD noScaling

/-- `scale(i, r)` (41_field_extract.md R177): the bypass is bit for bit, else multiply then add, two roundings. -/
def scaleField (c : FsConfig) (seq i : Nat) (r : F64) : F64 :=
  let e := scalingOf c i
  if e.en then fadd (drawNaN seq 2) (fmul (drawNaN seq 1) e.scale r) e.offset else r

/-- The channel value of an `F32` field whose raw operand is `w` (41_field_extract.md R172). -/
def f32Channel (c : FsConfig) (seq i : Nat) (w : Word) : F64 := scaleField c seq i (f64OfF32 (drawNaN seq 0) w)

/-- The channel value of a `U16` field whose raw operand is `n` (41_field_extract.md R173). -/
def u16Channel (c : FsConfig) (seq i : Nat) (n : Half) : F64 := scaleField c seq i (f64OfU16 n)

/-- An entry of a label table: present exactly when its valid bit is 1 (10_state.md R21). -/
def tableEntry (t : LabelTable) (c : Byte) : Option Label :=
  match t with
  | [] => none
  | (k, l) :: t => if c = k then some l else tableEntry t c

/-- The resolution of a code: known, or the explicit unknown (41_field_extract.md R174, R175). -/
def resolve (t : LabelTable) (c : Byte) : EnumValue :=
  match tableEntry t c with
  | some l => { code := c, res := .known l }
  | none => { code := c, res := .unknown }

end Sys2Proof.Machine
end

