-- ==== Sys2Proof/Machine/Estimator.lean ====
section
/-! DEFINITION. KF (42_estimator.md R202, R205) and the coupling CHX (R215). Each floating-point operation has a place of its
own among the free NaN values. -/

namespace Sys2Proof.Machine

/-- 1.0, 2.0 and 4.0 in binary64. -/
def oneF : F64 := 0x3FF0000000000000
def twoF : F64 := 0x4000000000000000
def fourF : F64 := 0x4010000000000000

/-- KF after `KF.INIT(dt, Q, R, p0)` (42_estimator.md R202); `nan` gives the NaN of each place. -/
def constructed (nan : Nat → F64) (dt q r p0 : F64) : Estimator :=
  let dt2 := fmul (nan 0) dt dt
  let dt3 := fmul (nan 1) dt2 dt
  let dt4 := fmul (nan 2) dt2 dt2
  { dt := dt, qn := q, rn := r, p0 := p0
    qd00 := fdiv (nan 4) (fmul (nan 3) q dt4) fourF
    qd01 := fdiv (nan 6) (fmul (nan 5) q dt3) twoF
    qd11 := fmul (nan 7) q dt2
    x0 := 0, x1 := 0, p00 := p0, p01 := 0, p10 := 0, p11 := p0, ready := true }

/-- What the predict half of a cycle computes (42_estimator.md R205). -/
structure Prediction where
  x0p  : F64
  x1p  : F64
  pp00 : F64
  pp01 : F64
  pp10 : F64
  pp11 : F64
deriving DecidableEq, Repr

/-- The predict half of `KF.STEP` (42_estimator.md R205, R206). -/
def predict (nan : Nat → F64) (k : Estimator) : Prediction :=
  let x0p := fadd (nan 1) k.x0 (fmul (nan 0) k.x1 k.dt)
  let a00 := fadd (nan 3) k.p00 (fmul (nan 2) k.dt k.p10)
  let a01 := fadd (nan 5) k.p01 (fmul (nan 4) k.dt k.p11)
  let a10 := fadd (nan 7) k.p10 (fmul (nan 6) k.dt k.p11)
  { x0p := x0p
    x1p := k.x1
    pp00 := fadd (nan 10) (fadd (nan 9) a00 (fmul (nan 8) k.dt a01)) k.qd00
    pp01 := fadd (nan 11) a01 k.qd01
    pp10 := fadd (nan 12) a10 k.qd01
    pp11 := fadd (nan 13) k.p11 k.qd11 }

/-- The update half of `KF.STEP` (42_estimator.md R205, R207). -/
def update (nan : Nat → F64) (e : Estimator) (p : Prediction) (z : F64) : Estimator :=
  let y := fsub (nan 14) z p.x0p
  let s := fadd (nan 15) p.pp00 e.rn
  let k := fdiv (nan 16) oneF s
  { e with
    x0 := fadd (nan 19) p.x0p (fmul (nan 18) (fmul (nan 17) k p.pp00) y)
    x1 := fadd (nan 22) p.x1p (fmul (nan 21) (fmul (nan 20) k p.pp10) y)
    p00 := fsub (nan 25) p.pp00 (fmul (nan 24) k (fmul (nan 23) p.pp00 p.pp00))
    p01 := fsub (nan 28) p.pp01 (fmul (nan 27) k (fmul (nan 26) p.pp00 p.pp01))
    p10 := fsub (nan 31) p.pp10 (fmul (nan 30) k (fmul (nan 29) p.pp10 p.pp00))
    p11 := fsub (nan 34) p.pp11 (fmul (nan 33) k (fmul (nan 32) p.pp10 p.pp01)) }

/-- KF after one predict-then-update cycle on the measurement `z` (42_estimator.md R205). -/
def cycled (nan : Nat → F64) (e : Estimator) (z : F64) : Estimator := update nan e (predict nan e) z

/-- The output of a cycle: the values just written. -/
def Estimator.estimate (e : Estimator) : Output := .est e.x0 e.x1

/-- KF.INIT (42_estimator.md R202): accepted in every state, its operands not checked (R203). -/
def execKfInit (dt q r p0 : F64) (s : State) : Result :=
  .next ((s.withKf (constructed (drawNaN s.nanSeq) dt q r p0)).accept [])

/-- KF.STEP (42_estimator.md R205): refused while `READY = 0` (93_implementation_defined.md U8; log 3). -/
def execKfStep (z : F64) (s : State) : Result :=
  let k := cycled (drawNaN s.nanSeq) s.kf z
  if s.kf.ready then .next ((s.withKf k).accept [k.estimate]) else .next s.refuse

/-- The value that channel `i` routes: that of the Sample emitted in this step (42_estimator.md R215). -/
def routedValue (i : BitVec 4) : List Output → Option F64
  | [] => none
  | .sample s :: _ => s.num[i.toNat]?
  | .ended :: o => routedValue i o
  | .est _ _ :: o => routedValue i o

/-- CHX (42_estimator.md R215): one cycle on the routed value, its estimate after the Sample; without a KF, or without an
emitted Sample that has the channel, KF is untouched (log 10). -/
def execChx (i : BitVec 4) (s : State) : Result :=
  match routedValue i s.out with
  | none => .next s
  | some z =>
    let k := cycled (drawNaN s.nanSeq) s.kf z
    if s.kf.ready then .next { s.withKf k with out := s.out ++ [k.estimate] } else .next s

end Sys2Proof.Machine
end

