-- ==== Sys2Proof/Machine/Extract.lean ====
section
/-! DEFINITION. The extraction operations (41_field_extract.md R172 to R176), each at the place the extraction loop has
reached, and the loop itself (R171). -/

namespace Sys2Proof.Machine

/-- A numeric field extracted: its value appended, the offset moved on, one draw used up. -/
def State.pushNum (s : State) (width : Nat) (v : F64) : State :=
  { s with xt := { s.xt with off := s.xt.off + width, num := s.xt.num ++ [v] }, nanSeq := s.nanSeq + 1 }

/-- F32 (41_field_extract.md R172). -/
def execF32 (s : State) : Result :=
  match memRead4 s.fs.fb s.xt.off with
  | none => .fault .frameBufferRange
  | some w => .next (s.pushNum 4 (f32Channel s.fs.cfg s.nanSeq s.xt.num.length w))

/-- U16 (41_field_extract.md R173). -/
def execU16 (s : State) : Result :=
  match memRead2 s.fs.fb s.xt.off with
  | none => .fault .frameBufferRange
  | some n => .next (s.pushNum 2 (u16Channel s.fs.cfg s.nanSeq s.xt.num.length n))

/-- U8E.FAULT (41_field_extract.md R174). -/
def execU8eFault (s : State) : Result :=
  match memRead1 s.fs.fb s.xt.off with
  | none => .fault .frameBufferRange
  | some c => .next { s with xt := { s.xt with off := s.xt.off + 1, fault := some (resolve s.fs.cfg.faultTable c) } }

/-- U8E.STATE (41_field_extract.md R175). -/
def execU8eState (s : State) : Result :=
  match memRead1 s.fs.fb s.xt.off with
  | none => .fault .frameBufferRange
  | some c => .next { s with xt := { s.xt with off := s.xt.off + 1, state := some (resolve s.fs.cfg.stateTable c) } }

/-- PAD8 (41_field_extract.md R176): the byte is not read. -/
def execPad8 (s : State) : Result := .next { s with xt := { s.xt with off := s.xt.off + 1 } }

/-- The extraction operation of a descriptor. -/
def execField (f : FieldType) (s : State) : Result :=
  match f with
  | .pad8 => execPad8 s
  | .u8eFault => execU8eFault s
  | .u8eState => execU8eState s
  | .u16 => execU16 s
  | .f32 => execF32 s

/-- The loop over the descriptors, in wire order (41_field_extract.md R171). -/
def extractFields : List FieldType → State → Result
  | [], s => .next s
  | f :: fs, s => andThen (execField f s) (extractFields fs)

/-- The Sample that the loop's variables hold (41_field_extract.md R171). -/
def Extraction.sample (x : Extraction) : Sample := { num := x.num, fault := x.fault, state := x.state }

end Sys2Proof.Machine
end

