-- ==== Sys2Proof/Machine/FrameSync.lean ====
section
/-! DEFINITION. The control operations of FS but for RX.FRAME (40_frame_sync.md R131 to R139). -/

namespace Sys2Proof.Machine

/-- NOP (40_frame_sync.md R139): no state changes, no output. -/
def execNop (s : State) : Result := .next (s.accept [])

/-- NEXT (40_frame_sync.md R132): ignored in `IDLE` (log 14), a demand in the active phases, `END` again in `DONE`. -/
def execNext (s : State) : Result :=
  match s.fs.phase with
  | .idle => .next (s.accept [])
  | .hunt => .next ((s.withFs { s.fs with demand := true }).accept [])
  | .skip => .next ((s.withFs { s.fs with demand := true }).accept [])
  | .frame => .next ((s.withFs { s.fs with demand := true }).accept [])
  | .done => .next (s.accept [.ended])

/-- START (40_frame_sync.md R131): latch the configuration and hunt; an illegal configuration is refused
(30_encoding.md R107, 93_implementation_defined.md U5; log 3). -/
def execStart (cfg : ConfigInputs) (s : State) : Result :=
  match layoutOfCode cfg.layout with
  | none => .next s.refuse
  | some l => if configLegal cfg then .next ((s.withFs (s.fs.started cfg l)).accept []) else .next s.refuse

/-- The window with one more byte: the oldest is dropped, the newest stands in bits 31 to 24 (10_state.md R23). -/
def shiftWindow (w : Word) (d : Byte) : Word := d ++ w.extractLsb' 8 24

/-- `min(WCNT + 1, 4)` (40_frame_sync.md R134). -/
def countWindow (c : BitVec 3) : BitVec 3 := if c.toNat < 4 then c + 1 else 4

/-- FS after a byte accepted while hunting (40_frame_sync.md R134): lock when four bytes of this session equal the marker. -/
def FrameSync.hunted (f : FrameSync) (d : Byte) : FrameSync :=
  let w := shiftWindow f.w d
  let c := countWindow f.wcnt
  let g := { f with w := w, wcnt := c }
  if c = 4 ∧ w = f.cfg.magic then
    if hdrBytes f.cfg = 0 then { g with fidx := 0, phase := .frame }
    else { g with fidx := 0, phase := .skip, skipcnt := hdrBytes f.cfg }
  else g

/-- RX.HUNT (40_frame_sync.md R134). -/
def execRxHunt (d : Byte) (s : State) : Result :=
  if byteAccepted .hunt s.fs then .next ((s.withFs (s.fs.hunted d)).accept []) else .next s.hold

/-- FS after a byte accepted while skipping (40_frame_sync.md R135): the byte itself is looked at by nothing. -/
def FrameSync.skipped (f : FrameSync) : FrameSync :=
  let g := { f with skipcnt := f.skipcnt - 1 }
  if g.skipcnt = 0 then { g with phase := .frame, fidx := 0 } else g

/-- RX.SKIP (40_frame_sync.md R135). -/
def execRxSkip (_d : Byte) (s : State) : Result :=
  if byteAccepted .skip s.fs then .next ((s.withFs s.fs.skipped).accept []) else .next s.hold

/-- EOS (40_frame_sync.md R137): the data bits are ignored (30_encoding.md R103). -/
def execEos (_x : Byte) (s : State) : Result :=
  if rxReady s.fs then .next (raiseEnd .eos s) else .next s.hold

end Sys2Proof.Machine
end

