-- ==== Sys2Proof/Machine/FrameUnit.lean ====
section
/-! DEFINITION. RX.FRAME and the wire frames: a frame unit collected, checked, deserialized and handed over in one step
(40_frame_sync.md R136, 41_field_extract.md R171, 20_memory.md R64). -/

namespace Sys2Proof.Machine

/-- The Sample handed over (40_frame_sync.md R136): `DEMAND <- 0`, output `SAMPLE`, the loop's variables let go. -/
def handOver (s : State) : State :=
  { ((s.withFs { s.fs with demand := false }).accept [.sample s.xt.sample]) with xt := Extraction.start }

/-- Emission with the coupling: CHX fires when a channel is selected (42_estimator.md R215). -/
def emitSample (s : State) : Result :=
  if chselValid s.fs.cfg.chsel then execChx (chselIndex s.fs.cfg.chsel) (handOver s) else .next (handOver s)

/-- The unit in the frame buffer is complete (40_frame_sync.md R136): the marker first, then the extraction; a wrong marker
ends the sequence (60_exceptions.md R244). -/
def completeUnit (s : State) : Result :=
  match memRead4 s.fs.fb 0 with
  | none => .fault .frameBufferRange
  | some m =>
    if m = s.fs.cfg.magic then
      andThen (extractFields (fieldsOf s.fs.cfg.layout) { s with xt := Extraction.start }) emitSample
    else .next (raiseEnd .desync s)

/-- A byte accepted while collecting (40_frame_sync.md R136): stored first, the unit-complete test second. -/
def collectByte (d : Byte) (s : State) : Result :=
  match memWrite1 s.fs.fb s.fs.fidx.toNat d with
  | none => .fault .frameBufferRange
  | some fb =>
    if s.fs.fidx.toNat + 1 < frameLen s.fs.cfg.layout then
      .next ((s.withFs { s.fs with fb := fb, fidx := s.fs.fidx + 1 }).accept [])
    else completeUnit (s.withFs { s.fs with fb := fb, fidx := 0 })

/-- RX.FRAME (40_frame_sync.md R136). -/
def execRxFrame (d : Byte) (s : State) : Result :=
  if byteAccepted .frame s.fs then collectByte d s else .next s.hold

/-- A whole frame unit received between two units (log 10): its bytes stored, then complete. -/
def receiveUnit (l : Layout) (u : List Byte) (s : State) : Result :=
  if unitAccepted l s.fs then completeUnit (s.withFs { s.fs with fb := storeBytes s.fs.fb 0 u }) else .next s.hold

/-- FRAME.A (30_encoding.md R92, 41_field_extract.md R171). -/
def execFrameA (f0 f1 f2 f3 f4 f5 : Word) (u0 u1 : Half) (s : State) : Result :=
  receiveUnit .a (unitA f0 f1 f2 f3 f4 f5 u0 u1) s

/-- FRAME.B (30_encoding.md R93, 41_field_extract.md R171). -/
def execFrameB (f0 f1 f2 f3 f4 f5 f6 : Word) (u0 : Half) (fault state : Byte) (s : State) : Result :=
  receiveUnit .b (unitB f0 f1 f2 f3 f4 f5 f6 u0 fault state) s

/-- FRAME.C (30_encoding.md R94, 41_field_extract.md R171). -/
def execFrameC (f0 f1 f2 f3 f4 f5 : Word) (u0 : Half) (fault pad : Byte) (s : State) : Result :=
  receiveUnit .c (unitC f0 f1 f2 f3 f4 f5 u0 fault pad) s

end Sys2Proof.Machine
end

