-- ==== Sys2Proof/Machine/Dispatch.lean ====
section
/-! DEFINITION. One arm per operation (00_scope.md R7 and the three wire frames). -/

namespace Sys2Proof.Machine

def exec (i : Instr) (s : State) : Host.Outcome State Fault Refusal :=
  match i with
  | .nop => Sys2Proof.Machine.execNop s
  | .next => Sys2Proof.Machine.execNext s
  | .start cfg => Sys2Proof.Machine.execStart cfg s
  | .rxHunt d => Sys2Proof.Machine.execRxHunt d s
  | .rxSkip d => Sys2Proof.Machine.execRxSkip d s
  | .rxFrame d => Sys2Proof.Machine.execRxFrame d s
  | .eos x => Sys2Proof.Machine.execEos x s
  | .pad8 => Sys2Proof.Machine.execPad8 s
  | .u8eFault => Sys2Proof.Machine.execU8eFault s
  | .u8eState => Sys2Proof.Machine.execU8eState s
  | .u16 => Sys2Proof.Machine.execU16 s
  | .f32 => Sys2Proof.Machine.execF32 s
  | .kfInit dt q r p0 => Sys2Proof.Machine.execKfInit dt q r p0 s
  | .kfStep z => Sys2Proof.Machine.execKfStep z s
  | .chx n => Sys2Proof.Machine.execChx n s
  | .frameA f0 f1 f2 f3 f4 f5 u0 u1 => Sys2Proof.Machine.execFrameA f0 f1 f2 f3 f4 f5 u0 u1 s
  | .frameB f0 f1 f2 f3 f4 f5 f6 u0 fault state => Sys2Proof.Machine.execFrameB f0 f1 f2 f3 f4 f5 f6 u0 fault state s
  | .frameC f0 f1 f2 f3 f4 f5 u0 fault pad => Sys2Proof.Machine.execFrameC f0 f1 f2 f3 f4 f5 u0 fault pad s

end Sys2Proof.Machine
end

