-- ==== Sys2Proof/Machine/Fetch.lean ====
section
/-! DEFINITION. How events reach the block (00_scope.md R6, 30_encoding.md R103 to R105; logs 1 to 3): the sender whose turn it
is presents its oldest word; an accepted or refused word leaves its queue, a held one stays. -/

namespace Sys2Proof.Machine

/-- The modes that decoding reads (30_encoding.md R108). -/
def decodeMode (s : State) : DecodeMode := { phase := s.fs.phase, layout := s.fs.cfg.layout }

/-- The oldest word that a port's sender holds. -/
def portWord (e : Environment) : Port → Option PlacedWord
  | .cmd => e.cmdIn.head?.map PlacedWord.cmd
  | .src => e.srcIn.head?.map PlacedWord.src
  | .kcmd => e.kcmdIn.head?.map PlacedWord.kcmd

/-- The word presented now, if any. -/
def presented (s : State) : Option PlacedWord :=
  match s.io.sched with
  | [] => none
  | p :: _ => portWord s.io p

/-- A word taken from its sender. -/
def takeWord (e : Environment) : Port → Environment
  | .cmd => { e with cmdIn := e.cmdIn.tail }
  | .src => { e with srcIn := e.srcIn.tail }
  | .kcmd => { e with kcmdIn := e.kcmdIn.tail }

/-- The turn is over; the word presented is gone unless it was held. -/
def Environment.turnOver (e : Environment) (r : Response) : Environment :=
  match e.sched with
  | [] => e
  | p :: ps =>
    match r with
    | .accepted => { takeWord e p with sched := ps }
    | .refused => { takeWord e p with sched := ps }
    | .held => { e with sched := ps }

/-- The state after its turn is over. -/
def endTurn (s : State) : State := { s with io := s.io.turnOver s.resp }

/-- A word that is no operation (30_encoding.md R107): a reserved code is refused, no command changes nothing, a source
answer nobody asked for is held. -/
def rejectWord (r : Reject) (s : State) : State :=
  match r with
  | .reservedCmd => s.refuse
  | .reservedKcmd => s.refuse
  | .noKcmd => s.accept []
  | .sourceNotRead => s.hold
  | .reservedDescriptor => s.refuse
  | .noChannel => s.accept []
  | .unitLength => s.refuse
  | .unitMarker => s.refuse

/-- One event: what the presented word does, and the end of the turn. With nothing presented the command port shows its idle
code, NOP (40_frame_sync.md R139). -/
def runPresented (s : State) : Result :=
  match presented s with
  | none => andThen (exec .nop s) fun t => .next (endTurn t)
  | some p =>
    match decode (decodeMode s) p with
    | .ok i => andThen (exec i s) fun t => .next (endTurn t)
    | .error r => .next (endTurn (rejectWord r s))

/-! ### Presenting a word -/

/-- The host presents a command next. -/
def hostSends (w : CmdWord) (s : State) : State :=
  { s with io := { s.io with sched := .cmd :: s.io.sched, cmdIn := w :: s.io.cmdIn } }

/-- The host presents a KF command next. -/
def kfSends (w : KcmdWord) (s : State) : State :=
  { s with io := { s.io with sched := .kcmd :: s.io.sched, kcmdIn := w :: s.io.kcmdIn } }

/-- The byte source answers next. -/
def sourceSends (w : BitVec 9) (s : State) : State :=
  { s with io := { s.io with sched := .src :: s.io.sched, srcIn := w :: s.io.srcIn } }

/-- FS reading in a phase. -/
def readingIn (p : Phase) (s : State) : State := s.withFs { s.fs with phase := p, demand := true }

/-- FS with all of a unit but its last byte collected. -/
def lastByteMissing (l : Layout) (u : List Byte) (s : State) : State :=
  readingIn .frame (s.withFs
    { s.fs with
      cfg := { s.fs.cfg with layout := l }
      fb := storeBytes s.fs.fb 0 (u.take (frameLen l - 1))
      fidx := BitVec.ofNat 6 (frameLen l - 1) })

/-- A layout that has the field. -/
def layoutWith : FieldType → Layout
  | .pad8 => .c
  | .u8eFault => .b
  | .u8eState => .b
  | .u16 => .a
  | .f32 => .a

/-- A unit with the session's marker and a payload of zeros. -/
def blankUnit (l : Layout) (s : State) : List Byte := bytes32 s.fs.cfg.magic ++ List.replicate (payLen l) 0

/-- The session reads units that begin with the marker constant. -/
def withMarker (s : State) : State := s.withFs { s.fs with cfg := { s.fs.cfg with magic := magic } }

/-- Everything that makes the very next step run a word's operation (log 11): a port's word is presented, a byte in the phase
that reads it; a descriptor, `CHSEL` or a unit runs inside the step that completes a unit, so the unit's last byte is
presented. -/
def presentNext (m : DecodeMode) (p : PlacedWord) (s : State) : State :=
  match p with
  | .cmd w => hostSends w s
  | .src w => sourceSends w (readingIn m.phase s)
  | .kcmd w => kfSends w s
  | .desc d =>
    let l := ((fieldOfCode d).map layoutWith).getD .a
    sourceSends (srcByte 0) (lastByteMissing l (blankUnit l s) s)
  | .chsel c =>
    let t := s.withFs { s.fs with cfg := { s.fs.cfg with chsel := c } }
    sourceSends (srcByte 0) (lastByteMissing .a (blankUnit .a s) { t with kf := { t.kf with ready := true } })
  | .unit u => sourceSends (srcByte (u.getLastD 0)) (lastByteMissing m.layout u (withMarker s))

/-- A table row's number presented; a number at no place changes nothing. -/
def presentTableWord (s : State) (nbits w : Nat) : State :=
  match placeTableWord nbits w with
  | none => s
  | some (m, p) => presentNext m p s

end Sys2Proof.Machine
end

