-- ==== Sys2Proof/Safety.lean ====
section
/-! DEFINITION. The terms in which claims are stated: the invariants of 10_state.md R44 and 42_estimator.md R208, comparison
up to NaN (93_implementation_defined.md U4), correct rounding, the field tables of 30_encoding.md R92 to R94 read off directly, the reference
function of 40_frame_sync.md R140, and a session with its consumer and its source. -/

namespace Sys2Proof.Machine

/-! ### Invariants -/

/-- 10_state.md R44 (a) to (f), the frame buffer in its canonical form, and, while a session exists, a channel that the
layout has. (f) is the type of `LAYOUT`; in (e) a session was started when `PHASE` is not `IDLE`. -/
def FrameSync.inv (f : FrameSync) : Prop :=
  f.wcnt.toNat ≤ 4 ∧
  (f.phase = .skip → 1 ≤ f.skipcnt.toNat ∧ f.skipcnt.toNat ≤ 4 * f.cfg.hdrWords.toNat) ∧
  (f.phase = .frame → f.fidx.toNat < frameLen f.cfg.layout) ∧
  (f.phase = .idle ∨ f.phase = .done → f.demand = false) ∧
  (f.phase ≠ .idle → (f.phase = .done ↔ f.cause ≠ .none)) ∧
  Memory.wf f.fb = true ∧
  (f.phase ≠ .idle → chselValid f.cfg.chsel = true → (chselIndex f.cfg.chsel).toNat < numCount f.cfg.layout)

/-- 42_estimator.md R208: the two covariances are the same value, or both are NaNs. -/
def Estimator.symmetric (k : Estimator) : Prop := sameValue k.p01 k.p10 = true

/-- Between steps: FS as R44 says, KF symmetric once it exists, the extraction loop at rest (10_state.md R37). -/
def State.inv (s : State) : Prop :=
  s.fs.inv ∧ (s.kf.ready = true → s.kf.symmetric) ∧ s.xt = Extraction.start

/-! ### Up to NaN -/

/-- Two lists of values, pairwise the same value. -/
def sameValues : List F64 → List F64 → Bool
  | [], [] => true
  | a :: as, b :: bs => sameValue a b && sameValues as bs
  | [], _ :: _ => false
  | _ :: _, [] => false

/-- Two Samples, the same up to the bits of NaNs. -/
def sameSample (a b : Sample) : Bool := sameValues a.num b.num && a.fault == b.fault && a.state == b.state

/-- Two lists of Samples, pairwise the same. -/
def sameSamples : List Sample → List Sample → Bool
  | [], [] => true
  | a :: as, b :: bs => sameSample a b && sameSamples as bs
  | [], _ :: _ => false
  | _ :: _, [] => false

/-- Two outputs, the same up to the bits of NaNs. -/
def sameOutput : Output → Output → Bool
  | .sample a, .sample b => sameSample a b
  | .ended, .ended => true
  | .est a b, .est c d => sameValue a c && sameValue b d
  | .sample _, .ended => false
  | .sample _, .est _ _ => false
  | .ended, .sample _ => false
  | .ended, .est _ _ => false
  | .est _ _, .sample _ => false
  | .est _ _, .ended => false

/-- Two lists of outputs, pairwise the same. -/
def sameOutputs : List Output → List Output → Bool
  | [], [] => true
  | a :: as, b :: bs => sameOutput a b && sameOutputs as bs
  | [], _ :: _ => false
  | _ :: _, [] => false

/-- Two states of KF, the same up to the bits of NaNs. -/
def sameEstimator (a b : Estimator) : Prop :=
  sameValues [a.dt, a.qn, a.rn, a.p0, a.qd00, a.qd01, a.qd11] [b.dt, b.qn, b.rn, b.p0, b.qd00, b.qd01, b.qd11] = true ∧
  sameValues [a.x0, a.x1, a.p00, a.p01, a.p10, a.p11] [b.x0, b.x1, b.p00, b.p01, b.p10, b.p11] = true ∧ a.ready = b.ready

/-- Two states of KF with the same configuration and covariance, the bits of NaNs aside; their estimates may differ. -/
def sameCovariance (a b : Estimator) : Prop :=
  sameValues [a.dt, a.rn, a.qd00, a.qd01, a.qd11] [b.dt, b.rn, b.qd00, b.qd01, b.qd11] = true ∧
  sameValues [a.p00, a.p01, a.p10, a.p11] [b.p00, b.p01, b.p10, b.p11] = true ∧ a.ready = b.ready

/-! ### Correct rounding (42_estimator.md R201 (b), (d)), of the exact result `n / d` in units of 2^-1074 -/

/-- No finite binary64 value is nearer to the exact result than a finite `r`. -/
def nearest (r : F64) (n d : Int) : Prop :=
  isFinite r = true → ∀ x : F64, isFinite x = true → |signedUnits r * d - n| ≤ |signedUnits x * d - n|

/-- Where another finite binary64 value is as near as a finite `r`, the last fraction bit of `r` is 0. -/
def evenAtTies (r : F64) (n d : Int) : Prop :=
  isFinite r = true → ∀ x : F64, isFinite x = true → signedUnits x ≠ signedUnits r →
    |signedUnits x * d - n| = |signedUnits r * d - n| → magOf r % 2 = 0

/-- The least exact magnitude that overflows, in units: 2^1024 - 2^970, half a last place beyond the greatest finite value. -/
def overflowBound : Int := 2 ^ 2098 - 2 ^ 2044

/-- `r` is not a NaN, and it is an infinity exactly from that magnitude on, with the sign of the exact result. -/
def overflowsTo (r : F64) (n d : Int) : Prop :=
  isNaN r = false ∧ (isInf r = true ↔ overflowBound * |d| ≤ |n|) ∧ (isInf r = true → signOf r = decide (n * d < 0))

/-! ### The field tables (30_encoding.md R92 to R94), as sums of byte values (00_scope.md R8) -/

/-- `b0 + 256*b1`. -/
def halfAt (u : Nat → Byte) (o : Nat) : Half := BitVec.ofNat 16 ((u o).toNat + 256 * (u (o + 1)).toNat)

/-- `b0 + 256*b1 + 65536*b2 + 16777216*b3`. -/
def wordAt (u : Nat → Byte) (o : Nat) : Word :=
  BitVec.ofNat 32
    ((u o).toNat + 256 * (u (o + 1)).toNat + 65536 * (u (o + 2)).toNat + 16777216 * (u (o + 3)).toNat)

/-- The Sample of a unit by the offsets of the tables; `seq` numbers the first of its draws. -/
def tableSample (c : FsConfig) (seq : Nat) (u : Nat → Byte) : Sample :=
  let f (i o : Nat) := f32Channel c (seq + i) i (wordAt u o)
  let h (i o : Nat) := u16Channel c (seq + i) i (halfAt u o)
  match c.layout with
  | .a =>
    { num := [f 0 4, f 1 8, f 2 12, f 3 16, f 4 20, f 5 24, h 6 28, h 7 30], fault := none, state := none }
  | .b =>
    { num := [f 0 4, f 1 8, f 2 12, f 3 16, f 4 20, f 5 24, f 6 28, h 7 32]
      fault := some (resolve c.faultTable (u 34)), state := some (resolve c.stateTable (u 35)) }
  | .c =>
    { num := [f 0 4, f 1 8, f 2 12, f 3 16, f 4 20, f 5 24, h 6 28]
      fault := some (resolve c.faultTable (u 30)), state := none }

/-! ### The reference function (40_frame_sync.md R140) -/

/-- The least index at which four bytes stand. -/
def findMarker (m : List Byte) : List Byte → Option Nat
  | [] => none
  | b :: bs => if (b :: bs).take 4 = m then some 0 else (findMarker m bs).map (· + 1)

/-- What `decode` gives: the units whose Samples are emitted, the cause recorded, the bytes consumed. -/
structure RefRun where
  units    : List (List Byte)
  cause    : Cause
  consumed : Nat
deriving DecidableEq, Repr

/-- The loop of `decode` over the bytes after the header; `fuel` bounds the units left. -/
def refUnits (m : List Byte) (fl : Nat) : (fuel : Nat) → List Byte → RefRun
  | 0, s => { units := [], cause := .eos, consumed := s.length }
  | n + 1, s =>
    if s.length < fl then { units := [], cause := .eos, consumed := s.length }
    else if s.take 4 ≠ m then { units := [], cause := .desync, consumed := fl }
    else
      let r := refUnits m fl n (s.drop fl)
      { units := s.take fl :: r.units, cause := r.cause, consumed := fl + r.consumed }

/-- `decode(L, s)` (40_frame_sync.md R140), for a latched configuration. -/
def refDecode (c : FsConfig) (s : List Byte) : RefRun :=
  match findMarker (bytes32 c.magic) s with
  | none => { units := [], cause := .eos, consumed := s.length }
  | some i =>
    let j := i + 4 + 4 * c.hdrWords.toNat
    if s.length < j then { units := [], cause := .eos, consumed := s.length }
    else
      let r := refUnits (bytes32 c.magic) (frameLen c.layout) (s.length + 1) (s.drop j)
      { r with consumed := j + r.consumed }

/-- The Samples of a list of units. -/
def refSamples (c : FsConfig) (us : List (List Byte)) : List Sample :=
  us.map fun u => tableSample c 0 fun k => u.getD k 0

/-! ### A session: the consumer asks whenever it may, the source delivers bytes and then "closed" (40_frame_sync.md R140) -/

/-- The Samples among outputs. -/
def samplesOf : List Output → List Sample
  | [] => []
  | .sample s :: o => s :: samplesOf o
  | .ended :: o => samplesOf o
  | .est _ _ :: o => samplesOf o

/-- `NEXT` when no demand stands. -/
def askNext (s : State) : Result :=
  if s.fs.demand then .next s else step (hostSends { code := 1, cfg := zeroConfig } s)

/-- The source delivers a byte. -/
def deliver (b : Byte) (s : State) : Result := step (sourceSends (srcByte b) s)

/-- The source answers "closed". -/
def closeSource (s : State) : Result := step (sourceSends (srcClosed 0) s)

/-- What a session gave: its Samples in emission order, the bytes consumed, the state at its end. -/
structure Session where
  samples  : List Sample
  consumed : Nat
  final    : State
deriving DecidableEq, Repr

/-- A session run to its end; no result where a step stops. -/
def runSession : List Byte → State → Option Session
  | [], s =>
    if s.fs.phase = .done then some { samples := [], consumed := 0, final := s }
    else
      match andThen (askNext s) closeSource with
      | .next t => some { samples := samplesOf t.out, consumed := 0, final := t }
      | .fault _ => none
      | .refused _ => none
  | b :: bs, s =>
    if s.fs.phase = .done then some { samples := [], consumed := 0, final := s }
    else
      match andThen (askNext s) (deliver b) with
      | .next t =>
        (runSession bs t).map fun r =>
          { samples := samplesOf t.out ++ r.samples, consumed := r.consumed + 1, final := r.final }
      | .fault _ => none
      | .refused _ => none

/-! ### Operations that can complete a unit -/

/-- The reception of a byte of a unit, or of a whole one: what can emit a Sample and run CHX on it. -/
def collectsUnit : Instr → Bool
  | .nop => false
  | .next => false
  | .start _ => false
  | .rxHunt _ => false
  | .rxSkip _ => false
  | .rxFrame _ => true
  | .eos _ => false
  | .pad8 => false
  | .u8eFault => false
  | .u8eState => false
  | .u16 => false
  | .f32 => false
  | .kfInit _ _ _ _ => false
  | .kfStep _ => false
  | .chx _ => false
  | .frameA _ _ _ _ _ _ _ _ => true
  | .frameB _ _ _ _ _ _ _ _ _ _ => true
  | .frameC _ _ _ _ _ _ _ _ _ => true

/-! ### Bytes and measurements one after the other -/

/-- Bytes accepted by RX.FRAME one after the other. -/
def collectBytes : List Byte → State → Result
  | [], s => .next s
  | b :: bs, s => andThen (exec (.rxFrame b) s) (collectBytes bs)

/-- KF.STEP on a list of measurements, one step each: all estimates in order and the last state. -/
def runMeasurements : List F64 → State → Option (List Output × State)
  | [], s => some ([], s)
  | z :: zs, s =>
    match step (kfSends { code := 1, ops := { zeroOperands with z := z } } s) with
    | .next t => (runMeasurements zs t).map fun r => (t.out ++ r.1, r.2)
    | .fault _ => none
    | .refused _ => none

end Sys2Proof.Machine
end

