-- ==== Sys2Proof/Certificates/Slice0/Obligations.lean ====
section
/-! DEFINITION. The statements for the provers. Each says which rule of spec/ it comes from. A draw `drawNaN seq site` is a free
NaN (log 7): every statement holds whatever it is. -/

open Sys2Proof Sys2Proof.Machine

/-! ### Reset and the invariant -/

/-- 10_state.md section 5: hardware reset gives PHASE = IDLE, DEMAND = 0, READY = 0, so the status outputs rx_ready, hunting
and done are 0 (section 3). -/
def Obligations.ResetIsIdleUndemandedAndUnready : Prop :=
  State.reset.fs.phase = .idle ∧ State.reset.fs.demand = false ∧ State.reset.kf.ready = false ∧
    rxReady State.reset.fs = false ∧ hunting State.reset.fs = false ∧ doneFlag State.reset.fs = false

/-- The invariant holds after reset. For WCNT, CAUSE and the frame buffer this rests on the model's own reset values (logs 4
and 5). -/
def Obligations.ResetMeetsTheInvariant : Prop := State.reset.inv

/-- 10_state.md section 6 and 42_estimator.md section 3: every step keeps the invariant (counters in range, DEMAND only in an
active phase, CAUSE set exactly in DONE, the covariance symmetric, the frame buffer canonical, the extraction at rest). -/
def Obligations.StepKeepsTheInvariant : Prop := ∀ s t : State, s.inv → step s = .next t → t.inv

/-- 40_frame_sync.md section 2 (EOS, corner case (e)): no fault state exists; where the invariant holds, every event has its
step. That a refused event (START with an illegal configuration, KF.STEP with READY = 0, code 11) has one too, which changes
nothing of the block, is the model's convention (log 3). -/
def Obligations.StepAlwaysAnswersUnderTheInvariant : Prop := ∀ s : State, s.inv → ∃ t, step s = .next t

/-! ### One step -/

/-- 00_scope.md section 5: a step is the operation that the presented word decodes to, and then the end of the turn. -/
def Obligations.StepRunsTheDecodedOperation : Prop :=
  ∀ (s : State) (p : PlacedWord) (i : Instr), presented s = some p → decode (decodeMode s) p = .ok i →
    step s = andThen (exec i s) fun t => .next (endTurn t)

/-- The model's convention of logs 1 to 3: the turn is over after one presentation; a held word stays the oldest of its sender,
an accepted or refused one is gone, and the other senders are not touched. -/
def Obligations.TurnTakesAtMostThePresentedWord : Prop :=
  ∀ (e : Environment) (p : Port) (ps : List Port), e.sched = p :: ps →
    e.turnOver .held = { e with sched := ps } ∧
    ∀ r : Response, r ≠ .held →
      (e.turnOver r).sched = ps ∧
      (e.turnOver r).cmdIn = (if p = .cmd then e.cmdIn.tail else e.cmdIn) ∧
      (e.turnOver r).srcIn = (if p = .src then e.srcIn.tail else e.srcIn) ∧
      (e.turnOver r).kcmdIn = (if p = .kcmd then e.kcmdIn.tail else e.kcmdIn)

/-- 40_frame_sync.md R133: an answer of the source while rx_ready = 0 is not accepted, changes nothing and stays with the
source; while rx_ready = 1 it is accepted; START, NEXT and NOP are accepted in every state. -/
def Obligations.SourceAnswersAreAcceptedOnlyOnRequest : Prop :=
  (∀ (s : State) (w : BitVec 9) (ws : List (BitVec 9)) (ps : List Port),
    s.io.sched = .src :: ps → s.io.srcIn = w :: ws →
      (rxReady s.fs = false → step s = .next { s with io := { s.io with sched := ps }, resp := .held, out := [] }) ∧
      (rxReady s.fs = true → s.inv →
        ∃ t, step s = .next t ∧ t.resp = .accepted ∧ t.io = { s.io with sched := ps, srcIn := ws })) ∧
  ∀ s : State,
    (∃ t, exec .nop s = .next t ∧ t.resp = .accepted) ∧ (∃ t, exec .next s = .next t ∧ t.resp = .accepted) ∧
    ∀ cfg : ConfigInputs, configLegal cfg = true → ∃ t, exec (.start cfg) s = .next t ∧ t.resp = .accepted

/-- 20_memory.md section 7: FS takes a byte from the source only when it has asked for one, one at a time and in order. -/
def Obligations.BytesAreTakenOnlyOnDemand : Prop :=
  ∀ s t : State, step s = .next t →
    t.io.srcIn = s.io.srcIn ∨ (rxReady s.fs = true ∧ ∃ w, s.io.srcIn = w :: t.io.srcIn)

/-- 30_encoding.md section 5 and log 3: a reserved CMD or KCMD code is refused; nothing of the block changes, there is no
output, and the run goes on. That the word is withdrawn is the model's convention (log 3). 30_encoding.md section 4 and
log 16: KCMD = 00 is no command and a turn with nothing presented no event, so they change nothing of the block either. -/
def Obligations.ReservedCommandCodesAreRefused : Prop :=
  ∀ (s : State) (ps : List Port),
    (∀ (w : CmdWord) (ws : List CmdWord), s.io.sched = .cmd :: ps → s.io.cmdIn = w :: ws → w.code = 3 →
      step s = .next { s with io := { s.io with sched := ps, cmdIn := ws }, resp := .refused, out := [] }) ∧
    (∀ (w : KcmdWord) (ws : List KcmdWord), s.io.sched = .kcmd :: ps → s.io.kcmdIn = w :: ws → w.code = 3 →
      step s = .next { s with io := { s.io with sched := ps, kcmdIn := ws }, resp := .refused, out := [] }) ∧
    (∀ (w : KcmdWord) (ws : List KcmdWord), s.io.sched = .kcmd :: ps → s.io.kcmdIn = w :: ws → w.code = 0 →
      step s = .next { s with io := { s.io with sched := ps, kcmdIn := ws }, resp := .accepted, out := [] }) ∧
    (presented s = none →
      step s = .next { s with io := { s.io with sched := s.io.sched.tail }, resp := .accepted, out := [] })

/-! ### Encodings -/

/-- 30_encoding.md section 8: every well-formed operation is what its own word decodes to, in every mode that selects it; no
operand bit is dropped. -/
def Obligations.EncodedOperationDecodesToItself : Prop :=
  ∀ (i : Instr) (m : DecodeMode), i.wf = true → inMode m i = true → decode m (encode i) = .ok i

/-- 30_encoding.md section 8: at the places where a word carries nothing but its operation, decoding loses nothing: the word is
the encoding of what it decodes to. -/
def Obligations.DecodedWordEncodesToItself : Prop :=
  ∀ (m : DecodeMode) (i : Instr),
    (∀ w : BitVec 9, decode m (.src w) = .ok i → encode i = .src w) ∧
    (∀ d : Byte, decode m (.desc d) = .ok i → encode i = .desc d) ∧
    (∀ c : BitVec 5, decode m (.chsel c) = .ok i → encode i = .chsel c) ∧
    ∀ u : List Byte, decode m (.unit u) = .ok i → encode i = .unit u

/-- 30_encoding.md section 8: words written out from the encodings, one or more of every family, decode to their operations. -/
def Obligations.WrittenOutWordsDecode : Prop :=
  let idle : DecodeMode := { phase := .idle, layout := .a }
  let inPhase (p : Phase) : DecodeMode := { phase := p, layout := .a }
  decode idle (.cmd { code := 0b00, cfg := zeroConfig }) = .ok .nop ∧
  decode idle (.cmd { code := 0b01, cfg := zeroConfig }) = .ok .next ∧
  decode idle (.cmd { code := 0b10, cfg := plainConfig .b }) = .ok (.start (plainConfig .b)) ∧
  decode (inPhase .hunt) (.src 0b001100101) = .ok (.rxHunt 0x65) ∧
  decode (inPhase .skip) (.src 0b001100101) = .ok (.rxSkip 0x65) ∧
  decode (inPhase .frame) (.src 0b001100101) = .ok (.rxFrame 0x65) ∧
  decode (inPhase .frame) (.src 0b101100101) = .ok (.eos 0x65) ∧
  decode idle (.desc 0b00000000) = .ok .pad8 ∧ decode idle (.desc 0b00000001) = .ok .u8eFault ∧
  decode idle (.desc 0b00000010) = .ok .u8eState ∧ decode idle (.desc 0b00000011) = .ok .u16 ∧
  decode idle (.desc 0b00000100) = .ok .f32 ∧
  decode idle (.kcmd { code := 0b01, ops := { z := 6, dt := 1, q := 2, r := 3, p0 := 4 } }) = .ok (.kfStep 6) ∧
  decode idle (.kcmd { code := 0b10, ops := { z := 6, dt := 1, q := 2, r := 3, p0 := 4 } }) = .ok (.kfInit 1 2 3 4) ∧
  decode idle (.chsel 0b10110) = .ok (.chx 6)

/-- 30_encoding.md section 5: the reserved codes are no operation: CMD = 11, KCMD = 11, every descriptor above 4, and CHSEL
without its valid bit routes nothing. -/
def Obligations.ReservedEncodingsAreNoOperation : Prop :=
  ∀ m : DecodeMode,
    (∀ cfg, decode m (.cmd { code := 3, cfg := cfg }) = .error .reservedCmd) ∧
    (∀ ops, decode m (.kcmd { code := 3, ops := ops }) = .error .reservedKcmd) ∧
    (∀ d : Byte, 4 < d.toNat → decode m (.desc d) = .error .reservedDescriptor) ∧
    ∀ c : BitVec 5, c.toNat < 16 → decode m (.chsel c) = .error .noChannel

/-- 30_encoding.md R91: the marker's bytes on the wire, and that no proper prefix of them is a proper suffix, so that two
occurrences in a stream cannot overlap. -/
def Obligations.MarkerCannotOverlapItself : Prop :=
  magic = 0x74656C65 ∧ markerBytes = [0x65, 0x6C, 0x65, 0x74] ∧
  (∀ k : Nat, 1 ≤ k → k ≤ 3 → markerBytes.take k ≠ markerBytes.drop (4 - k)) ∧
  ∀ (s : List Byte) (i j : Nat), i < j → (s.drop i).take 4 = markerBytes → (s.drop j).take 4 = markerBytes → i + 4 ≤ j

/-- 30_encoding.md R101: the three descriptor lists as bytes, the payload lengths they add up to, and the offset the extraction
loop reaches before each field: 4 and the widths of the fields before it. -/
def Obligations.LayoutListsAreTheTables : Prop :=
  (fieldsOf .a).map fieldCode = [4, 4, 4, 4, 4, 4, 3, 3] ∧
  (fieldsOf .b).map fieldCode = [4, 4, 4, 4, 4, 4, 4, 3, 1, 2] ∧
  (fieldsOf .c).map fieldCode = [4, 4, 4, 4, 4, 4, 3, 1, 0] ∧
  layoutCode .a = 0 ∧ layoutCode .b = 1 ∧ layoutCode .c = 2 ∧
  payLen .a = 28 ∧ payLen .b = 32 ∧ payLen .c = 28 ∧ frameLen .a = 32 ∧ frameLen .b = 36 ∧ frameLen .c = 32 ∧
  numCount .a = 8 ∧ numCount .b = 8 ∧ numCount .c = 7 ∧
  (∀ l : Layout, payLen l = ((fieldsOf l).map fieldWidth).sum) ∧
  ∀ (l : Layout) (j : Nat) (s t : State), s.xt = Extraction.start → extractFields ((fieldsOf l).take j) s = .next t →
    t.xt.off = 4 + (((fieldsOf l).take j).map fieldWidth).sum

/-! ### FS control -/

/-- 40_frame_sync.md R139: NOP is CMD = 00 and changes nothing, with no output, in every phase. -/
def Obligations.NopChangesNothing : Prop :=
  (∀ (m : DecodeMode) (cfg : ConfigInputs), decode m (.cmd { code := 0, cfg := cfg }) = .ok .nop) ∧
  ∀ s : State, exec .nop s = .next { s with resp := .accepted, out := [] }

/-- 40_frame_sync.md section 2 (NEXT): ignored in IDLE, a demand in the active phases whether or not one stands, END again in
DONE; nothing else changes. -/
def Obligations.NextDemandsOrRepeatsTheEnd : Prop :=
  ∀ s : State,
    (s.fs.phase = .idle → exec .next s = .next { s with resp := .accepted, out := [] }) ∧
    (s.fs.phase = .hunt ∨ s.fs.phase = .skip ∨ s.fs.phase = .frame →
      exec .next s = .next { s with fs := { s.fs with demand := true }, resp := .accepted, out := [] }) ∧
    (s.fs.phase = .done → exec .next s = .next { s with resp := .accepted, out := [.ended] })

/-- 10_state.md R41: after START, in any phase, FS holds the configuration inputs and hunts with everything cleared; the frame
buffer, KF and all else are unchanged. -/
def Obligations.StartBeginsASession : Prop :=
  ∀ (cfg : ConfigInputs) (l : Layout) (s : State), layoutOfCode cfg.layout = some l → configLegal cfg = true →
    exec (.start cfg) s = .next
      { s with
        fs := { cfg := { toConfigBody := cfg.toConfigBody, layout := l }, phase := .hunt, w := 0, wcnt := 0, skipcnt := 0
                fb := s.fs.fb, fidx := 0, demand := false, cause := .none }
        resp := .accepted, out := [] }

/-- 30_encoding.md section 5: START with layout code 3, or with a valid channel that the layout does not have, is refused: no
state change, no output, the session goes on (93_implementation_defined.md U5; log 3). -/
def Obligations.IllegalStartIsRefused : Prop :=
  ∀ (cfg : ConfigInputs) (s : State),
    (cfg.layout = 3 ∨
      ∃ l, layoutOfCode cfg.layout = some l ∧ 16 ≤ cfg.chsel.toNat ∧ numCount l ≤ cfg.chsel.toNat - 16) →
    exec (.start cfg) s = .next { s with resp := .refused, out := [] }

/-- 40_frame_sync.md section 2 (RX.HUNT): the window is shifted by one byte, the count saturates at 4, and FS locks exactly
when four bytes of this session equal the marker: to SKIP with the header length, or to FRAME where that is 0. -/
def Obligations.HuntingShiftsTheWindowAndLocks : Prop :=
  ∀ (d : Byte) (s : State), s.fs.phase = .hunt → s.fs.demand = true →
    let w : Word := BitVec.ofNat 32 (s.fs.w.toNat / 256 + 16777216 * d.toNat)
    let c : Nat := min (s.fs.wcnt.toNat + 1) 4
    let hb : Nat := 4 * s.fs.cfg.hdrWords.toNat
    (¬(c = 4 ∧ w = s.fs.cfg.magic) →
      exec (.rxHunt d) s = .next
        { s with fs := { s.fs with w := w, wcnt := BitVec.ofNat 3 c }, resp := .accepted, out := [] }) ∧
    (c = 4 ∧ w = s.fs.cfg.magic → hb ≠ 0 →
      exec (.rxHunt d) s = .next
        { s with
          fs := { s.fs with w := w, wcnt := 4, phase := .skip, skipcnt := BitVec.ofNat 6 hb, fidx := 0 }
          resp := .accepted, out := [] }) ∧
    (c = 4 ∧ w = s.fs.cfg.magic → hb = 0 →
      exec (.rxHunt d) s = .next
        { s with fs := { s.fs with w := w, wcnt := 4, phase := .frame, fidx := 0 }, resp := .accepted, out := [] })

/-- 40_frame_sync.md section 2 (RX.SKIP): the count of header bytes goes down by one; at 0 FS collects units; the byte itself
has no effect and nothing else changes. -/
def Obligations.SkippingCountsTheHeaderDown : Prop :=
  ∀ (d : Byte) (s : State), s.fs.phase = .skip → s.fs.demand = true → 1 ≤ s.fs.skipcnt.toNat →
    (s.fs.skipcnt.toNat = 1 →
      exec (.rxSkip d) s = .next
        { s with fs := { s.fs with skipcnt := 0, phase := .frame, fidx := 0 }, resp := .accepted, out := [] }) ∧
    (2 ≤ s.fs.skipcnt.toNat →
      exec (.rxSkip d) s = .next
        { s with
          fs := { s.fs with skipcnt := BitVec.ofNat 6 (s.fs.skipcnt.toNat - 1) }, resp := .accepted, out := [] })

/-- 40_frame_sync.md section 2 (RX.FRAME): a byte that does not complete the unit is stored at FIDX, every other byte of the
frame buffer reads as before, FIDX goes up by one, and nothing else changes. -/
def Obligations.CollectingStoresOneByte : Prop :=
  ∀ (d : Byte) (s : State), s.fs.phase = .frame → s.fs.demand = true → Memory.wf s.fs.fb = true →
    s.fs.fidx.toNat + 1 < frameLen s.fs.cfg.layout →
    ∃ fb : Memory,
      exec (.rxFrame d) s = .next
        { s with
          fs := { s.fs with fb := fb, fidx := BitVec.ofNat 6 (s.fs.fidx.toNat + 1) }, resp := .accepted, out := [] } ∧
      Memory.wf fb = true ∧ ∀ a : Nat, fb.read a = if a = s.fs.fidx.toNat then d else s.fs.fb.read a

/-- 40_frame_sync.md section 2 (RX.FRAME), 41_field_extract.md section 1: the byte that completes a unit with the right marker
emits the Sample of the field tables; FIDX and DEMAND become 0, PHASE stays FRAME, and with no channel selected KF is
untouched. -/
def Obligations.CompletedUnitEmitsItsSample : Prop :=
  ∀ (d : Byte) (s : State), s.fs.phase = .frame → s.fs.demand = true → Memory.wf s.fs.fb = true →
    s.fs.fidx.toNat + 1 = frameLen s.fs.cfg.layout → s.fs.cfg.chsel.toNat < 16 →
    let u : Nat → Byte := fun a => if a = s.fs.fidx.toNat then d else s.fs.fb.read a
    wordAt u 0 = s.fs.cfg.magic →
    ∃ fb : Memory,
      exec (.rxFrame d) s = .next
        { s with
          fs := { s.fs with fb := fb, fidx := 0, demand := false }
          xt := Extraction.start, nanSeq := s.nanSeq + numCount s.fs.cfg.layout, resp := .accepted
          out := [.sample (tableSample s.fs.cfg s.nanSeq u)] } ∧
      Memory.wf fb = true ∧ ∀ a : Nat, fb.read a = u a

/-- 42_estimator.md section 4 (CHX): with a channel selected and KF constructed, the emitting step also runs one KF cycle on
that channel's scaled value and outputs the Sample and then the estimate; with READY = 0 KF is untouched. -/
def Obligations.SelectedChannelIsRoutedToTheEstimator : Prop :=
  ∀ (d : Byte) (s : State), s.fs.phase = .frame → s.fs.demand = true → Memory.wf s.fs.fb = true →
    s.fs.fidx.toNat + 1 = frameLen s.fs.cfg.layout →
    let u : Nat → Byte := fun a => if a = s.fs.fidx.toNat then d else s.fs.fb.read a
    let smp := tableSample s.fs.cfg s.nanSeq u
    let n := numCount s.fs.cfg.layout
    wordAt u 0 = s.fs.cfg.magic →
    ∀ i : Nat, i < n → s.fs.cfg.chsel.toNat = 16 + i →
    ∃ (fb : Memory) (z : F64), smp.num[i]? = some z ∧ (∀ a : Nat, fb.read a = u a) ∧
      (s.kf.ready = true →
        exec (.rxFrame d) s = .next
          { s with
            fs := { s.fs with fb := fb, fidx := 0, demand := false }
            kf := cycled (drawNaN (s.nanSeq + n)) s.kf z
            xt := Extraction.start, nanSeq := s.nanSeq + n + 1, resp := .accepted
            out := [.sample smp,
              .est (cycled (drawNaN (s.nanSeq + n)) s.kf z).x0 (cycled (drawNaN (s.nanSeq + n)) s.kf z).x1] }) ∧
      (s.kf.ready = false →
        exec (.rxFrame d) s = .next
          { s with
            fs := { s.fs with fb := fb, fidx := 0, demand := false }
            xt := Extraction.start, nanSeq := s.nanSeq + n, resp := .accepted, out := [.sample smp] })

/-- 40_frame_sync.md section 2 (RX.FRAME), 60_exceptions.md section 3: a unit whose head is not the marker is consumed whole
and ends the sequence with DESYNC; nothing but PHASE, CAUSE, DEMAND, FIDX and the byte stored changes. -/
def Obligations.WrongMarkerEndsTheSequence : Prop :=
  ∀ (d : Byte) (s : State), s.fs.phase = .frame → s.fs.demand = true → Memory.wf s.fs.fb = true →
    s.fs.fidx.toNat + 1 = frameLen s.fs.cfg.layout →
    let u : Nat → Byte := fun a => if a = s.fs.fidx.toNat then d else s.fs.fb.read a
    wordAt u 0 ≠ s.fs.cfg.magic →
    ∃ fb : Memory,
      exec (.rxFrame d) s = .next
        { s with
          fs := { s.fs with fb := fb, fidx := 0, phase := .done, cause := .desync, demand := false }
          resp := .accepted, out := [.ended] } ∧
      ∀ a : Nat, fb.read a = u a

/-- 40_frame_sync.md section 2 (EOS): "closed" (SRC = 1xxxxxxxx) ends the sequence in every active phase with a demand and in no other
state; the window, the counters, the frame buffer and KF stay as they are; the data bits have no effect. -/
def Obligations.ClosedSourceEndsTheSequence : Prop :=
  ∀ (x : Byte) (s : State),
    (∀ m : DecodeMode, decode m (.src (1#1 ++ x)) = .ok (.eos x)) ∧
    (s.fs.phase = .hunt ∨ s.fs.phase = .skip ∨ s.fs.phase = .frame → s.fs.demand = true →
      exec (.eos x) s = .next
        { s with fs := { s.fs with phase := .done, cause := .eos, demand := false }, resp := .accepted, out := [.ended] }) ∧
    (¬((s.fs.phase = .hunt ∨ s.fs.phase = .skip ∨ s.fs.phase = .frame) ∧ s.fs.demand = true) →
      exec (.eos x) s = .next { s with resp := .held, out := [] })

/-- 40_frame_sync.md R138: in IDLE and DONE, NOP and NEXT change nothing (NEXT outputs END in DONE), bytes and "closed" are
not accepted, START begins a session, and nothing but START leaves the phase or changes the cause. -/
def Obligations.IdleAndDoneWaitForStart : Prop :=
  ∀ s : State, s.fs.phase = .idle ∨ s.fs.phase = .done →
    exec .nop s = .next { s with resp := .accepted, out := [] } ∧
    exec .next s = .next { s with resp := .accepted, out := if s.fs.phase = .idle then [] else [.ended] } ∧
    (∀ d : Byte, ∀ i ∈ [Instr.rxHunt d, Instr.rxSkip d, Instr.rxFrame d, Instr.eos d],
      exec i s = .next { s with resp := .held, out := [] }) ∧
    (∀ (cfg : ConfigInputs) (l : Layout), layoutOfCode cfg.layout = some l → configLegal cfg = true →
      exec (.start cfg) s = .next { s with fs := s.fs.started cfg l, resp := .accepted, out := [] }) ∧
    ∀ (i : Instr) (t : State), (∀ cfg, i ≠ .start cfg) → exec i s = .next t →
      t.fs.phase = s.fs.phase ∧ t.fs.cause = s.fs.cause

/-- 40_frame_sync.md section 1: a byte event or a unit outside its phase, without a demand, or of another layout is not
accepted: nothing changes and there is no output. That a wire frame is received only between two units and in its own layout is
the model's convention (log 10); its bytes one by one are RX.FRAME events. -/
def Obligations.EventsOutsideTheirPhaseAreHeld : Prop :=
  ∀ (i : Instr) (s : State),
    (match i with
      | .rxHunt _ => s.fs.phase ≠ .hunt ∨ s.fs.demand = false
      | .rxSkip _ => s.fs.phase ≠ .skip ∨ s.fs.demand = false
      | .rxFrame _ => s.fs.phase ≠ .frame ∨ s.fs.demand = false
      | .eos _ => s.fs.phase = .idle ∨ s.fs.phase = .done ∨ s.fs.demand = false
      | .frameA _ _ _ _ _ _ _ _ => s.fs.phase ≠ .frame ∨ s.fs.demand = false ∨ s.fs.cfg.layout ≠ .a ∨ s.fs.fidx ≠ 0
      | .frameB _ _ _ _ _ _ _ _ _ _ => s.fs.phase ≠ .frame ∨ s.fs.demand = false ∨ s.fs.cfg.layout ≠ .b ∨ s.fs.fidx ≠ 0
      | .frameC _ _ _ _ _ _ _ _ _ => s.fs.phase ≠ .frame ∨ s.fs.demand = false ∨ s.fs.cfg.layout ≠ .c ∨ s.fs.fidx ≠ 0
      | _ => False) →
    exec i s = .next { s with resp := .held, out := [] }

/-- 40_frame_sync.md section 3: the complete phase transition table. The phase after an operation is the one the table lists, and
every pair not listed leaves it unchanged; DONE is entered with the cause the table names. That a wire
frame behaves as the unit it is, received whole, is no row of the table but the model's convention (log 10). -/
def Obligations.PhaseFollowsTheTransitionTable : Prop :=
  ∀ (i : Instr) (s t : State), Memory.wf s.fs.fb = true → exec i s = .next t →
    (t.fs.phase =
      match i with
      | .start cfg => if configLegal cfg then .hunt else s.fs.phase
      | .rxHunt d =>
        if s.fs.phase = .hunt ∧ s.fs.demand = true ∧ 4 ≤ s.fs.wcnt.toNat + 1 ∧
            BitVec.ofNat 32 (s.fs.w.toNat / 256 + 16777216 * d.toNat) = s.fs.cfg.magic then
          (if 0 < s.fs.cfg.hdrWords.toNat then .skip else .frame)
        else s.fs.phase
      | .rxSkip _ =>
        if s.fs.phase = .skip ∧ s.fs.demand = true ∧ s.fs.skipcnt.toNat = 1 then .frame else s.fs.phase
      | .rxFrame d =>
        if s.fs.phase = .frame ∧ s.fs.demand = true ∧ frameLen s.fs.cfg.layout ≤ s.fs.fidx.toNat + 1 ∧
            wordAt (fun a => if a = s.fs.fidx.toNat then d else s.fs.fb.read a) 0 ≠ s.fs.cfg.magic then .done
        else s.fs.phase
      | .eos _ => if rxReady s.fs = true then .done else s.fs.phase
      | .frameA _ _ _ _ _ _ _ _ =>
        if unitAccepted .a s.fs = true ∧ s.fs.cfg.magic ≠ magic then .done else s.fs.phase
      | .frameB _ _ _ _ _ _ _ _ _ _ =>
        if unitAccepted .b s.fs = true ∧ s.fs.cfg.magic ≠ magic then .done else s.fs.phase
      | .frameC _ _ _ _ _ _ _ _ _ =>
        if unitAccepted .c s.fs = true ∧ s.fs.cfg.magic ≠ magic then .done else s.fs.phase
      | _ => s.fs.phase) ∧
    (s.fs.phase ≠ .done → t.fs.phase = .done →
      t.fs.cause =
        match i with
        | .eos _ => .eos
        | _ => .desync)

/-- 10_state.md section 3 (status outputs): rx_ready, hunting, done and cause are these functions of the state. -/
def Obligations.StatusOutputsAreFunctionsOfTheState : Prop :=
  ∀ f : FrameSync,
    (rxReady f = true ↔ (f.phase = .hunt ∨ f.phase = .skip ∨ f.phase = .frame) ∧ f.demand = true) ∧
    (hunting f = true ↔ f.phase = .hunt) ∧ (doneFlag f = true ↔ f.phase = .done) ∧
    (causeFlag f = 0 ↔ f.cause = .none) ∧ (causeFlag f = 1 ↔ f.cause = .eos) ∧ (causeFlag f = 2 ↔ f.cause = .desync)

/-! ### Memory -/

/-- 00_scope.md section 7 (memory primitives), 20_memory.md section 2: a stored byte is read back, every other byte is as
before, the canonical form is kept, and wider reads are the little-endian sums of the bytes; offsets above 35 do not exist. -/
def Obligations.FrameBufferReadsWhatWasStored : Prop :=
  ∀ (m : Memory) (off : Nat) (b : Byte), Memory.wf m = true →
    (off < 36 → ∃ m' : Memory, memWrite1 m off b = some m' ∧ Memory.wf m' = true ∧
      ∀ a : Nat, m'.read a = if a = off then b else m.read a) ∧
    (36 ≤ off → memWrite1 m off b = none) ∧
    (off + 1 ≤ 36 → ∃ v, memRead1 m off = some v ∧ v = m.read off) ∧
    (off + 2 ≤ 36 → ∃ v, memRead2 m off = some v ∧ v.toNat = (m.read off).toNat + 256 * (m.read (off + 1)).toNat) ∧
    (off + 4 ≤ 36 → ∃ v, memRead4 m off = some v ∧
      v.toNat = (m.read off).toNat + 256 * (m.read (off + 1)).toNat + 65536 * (m.read (off + 2)).toNat +
        16777216 * (m.read (off + 3)).toNat) ∧
    (36 < off + 1 → memRead1 m off = none) ∧ (36 < off + 2 → memRead2 m off = none) ∧
    (36 < off + 4 → memRead4 m off = none)

/-- 10_state.md section 3 (FB): only RX.FRAME and the wire frames write the frame buffer; RX.FRAME writes the byte at FIDX and
no other, a wire frame no byte beyond its length. -/
def Obligations.OnlyUnitBytesReachTheFrameBuffer : Prop :=
  ∀ (i : Instr) (s t : State), Memory.wf s.fs.fb = true → exec i s = .next t →
    match i with
    | .rxFrame _ => ∀ a : Nat, a ≠ s.fs.fidx.toNat → t.fs.fb.read a = s.fs.fb.read a
    | .frameA _ _ _ _ _ _ _ _ => ∀ a : Nat, 32 ≤ a → t.fs.fb.read a = s.fs.fb.read a
    | .frameB _ _ _ _ _ _ _ _ _ _ => ∀ a : Nat, 36 ≤ a → t.fs.fb.read a = s.fs.fb.read a
    | .frameC _ _ _ _ _ _ _ _ _ => ∀ a : Nat, 32 ≤ a → t.fs.fb.read a = s.fs.fb.read a
    | _ => t.fs.fb = s.fs.fb

/-! ### Field extraction -/

/-- 41_field_extract.md section 2 (F32, U16) and section 3: the numeric extractions read the little-endian operand at the
current offset, convert it, scale it (two roundings) only where SCALE_EN of the field's own entry is 1, append the value and
move on; nothing else changes but the draw counter of the free NaNs. The entry of the field with index `i` is entry `i` of the
latched scaling; above index 7, which no layout has, the value is not scaled (log 17). -/
def Obligations.NumericFieldsAreReadConvertedAndScaled : Prop :=
  ∀ (s : State) (e : Scaling),
    (∀ h : s.xt.num.length < 8, e = s.fs.cfg.scaling[s.xt.num.length]) → (8 ≤ s.xt.num.length → e.en = false) →
    let scaled (r : F64) : F64 :=
      if e.en = true then fadd (drawNaN s.nanSeq 2) (fmul (drawNaN s.nanSeq 1) e.scale r) e.offset else r
    (s.xt.off + 4 ≤ 36 →
      exec .f32 s = .next
        { s with
          xt := { s.xt with
            off := s.xt.off + 4
            num := s.xt.num ++ [scaled (f64OfF32 (drawNaN s.nanSeq 0) (wordAt s.fs.fb.read s.xt.off))] }
          nanSeq := s.nanSeq + 1 }) ∧
    (s.xt.off + 2 ≤ 36 →
      exec .u16 s = .next
        { s with
          xt := { s.xt with
            off := s.xt.off + 2, num := s.xt.num ++ [scaled (f64OfU16 (halfAt s.fs.fb.read s.xt.off))] }
          nanSeq := s.nanSeq + 1 })

/-- 41_field_extract.md section 2 (U8E.FAULT, U8E.STATE, PAD8): the raw code is delivered with the label of its valid table
entry, or with Unknown where there is none; each uses its own table. A pad byte is not read. The offset moves on by one and
nothing else changes. -/
def Obligations.CodesAreResolvedAndPadIsSkipped : Prop :=
  (∀ s : State, exec .pad8 s = .next { s with xt := { s.xt with off := s.xt.off + 1 } }) ∧
  ∀ s : State, s.xt.off + 1 ≤ 36 →
    let c := s.fs.fb.read s.xt.off
    let resolves (t : LabelTable) (v : EnumValue) : Prop :=
      v.code = c ∧ (∀ l, (c, l) ∈ t → v.res = .known l) ∧ ((∀ l, (c, l) ∉ t) → v.res = .unknown)
    (LabelTable.wf s.fs.cfg.faultTable = true →
      ∃ v, resolves s.fs.cfg.faultTable v ∧
        exec .u8eFault s = .next { s with xt := { s.xt with off := s.xt.off + 1, fault := some v } }) ∧
    (LabelTable.wf s.fs.cfg.stateTable = true →
      ∃ v, resolves s.fs.cfg.stateTable v ∧
        exec .u8eState s = .next { s with xt := { s.xt with off := s.xt.off + 1, state := some v } })

/-- 20_memory.md section 3 and log 6: an extraction that would read beyond offset 35 stops with the fault of that name (no
reachable state has one). -/
def Obligations.ReadingBeyondTheFrameBufferFaults : Prop :=
  ∀ s : State,
    (36 < s.xt.off + 4 → exec .f32 s = .fault .frameBufferRange) ∧
    (36 < s.xt.off + 2 → exec .u16 s = .fault .frameBufferRange) ∧
    (36 < s.xt.off + 1 → exec .u8eFault s = .fault .frameBufferRange ∧ exec .u8eState s = .fault .frameBufferRange)

/-- 41_field_extract.md R178: widening from binary32 is value-preserving, class by class (2^-149 is 2^925 units of 2^-1074). -/
def Obligations.WideningPreservesTheValue : Prop :=
  ∀ (nan : F64) (w : Word),
    let s := w.getLsbD 31
    let e := w.toNat / 2 ^ 23 % 256
    let f := w.toNat % 2 ^ 23
    let x := f64OfF32 nan w
    (e = 0 → f = 0 → isZero x = true ∧ signOf x = s) ∧
    (e = 0 → f ≠ 0 → signOf x = s ∧ isFinite x = true ∧ unitsOf (magOf x) = f * 2 ^ 925 ∧ 2 ^ 52 ≤ magOf x) ∧
    (1 ≤ e → e ≤ 254 → signOf x = s ∧ magOf x + 127 * 2 ^ 52 = (e + 1023) * 2 ^ 52 + f * 2 ^ 29) ∧
    (e = 255 → f = 0 → isInf x = true ∧ signOf x = s) ∧ (e = 255 → f ≠ 0 → isNaN nan = true → isNaN x = true)

/-- 41_field_extract.md section 2 (U16), section 4 (h): an unsigned 16-bit integer converts exactly and is never negative. -/
def Obligations.UnsignedIntegersConvertExactly : Prop :=
  ∀ n : Half, isFinite (f64OfU16 n) = true ∧ signOf (f64OfU16 n) = false ∧
    unitsOf (magOf (f64OfU16 n)) = n.toNat * 2 ^ 1074

/-- 41_field_extract.md section 5: a Sample depends on the configuration and on the payload bytes alone; neither the marker
bytes, nor the pad byte of layout C, nor earlier frames enter it. -/
def Obligations.SampleDependsOnThePayloadAlone : Prop :=
  ∀ (s1 s2 t1 t2 : State), s1.fs.cfg = s2.fs.cfg → s1.xt = Extraction.start → s2.xt = Extraction.start →
    (∀ a : Nat, 4 ≤ a → a < frameLen s1.fs.cfg.layout → ¬(s1.fs.cfg.layout = .c ∧ a = 31) →
      s1.fs.fb.read a = s2.fs.fb.read a) →
    extractFields (fieldsOf s1.fs.cfg.layout) s1 = .next t1 → extractFields (fieldsOf s2.fs.cfg.layout) s2 = .next t2 →
    sameSample t1.xt.sample t2.xt.sample = true

/-! ### Wire frames -/

/-- 30_encoding.md section 1 (layout A), 41_field_extract.md section 1: the wire frame of layout A, received
between two units (log 10), emits the Sample of its own fields. -/
def Obligations.LayoutAFrameEmitsItsFields : Prop :=
  ∀ (f0 f1 f2 f3 f4 f5 : Word) (u0 u1 : Half) (s : State), unitAccepted .a s.fs = true → Memory.wf s.fs.fb = true →
    s.fs.cfg.magic = magic → s.fs.cfg.chsel.toNat < 16 →
    let c := s.fs.cfg
    let n := s.nanSeq
    ∃ fb : Memory,
      exec (.frameA f0 f1 f2 f3 f4 f5 u0 u1) s = .next
        { s with
          fs := { s.fs with fb := fb, demand := false }
          xt := Extraction.start, nanSeq := n + 8, resp := .accepted
          out := [.sample
            { num := [f32Channel c n 0 f0, f32Channel c (n + 1) 1 f1, f32Channel c (n + 2) 2 f2, f32Channel c (n + 3) 3 f3,
                f32Channel c (n + 4) 4 f4, f32Channel c (n + 5) 5 f5, u16Channel c (n + 6) 6 u0, u16Channel c (n + 7) 7 u1]
              fault := none, state := none }] } ∧
      (∀ a : Nat, a < 32 → fb.read a = (unitA f0 f1 f2 f3 f4 f5 u0 u1).getD a 0) ∧
      ∀ a : Nat, 32 ≤ a → fb.read a = s.fs.fb.read a

/-- 30_encoding.md section 1 (layout B), 41_field_extract.md section 1: the wire frame of layout B, received
between two units (log 10), emits the Sample of its own fields, the fault code before the state code. -/
def Obligations.LayoutBFrameEmitsItsFields : Prop :=
  ∀ (f0 f1 f2 f3 f4 f5 f6 : Word) (u0 : Half) (fault state : Byte) (s : State), unitAccepted .b s.fs = true →
    Memory.wf s.fs.fb = true → s.fs.cfg.magic = magic → s.fs.cfg.chsel.toNat < 16 →
    let c := s.fs.cfg
    let n := s.nanSeq
    ∃ fb : Memory,
      exec (.frameB f0 f1 f2 f3 f4 f5 f6 u0 fault state) s = .next
        { s with
          fs := { s.fs with fb := fb, demand := false }
          xt := Extraction.start, nanSeq := n + 8, resp := .accepted
          out := [.sample
            { num := [f32Channel c n 0 f0, f32Channel c (n + 1) 1 f1, f32Channel c (n + 2) 2 f2, f32Channel c (n + 3) 3 f3,
                f32Channel c (n + 4) 4 f4, f32Channel c (n + 5) 5 f5, f32Channel c (n + 6) 6 f6, u16Channel c (n + 7) 7 u0]
              fault := some (resolve c.faultTable fault), state := some (resolve c.stateTable state) }] } ∧
      (∀ a : Nat, a < 36 → fb.read a = (unitB f0 f1 f2 f3 f4 f5 f6 u0 fault state).getD a 0) ∧
      ∀ a : Nat, 36 ≤ a → fb.read a = s.fs.fb.read a

/-- 30_encoding.md section 1 (layout C), 41_field_extract.md section 1: the wire frame of layout C, received
between two units (log 10), emits the Sample of its own fields, whatever the pad byte. -/
def Obligations.LayoutCFrameEmitsItsFields : Prop :=
  ∀ (f0 f1 f2 f3 f4 f5 : Word) (u0 : Half) (fault pad : Byte) (s : State), unitAccepted .c s.fs = true →
    Memory.wf s.fs.fb = true → s.fs.cfg.magic = magic → s.fs.cfg.chsel.toNat < 16 →
    let c := s.fs.cfg
    let n := s.nanSeq
    ∃ fb : Memory,
      exec (.frameC f0 f1 f2 f3 f4 f5 u0 fault pad) s = .next
        { s with
          fs := { s.fs with fb := fb, demand := false }
          xt := Extraction.start, nanSeq := n + 7, resp := .accepted
          out := [.sample
            { num := [f32Channel c n 0 f0, f32Channel c (n + 1) 1 f1, f32Channel c (n + 2) 2 f2, f32Channel c (n + 3) 3 f3,
                f32Channel c (n + 4) 4 f4, f32Channel c (n + 5) 5 f5, u16Channel c (n + 6) 6 u0]
              fault := some (resolve c.faultTable fault), state := none }] } ∧
      (∀ a : Nat, a < 32 → fb.read a = (unitC f0 f1 f2 f3 f4 f5 u0 fault pad).getD a 0) ∧
      ∀ a : Nat, 32 ≤ a → fb.read a = s.fs.fb.read a

/-- 30_encoding.md section 7 (pseudo-operations), 40_frame_sync.md section 2: a wire frame received between two units is the
same as RX.FRAME on each of its bytes in turn, for every layout, marker and channel selection. -/
def Obligations.WireFrameIsItsBytesInTurn : Prop :=
  ∀ s : State,
    (∀ f0 f1 f2 f3 f4 f5 u0 u1, unitAccepted .a s.fs = true →
      collectBytes (unitA f0 f1 f2 f3 f4 f5 u0 u1) s = exec (.frameA f0 f1 f2 f3 f4 f5 u0 u1) s) ∧
    (∀ f0 f1 f2 f3 f4 f5 f6 u0 fault state, unitAccepted .b s.fs = true →
      collectBytes (unitB f0 f1 f2 f3 f4 f5 f6 u0 fault state) s = exec (.frameB f0 f1 f2 f3 f4 f5 f6 u0 fault state) s) ∧
    ∀ f0 f1 f2 f3 f4 f5 u0 fault pad, unitAccepted .c s.fs = true →
      collectBytes (unitC f0 f1 f2 f3 f4 f5 u0 fault pad) s = exec (.frameC f0 f1 f2 f3 f4 f5 u0 fault pad) s

/-! ### Binary64 arithmetic -/

/-- 42_estimator.md section 1 (b) and (d): for finite operands (and a divisor that is not zero) no binary64 value is nearer to
the exact sum, difference, product or quotient than a finite result; the result is never a NaN, and it is infinite exactly
where the exact one is half a last place or more beyond the greatest finite value, with the exact result's sign. -/
def Obligations.FiniteResultsAreNearest : Prop :=
  ∀ n a b : F64, isFinite a = true → isFinite b = true →
    let va := signedUnits a
    let vb := signedUnits b
    (nearest (fadd n a b) (va + vb) 1 ∧ overflowsTo (fadd n a b) (va + vb) 1) ∧
    (nearest (fsub n a b) (va - vb) 1 ∧ overflowsTo (fsub n a b) (va - vb) 1) ∧
    (nearest (fmul n a b) (va * vb) (2 ^ 1074) ∧ overflowsTo (fmul n a b) (va * vb) (2 ^ 1074)) ∧
    (isZero b = false → nearest (fdiv n a b) (va * 2 ^ 1074) vb ∧ overflowsTo (fdiv n a b) (va * 2 ^ 1074) vb)

/-- 42_estimator.md section 1 (b): at a tie between two binary64 values the sum, difference, product or quotient is the one
whose last fraction bit is 0; the rounding they share does so for every quotient of integers. -/
def Obligations.TiesGoToEven : Prop :=
  (∀ n a b : F64, isFinite a = true → isFinite b = true →
    let va := signedUnits a
    let vb := signedUnits b
    evenAtTies (fadd n a b) (va + vb) 1 ∧ evenAtTies (fsub n a b) (va - vb) 1 ∧
    evenAtTies (fmul n a b) (va * vb) (2 ^ 1074) ∧ (isZero b = false → evenAtTies (fdiv n a b) (va * 2 ^ 1074) vb)) ∧
  ∀ n d m : Nat, 0 < d → roundUnits n d < infMag → m < infMag → m ≠ roundUnits n d →
    |(unitsOf m : Int) * d - n| = |(unitsOf (roundUnits n d) : Int) * d - n| → roundUnits n d % 2 = 0

/-- 42_estimator.md section 1 (e), (f), (i): the special results of IEEE 754: division by zero, the invalid operations, every
operation on a NaN, infinite operands, and the signs of zero and infinite results; sum and product do not depend on the order of
their operands. -/
def Obligations.SpecialOperandsGiveTheirResults : Prop :=
  ∀ n a b : F64,
    (fadd n a b = fadd n b a ∧ fmul n a b = fmul n b a) ∧
    (isFinite a = true → isZero a = false → isZero b = true →
      isInf (fdiv n a b) = true ∧ signOf (fdiv n a b) = (signOf a ^^ signOf b)) ∧
    (isZero a = true → isZero b = true → fdiv n a b = n) ∧
    (isInf a = true → isInf b = true → fdiv n a b = n) ∧
    (isInf a = true → isInf b = true → signOf a = signOf b → fsub n a b = n ∧ fadd n a b = a) ∧
    (isInf a = true → isInf b = true → signOf a ≠ signOf b → fadd n a b = n ∧ fsub n a b = a) ∧
    (isZero a = true → isInf b = true → fmul n a b = n ∧ fmul n b a = n) ∧
    (isNaN a = true ∨ isNaN b = true → fadd n a b = n ∧ fsub n a b = n ∧ fmul n a b = n ∧ fdiv n a b = n) ∧
    (isInf a = true → isFinite b = true →
      fadd n a b = a ∧ fsub n a b = a ∧ fsub n b a = fneg a ∧ isInf (fdiv n a b) = true ∧ isZero (fdiv n b a) = true) ∧
    (isInf a = true → isNaN b = false → isZero b = false → isInf (fmul n a b) = true) ∧
    (isFinite a = true → fsub n a a = 0 ∧ fadd n a (fneg a) = 0) ∧
    (isZero a = true → isZero b = true →
      (signOf a ≠ signOf b → fadd n a b = 0 ∧ fsub n a b = a) ∧ (signOf a = signOf b → fadd n a b = a ∧ fsub n a b = 0)) ∧
    (isZero a = true → isFinite b = true →
      isZero (fmul n a b) = true ∧ (isZero b = false → isZero (fdiv n a b) = true)) ∧
    (isNaN a = false → isNaN b = false →
      (¬(isZero a = true ∧ isInf b = true) → ¬(isInf a = true ∧ isZero b = true) →
        signOf (fmul n a b) = (signOf a ^^ signOf b)) ∧
      (¬(isZero a = true ∧ isZero b = true) → ¬(isInf a = true ∧ isInf b = true) →
        signOf (fdiv n a b) = (signOf a ^^ signOf b)))

/-! ### KF -/

/-- 10_state.md R42: after KF.INIT the configuration, the derived constants, the zero estimate, the diagonal covariance and
READY; FS and all else are unchanged but for the draw counter of the free NaNs. -/
def Obligations.InitConstructsTheEstimator : Prop :=
  ∀ (dt q r p0 : F64) (s : State),
    let nan := drawNaN s.nanSeq
    let dt2 := fmul (nan 0) dt dt
    let dt3 := fmul (nan 1) dt2 dt
    let dt4 := fmul (nan 2) dt2 dt2
    exec (.kfInit dt q r p0) s = .next
      { s with
        kf := { dt := dt, qn := q, rn := r, p0 := p0
                qd00 := fdiv (nan 4) (fmul (nan 3) q dt4) 0x4010000000000000
                qd01 := fdiv (nan 6) (fmul (nan 5) q dt3) 0x4000000000000000
                qd11 := fmul (nan 7) q dt2
                x0 := 0, x1 := 0, p00 := p0, p01 := 0, p10 := 0, p11 := p0, ready := true }
        nanSeq := s.nanSeq + 1, resp := .accepted, out := [] }

/-- 42_estimator.md section 2 (KF.STEP): with READY = 1 the six estimate and covariance registers get the values of the
predict-then-update formulas in the order given there, and the estimate is output; with READY = 0 the step is refused and
changes nothing (log 3). Nothing else changes but the draw counter of the free NaNs. -/
def Obligations.StepPredictsThenUpdates : Prop :=
  ∀ (z : F64) (s : State),
    (s.kf.ready = true →
      let nan := drawNaN s.nanSeq
      let e := s.kf
      let x0p := fadd (nan 1) e.x0 (fmul (nan 0) e.x1 e.dt)
      let a00 := fadd (nan 3) e.p00 (fmul (nan 2) e.dt e.p10)
      let a01 := fadd (nan 5) e.p01 (fmul (nan 4) e.dt e.p11)
      let a10 := fadd (nan 7) e.p10 (fmul (nan 6) e.dt e.p11)
      let pp00 := fadd (nan 10) (fadd (nan 9) a00 (fmul (nan 8) e.dt a01)) e.qd00
      let pp01 := fadd (nan 11) a01 e.qd01
      let pp10 := fadd (nan 12) a10 e.qd01
      let pp11 := fadd (nan 13) e.p11 e.qd11
      let y := fsub (nan 14) z x0p
      let k := fdiv (nan 16) 0x3FF0000000000000 (fadd (nan 15) pp00 e.rn)
      let x0 := fadd (nan 19) x0p (fmul (nan 18) (fmul (nan 17) k pp00) y)
      let x1 := fadd (nan 22) e.x1 (fmul (nan 21) (fmul (nan 20) k pp10) y)
      exec (.kfStep z) s = .next
        { s with
          kf := { e with
            x0 := x0
            x1 := x1
            p00 := fsub (nan 25) pp00 (fmul (nan 24) k (fmul (nan 23) pp00 pp00))
            p01 := fsub (nan 28) pp01 (fmul (nan 27) k (fmul (nan 26) pp00 pp01))
            p10 := fsub (nan 31) pp10 (fmul (nan 30) k (fmul (nan 29) pp10 pp00))
            p11 := fsub (nan 34) pp11 (fmul (nan 33) k (fmul (nan 32) pp10 pp01)) }
          nanSeq := s.nanSeq + 1, resp := .accepted, out := [.est x0 x1] }) ∧
    (s.kf.ready = false → exec (.kfStep z) s = .next { s with resp := .refused, out := [] })

/-- 42_estimator.md section 2 (the exact example) and section 3 (the source's scenario): the bit patterns of the first estimate
in both. -/
def Obligations.FirstEstimatesOfTheExamples : Prop :=
  ∀ s : State,
    (∃ t u : State,
      exec (.kfInit 0x3FF0000000000000 0x4010000000000000 0x3FF0000000000000 0x3FF0000000000000) s = .next t ∧
      exec (.kfStep 0x4018000000000000) t = .next u ∧ u.out = [.est 0x4012000000000000 0x4012000000000000] ∧
      u.kf.p00 = 0x3FE8000000000000 ∧ u.kf.p01 = 0x3FE8000000000000 ∧ u.kf.p10 = 0x3FE8000000000000 ∧
      u.kf.p11 = 0x4006000000000000) ∧
    ∃ t u : State,
      exec (.kfInit 0x3EE4F8B588E368F1 0x412E848000000000 0x3FF0000000000000 0x3F50624DD2F1A9FC) s = .next t ∧
      exec (.kfStep 0x4014000000000000) t = .next u ∧ u.out = [.est 0x3F7475A47195E9C0 0x3E6C285633518B84]

/-- 42_estimator.md R208: KF.STEP keeps P01 = P10 bit for bit where they are not NaNs, and if one is a NaN both are; KF.INIT
sets both to +0.0. -/
def Obligations.CovarianceStaysSymmetric : Prop :=
  (∀ (z : F64) (s t : State), s.kf.symmetric → exec (.kfStep z) s = .next t → t.kf.symmetric) ∧
  (∀ (i : BitVec 4) (s t : State), s.kf.symmetric → exec (.chx i) s = .next t → t.kf.symmetric) ∧
  (∀ (dt q r p0 : F64) (s t : State), exec (.kfInit dt q r p0) s = .next t → t.kf.p01 = 0 ∧ t.kf.p10 = 0) ∧
  ∀ k : Estimator, k.symmetric ↔ (k.p01 = k.p10 ∨ (isNaN k.p01 = true ∧ isNaN k.p10 = true))

/-- 42_estimator.md R209: two instances that start from the same construction and get the same measurements give the same
estimates, the bits of NaNs aside, whatever else their machines hold. -/
def Obligations.EqualMeasurementsGiveEqualEstimates : Prop :=
  ∀ (dt q r p0 : F64) (s1 s2 t1 t2 : State) (zs : List F64),
    exec (.kfInit dt q r p0) s1 = .next t1 → exec (.kfInit dt q r p0) s2 = .next t2 →
    ∃ (o1 o2 : List Output) (u1 u2 : State), runMeasurements zs t1 = some (o1, u1) ∧ runMeasurements zs t2 = some (o2, u2) ∧
      sameOutputs o1 o2 = true ∧ sameEstimator u1.kf u2.kf ∧ o1.length = zs.length

/-- 42_estimator.md section 2 (KF.STEP, corner case (f)): the covariance depends on the construction and on the number of
measurements, never on a measurement nor on the estimate: constructions with equal operands agree in it, and instances that
agree in it still do after equally many measurements, the bits of NaNs aside. -/
def Obligations.CovarianceNeverSeesAMeasurement : Prop :=
  (∀ (dt q r p0 : F64) (s1 s2 t1 t2 : State), exec (.kfInit dt q r p0) s1 = .next t1 → exec (.kfInit dt q r p0) s2 = .next t2 →
    sameCovariance t1.kf t2.kf) ∧
  ∀ (s1 s2 t1 t2 : State) (zs ws : List F64) (o1 o2 : List Output), zs.length = ws.length → sameCovariance s1.kf s2.kf →
    runMeasurements zs s1 = some (o1, t1) → runMeasurements ws s2 = some (o2, t2) → sameCovariance t1.kf t2.kf

/-- 42_estimator.md section 2 (KF.STEP, corner case (b)), 60_exceptions.md section 5: an estimate register that is a NaN, or
that is not finite, stays one under every operation but KF.INIT; a NaN or infinite measurement, or one such register, makes
both so in the next cycle, whether KF.STEP, CHX or the reception of a unit runs it. -/
def Obligations.NaNEstimateStaysUntilInit : Prop :=
  ∀ (bad : F64 → Bool), bad = isNaN ∨ bad = (fun x => !isFinite x) →
  ∀ (i : Instr) (s t : State), (∀ dt q r p0, i ≠ .kfInit dt q r p0) → exec i s = .next t →
    (bad s.kf.x0 = true → bad t.kf.x0 = true) ∧ (bad s.kf.x1 = true → bad t.kf.x1 = true) ∧
    (t.kf ≠ s.kf → bad s.kf.x0 = true ∨ bad s.kf.x1 = true → bad t.kf.x0 = true ∧ bad t.kf.x1 = true) ∧
    (∀ z, i = .kfStep z → s.kf.ready = true → bad z = true ∨ bad s.kf.x0 = true ∨ bad s.kf.x1 = true →
      bad t.kf.x0 = true ∧ bad t.kf.x1 = true) ∧
    (∀ c smp z, i = .chx c → s.kf.ready = true → s.out = [.sample smp] → smp.num[c.toNat]? = some z →
      bad z = true ∨ bad s.kf.x0 = true ∨ bad s.kf.x1 = true → bad t.kf.x0 = true ∧ bad t.kf.x1 = true) ∧
    (∀ smp v r z, collectsUnit i = true → t.out = [.sample smp, .est v r] →
      smp.num[(chselIndex s.fs.cfg.chsel).toNat]? = some z → bad z = true ∨ bad s.kf.x0 = true ∨ bad s.kf.x1 = true →
      bad t.kf.x0 = true ∧ bad t.kf.x1 = true)

/-- 42_estimator.md section 4 (CHX): after an emitted Sample, the operation runs one KF cycle on the selected channel and adds
the estimate to the outputs; with READY = 0 it leaves KF and the outputs alone. -/
def Obligations.RoutingRunsOneCycle : Prop :=
  ∀ (i : BitVec 4) (smp : Sample) (z : F64) (s : State), s.out = [.sample smp] → smp.num[i.toNat]? = some z →
    let k := cycled (drawNaN s.nanSeq) s.kf z
    (s.kf.ready = true →
      exec (.chx i) s = .next { s with kf := k, nanSeq := s.nanSeq + 1, out := [.sample smp, .est k.x0 k.x1] }) ∧
    (s.kf.ready = false → exec (.chx i) s = .next s)

/-! ### Whole-machine rules -/

/-- 10_state.md section 1, 20_memory.md section 7: the components share no state. KF operations leave FS alone; every FS
operation leaves KF alone unless a Sample is emitted with a channel selected and KF constructed. -/
def Obligations.ComponentsShareNoState : Prop :=
  ∀ (i : Instr) (s t : State), exec i s = .next t →
    (match i with
      | .kfInit _ _ _ _ => t.fs = s.fs
      | .kfStep _ => t.fs = s.fs
      | .chx _ => t.fs = s.fs
      | .rxFrame _ => t.kf = s.kf ∨ (s.kf.ready = true ∧ 16 ≤ s.fs.cfg.chsel.toNat ∧ ∃ smp v r, t.out = [.sample smp, .est v r])
      | .frameA _ _ _ _ _ _ _ _ =>
        t.kf = s.kf ∨ (s.kf.ready = true ∧ 16 ≤ s.fs.cfg.chsel.toNat ∧ ∃ smp v r, t.out = [.sample smp, .est v r])
      | .frameB _ _ _ _ _ _ _ _ _ _ =>
        t.kf = s.kf ∨ (s.kf.ready = true ∧ 16 ≤ s.fs.cfg.chsel.toNat ∧ ∃ smp v r, t.out = [.sample smp, .est v r])
      | .frameC _ _ _ _ _ _ _ _ _ =>
        t.kf = s.kf ∨ (s.kf.ready = true ∧ 16 ≤ s.fs.cfg.chsel.toNat ∧ ∃ smp v r, t.out = [.sample smp, .est v r])
      | _ => t.kf = s.kf)

/-- 20_memory.md R72: the configuration of FS is sampled by START and written by nothing else, that of KF by KF.INIT. -/
def Obligations.ConfigurationIsSampledOnce : Prop :=
  ∀ (i : Instr) (s t : State), exec i s = .next t →
    (∀ (cfg : ConfigInputs) (l : Layout), i = .start cfg → layoutOfCode cfg.layout = some l → configLegal cfg = true →
      t.fs.cfg = { toConfigBody := cfg.toConfigBody, layout := l }) ∧
    (∀ dt q r p0, i = .kfInit dt q r p0 → t.kf.dt = dt ∧ t.kf.qn = q ∧ t.kf.rn = r ∧ t.kf.p0 = p0) ∧
    ((∀ cfg, i ≠ .start cfg) → t.fs.cfg = s.fs.cfg) ∧
    ((∀ dt q r p0, i ≠ .kfInit dt q r p0) →
      t.kf.dt = s.kf.dt ∧ t.kf.qn = s.kf.qn ∧ t.kf.rn = s.kf.rn ∧ t.kf.p0 = s.kf.p0 ∧ t.kf.qd00 = s.kf.qd00 ∧
      t.kf.qd01 = s.kf.qd01 ∧ t.kf.qd11 = s.kf.qd11 ∧ t.kf.ready = s.kf.ready)

/-- 00_scope.md section 5: no operation reaches what the host and the source still hold. -/
def Obligations.OperationsLeaveTheSendersAlone : Prop := ∀ (i : Instr) (s t : State), exec i s = .next t → t.io = s.io

/-! ### Sessions -/

/-- 40_frame_sync.md R140: from any START with a legal configuration, a session on a finite stream gives exactly the Samples,
the cause and the number of bytes consumed of the reference function. -/
def Obligations.SessionIsTheReferenceFunction : Prop :=
  ∀ (cfg : ConfigInputs) (s0 s : State) (bytes : List Byte), Memory.wf s0.fs.fb = true → configLegal cfg = true →
    exec (.start cfg) s0 = .next s →
    ∃ r : Session, runSession bytes s = some r ∧
      sameSamples r.samples (refSamples s.fs.cfg (refDecode s.fs.cfg bytes).units) = true ∧
      r.final.fs.phase = .done ∧ r.final.fs.cause = (refDecode s.fs.cfg bytes).cause ∧
      r.consumed = (refDecode s.fs.cfg bytes).consumed

/-- 40_frame_sync.md section 4 (properties, (a)): marker, header and K valid frames give exactly the K Samples of the frames,
then END with cause EOS. -/
def Obligations.EachFrameGivesOneSample : Prop :=
  ∀ (cfg : ConfigInputs) (s0 s : State) (header : List Byte) (frames : List (List Byte)),
    Memory.wf s0.fs.fb = true → configLegal cfg = true → cfg.magic = magic → exec (.start cfg) s0 = .next s →
    header.length = 4 * cfg.hdrWords.toNat →
    (∀ u ∈ frames, u.length = frameLen s.fs.cfg.layout ∧ u.take 4 = markerBytes) →
    ∃ r : Session, runSession (markerBytes ++ header ++ frames.flatten) s = some r ∧
      sameSamples r.samples (refSamples s.fs.cfg frames) = true ∧
      r.final.fs.phase = .done ∧ r.final.fs.cause = .eos

/-- 40_frame_sync.md section 4 (properties, (b)): garbage that does not hold the marker, before a stream that begins with it,
changes no Sample. -/
def Obligations.GarbageWithoutTheMarkerChangesNoSample : Prop :=
  ∀ (cfg : ConfigInputs) (s0 s : State) (garbage rest : List Byte),
    Memory.wf s0.fs.fb = true → configLegal cfg = true → cfg.magic = magic → exec (.start cfg) s0 = .next s →
    (∀ k : Nat, (garbage.drop k).take 4 ≠ markerBytes) →
    ∃ r1 r2 : Session, runSession (garbage ++ markerBytes ++ rest) s = some r1 ∧ runSession (markerBytes ++ rest) s = some r2 ∧
      sameSamples r1.samples r2.samples = true ∧ r1.final.fs.cause = r2.final.fs.cause

/-- 40_frame_sync.md section 4 (properties, (c)): fewer bytes than a frame after the last complete frame give no Sample. -/
def Obligations.TruncatedFrameGivesNoSample : Prop :=
  ∀ (cfg : ConfigInputs) (s0 s : State) (header tail : List Byte) (frames : List (List Byte)),
    Memory.wf s0.fs.fb = true → configLegal cfg = true → cfg.magic = magic → exec (.start cfg) s0 = .next s →
    header.length = 4 * cfg.hdrWords.toNat →
    (∀ u ∈ frames, u.length = frameLen s.fs.cfg.layout ∧ u.take 4 = markerBytes) →
    0 < tail.length → tail.length < frameLen s.fs.cfg.layout →
    ∃ r : Session, runSession (markerBytes ++ header ++ frames.flatten ++ tail) s = some r ∧
      r.samples.length = frames.length ∧ sameSamples r.samples (refSamples s.fs.cfg frames) = true ∧
      r.final.fs.cause = .eos
end

