-- ==== Sys2Proof/Laws/State.lean ====
section
/-! SUPPORT. One lemma per field and update of the state, each true by definition, so that no proof unfolds an update. -/

namespace Sys2Proof.Machine

variable (s : State)

@[simp] theorem State.answer_fs (r : Response) (o : List Output) : (s.answer r o).fs = s.fs := rfl
@[simp] theorem State.answer_kf (r : Response) (o : List Output) : (s.answer r o).kf = s.kf := rfl
@[simp] theorem State.answer_io (r : Response) (o : List Output) : (s.answer r o).io = s.io := rfl
@[simp] theorem State.answer_xt (r : Response) (o : List Output) : (s.answer r o).xt = s.xt := rfl
@[simp] theorem State.answer_nanSeq (r : Response) (o : List Output) : (s.answer r o).nanSeq = s.nanSeq := rfl
@[simp] theorem State.answer_resp (r : Response) (o : List Output) : (s.answer r o).resp = r := rfl
@[simp] theorem State.answer_out (r : Response) (o : List Output) : (s.answer r o).out = o := rfl

@[simp] theorem State.accept_fs (o : List Output) : (s.accept o).fs = s.fs := rfl
@[simp] theorem State.accept_kf (o : List Output) : (s.accept o).kf = s.kf := rfl
@[simp] theorem State.accept_io (o : List Output) : (s.accept o).io = s.io := rfl
@[simp] theorem State.accept_xt (o : List Output) : (s.accept o).xt = s.xt := rfl
@[simp] theorem State.accept_nanSeq (o : List Output) : (s.accept o).nanSeq = s.nanSeq := rfl
@[simp] theorem State.accept_resp (o : List Output) : (s.accept o).resp = .accepted := rfl
@[simp] theorem State.accept_out (o : List Output) : (s.accept o).out = o := rfl

@[simp] theorem State.hold_fs : s.hold.fs = s.fs := rfl
@[simp] theorem State.hold_kf : s.hold.kf = s.kf := rfl
@[simp] theorem State.hold_io : s.hold.io = s.io := rfl
@[simp] theorem State.hold_xt : s.hold.xt = s.xt := rfl
@[simp] theorem State.hold_nanSeq : s.hold.nanSeq = s.nanSeq := rfl
@[simp] theorem State.hold_resp : s.hold.resp = .held := rfl
@[simp] theorem State.hold_out : s.hold.out = [] := rfl

@[simp] theorem State.refuse_fs : s.refuse.fs = s.fs := rfl
@[simp] theorem State.refuse_kf : s.refuse.kf = s.kf := rfl
@[simp] theorem State.refuse_io : s.refuse.io = s.io := rfl
@[simp] theorem State.refuse_xt : s.refuse.xt = s.xt := rfl
@[simp] theorem State.refuse_nanSeq : s.refuse.nanSeq = s.nanSeq := rfl
@[simp] theorem State.refuse_resp : s.refuse.resp = .refused := rfl
@[simp] theorem State.refuse_out : s.refuse.out = [] := rfl

@[simp] theorem State.withFs_fs (f : FrameSync) : (s.withFs f).fs = f := rfl
@[simp] theorem State.withFs_kf (f : FrameSync) : (s.withFs f).kf = s.kf := rfl
@[simp] theorem State.withFs_io (f : FrameSync) : (s.withFs f).io = s.io := rfl
@[simp] theorem State.withFs_xt (f : FrameSync) : (s.withFs f).xt = s.xt := rfl
@[simp] theorem State.withFs_nanSeq (f : FrameSync) : (s.withFs f).nanSeq = s.nanSeq := rfl
@[simp] theorem State.withFs_resp (f : FrameSync) : (s.withFs f).resp = s.resp := rfl
@[simp] theorem State.withFs_out (f : FrameSync) : (s.withFs f).out = s.out := rfl

@[simp] theorem State.withKf_fs (k : Estimator) : (s.withKf k).fs = s.fs := rfl
@[simp] theorem State.withKf_kf (k : Estimator) : (s.withKf k).kf = k := rfl
@[simp] theorem State.withKf_io (k : Estimator) : (s.withKf k).io = s.io := rfl
@[simp] theorem State.withKf_xt (k : Estimator) : (s.withKf k).xt = s.xt := rfl
@[simp] theorem State.withKf_nanSeq (k : Estimator) : (s.withKf k).nanSeq = s.nanSeq + 1 := rfl
@[simp] theorem State.withKf_resp (k : Estimator) : (s.withKf k).resp = s.resp := rfl
@[simp] theorem State.withKf_out (k : Estimator) : (s.withKf k).out = s.out := rfl

@[simp] theorem State.pushNum_fs (n : Nat) (v : F64) : (s.pushNum n v).fs = s.fs := rfl
@[simp] theorem State.pushNum_kf (n : Nat) (v : F64) : (s.pushNum n v).kf = s.kf := rfl
@[simp] theorem State.pushNum_io (n : Nat) (v : F64) : (s.pushNum n v).io = s.io := rfl
@[simp] theorem State.pushNum_xt (n : Nat) (v : F64) : (s.pushNum n v).xt = { s.xt with off := s.xt.off + n, num := s.xt.num ++ [v] } := rfl
@[simp] theorem State.pushNum_nanSeq (n : Nat) (v : F64) : (s.pushNum n v).nanSeq = s.nanSeq + 1 := rfl
@[simp] theorem State.pushNum_resp (n : Nat) (v : F64) : (s.pushNum n v).resp = s.resp := rfl
@[simp] theorem State.pushNum_out (n : Nat) (v : F64) : (s.pushNum n v).out = s.out := rfl

@[simp] theorem raiseEnd_fs (c : Cause) : (raiseEnd c s).fs = s.fs.ended c := rfl
@[simp] theorem raiseEnd_kf (c : Cause) : (raiseEnd c s).kf = s.kf := rfl
@[simp] theorem raiseEnd_io (c : Cause) : (raiseEnd c s).io = s.io := rfl
@[simp] theorem raiseEnd_xt (c : Cause) : (raiseEnd c s).xt = s.xt := rfl
@[simp] theorem raiseEnd_nanSeq (c : Cause) : (raiseEnd c s).nanSeq = s.nanSeq := rfl
@[simp] theorem raiseEnd_resp (c : Cause) : (raiseEnd c s).resp = .accepted := rfl
@[simp] theorem raiseEnd_out (c : Cause) : (raiseEnd c s).out = [.ended] := rfl

@[simp] theorem handOver_fs : (handOver s).fs = { s.fs with demand := false } := rfl
@[simp] theorem handOver_kf : (handOver s).kf = s.kf := rfl
@[simp] theorem handOver_io : (handOver s).io = s.io := rfl
@[simp] theorem handOver_xt : (handOver s).xt = Extraction.start := rfl
@[simp] theorem handOver_nanSeq : (handOver s).nanSeq = s.nanSeq := rfl
@[simp] theorem handOver_resp : (handOver s).resp = .accepted := rfl
@[simp] theorem handOver_out : (handOver s).out = [.sample s.xt.sample] := rfl

@[simp] theorem endTurn_fs : (endTurn s).fs = s.fs := rfl
@[simp] theorem endTurn_kf : (endTurn s).kf = s.kf := rfl
@[simp] theorem endTurn_io : (endTurn s).io = s.io.turnOver s.resp := rfl
@[simp] theorem endTurn_xt : (endTurn s).xt = s.xt := rfl
@[simp] theorem endTurn_nanSeq : (endTurn s).nanSeq = s.nanSeq := rfl
@[simp] theorem endTurn_resp : (endTurn s).resp = s.resp := rfl
@[simp] theorem endTurn_out : (endTurn s).out = s.out := rfl

@[simp] theorem hostSends_fs (w : CmdWord) : (hostSends w s).fs = s.fs := rfl
@[simp] theorem hostSends_kf (w : CmdWord) : (hostSends w s).kf = s.kf := rfl
@[simp] theorem hostSends_io (w : CmdWord) : (hostSends w s).io = { s.io with sched := .cmd :: s.io.sched, cmdIn := w :: s.io.cmdIn } := rfl
@[simp] theorem hostSends_xt (w : CmdWord) : (hostSends w s).xt = s.xt := rfl
@[simp] theorem hostSends_nanSeq (w : CmdWord) : (hostSends w s).nanSeq = s.nanSeq := rfl
@[simp] theorem hostSends_resp (w : CmdWord) : (hostSends w s).resp = s.resp := rfl
@[simp] theorem hostSends_out (w : CmdWord) : (hostSends w s).out = s.out := rfl

@[simp] theorem kfSends_fs (w : KcmdWord) : (kfSends w s).fs = s.fs := rfl
@[simp] theorem kfSends_kf (w : KcmdWord) : (kfSends w s).kf = s.kf := rfl
@[simp] theorem kfSends_io (w : KcmdWord) : (kfSends w s).io = { s.io with sched := .kcmd :: s.io.sched, kcmdIn := w :: s.io.kcmdIn } := rfl
@[simp] theorem kfSends_xt (w : KcmdWord) : (kfSends w s).xt = s.xt := rfl
@[simp] theorem kfSends_nanSeq (w : KcmdWord) : (kfSends w s).nanSeq = s.nanSeq := rfl
@[simp] theorem kfSends_resp (w : KcmdWord) : (kfSends w s).resp = s.resp := rfl
@[simp] theorem kfSends_out (w : KcmdWord) : (kfSends w s).out = s.out := rfl

@[simp] theorem sourceSends_fs (w : BitVec 9) : (sourceSends w s).fs = s.fs := rfl
@[simp] theorem sourceSends_kf (w : BitVec 9) : (sourceSends w s).kf = s.kf := rfl
@[simp] theorem sourceSends_io (w : BitVec 9) : (sourceSends w s).io = { s.io with sched := .src :: s.io.sched, srcIn := w :: s.io.srcIn } := rfl
@[simp] theorem sourceSends_xt (w : BitVec 9) : (sourceSends w s).xt = s.xt := rfl
@[simp] theorem sourceSends_nanSeq (w : BitVec 9) : (sourceSends w s).nanSeq = s.nanSeq := rfl
@[simp] theorem sourceSends_resp (w : BitVec 9) : (sourceSends w s).resp = s.resp := rfl
@[simp] theorem sourceSends_out (w : BitVec 9) : (sourceSends w s).out = s.out := rfl

/-! ### Registers of FS -/

variable (f : FrameSync)

@[simp] theorem FrameSync.ended_cfg (c : Cause) : (f.ended c).cfg = f.cfg := rfl
@[simp] theorem FrameSync.ended_phase (c : Cause) : (f.ended c).phase = .done := rfl
@[simp] theorem FrameSync.ended_w (c : Cause) : (f.ended c).w = f.w := rfl
@[simp] theorem FrameSync.ended_wcnt (c : Cause) : (f.ended c).wcnt = f.wcnt := rfl
@[simp] theorem FrameSync.ended_skipcnt (c : Cause) : (f.ended c).skipcnt = f.skipcnt := rfl
@[simp] theorem FrameSync.ended_fb (c : Cause) : (f.ended c).fb = f.fb := rfl
@[simp] theorem FrameSync.ended_fidx (c : Cause) : (f.ended c).fidx = f.fidx := rfl
@[simp] theorem FrameSync.ended_demand (c : Cause) : (f.ended c).demand = false := rfl
@[simp] theorem FrameSync.ended_cause (c : Cause) : (f.ended c).cause = c := rfl

@[simp] theorem FrameSync.started_cfg (i : ConfigInputs) (l : Layout) : (f.started i l).cfg = { toConfigBody := i.toConfigBody, layout := l } := rfl
@[simp] theorem FrameSync.started_phase (i : ConfigInputs) (l : Layout) : (f.started i l).phase = .hunt := rfl
@[simp] theorem FrameSync.started_w (i : ConfigInputs) (l : Layout) : (f.started i l).w = 0 := rfl
@[simp] theorem FrameSync.started_wcnt (i : ConfigInputs) (l : Layout) : (f.started i l).wcnt = 0 := rfl
@[simp] theorem FrameSync.started_skipcnt (i : ConfigInputs) (l : Layout) : (f.started i l).skipcnt = 0 := rfl
@[simp] theorem FrameSync.started_fb (i : ConfigInputs) (l : Layout) : (f.started i l).fb = f.fb := rfl
@[simp] theorem FrameSync.started_fidx (i : ConfigInputs) (l : Layout) : (f.started i l).fidx = 0 := rfl
@[simp] theorem FrameSync.started_demand (i : ConfigInputs) (l : Layout) : (f.started i l).demand = false := rfl
@[simp] theorem FrameSync.started_cause (i : ConfigInputs) (l : Layout) : (f.started i l).cause = .none := rfl

/-! ### Registers of KF after a construction and after a cycle -/

@[simp] theorem constructed_dt (nan : Nat → F64) (dt q r p0 : F64) : (constructed nan dt q r p0).dt = dt := rfl
@[simp] theorem constructed_qn (nan : Nat → F64) (dt q r p0 : F64) : (constructed nan dt q r p0).qn = q := rfl
@[simp] theorem constructed_rn (nan : Nat → F64) (dt q r p0 : F64) : (constructed nan dt q r p0).rn = r := rfl
@[simp] theorem constructed_p0 (nan : Nat → F64) (dt q r p0 : F64) : (constructed nan dt q r p0).p0 = p0 := rfl
@[simp] theorem constructed_x0 (nan : Nat → F64) (dt q r p0 : F64) : (constructed nan dt q r p0).x0 = 0 := rfl
@[simp] theorem constructed_x1 (nan : Nat → F64) (dt q r p0 : F64) : (constructed nan dt q r p0).x1 = 0 := rfl
@[simp] theorem constructed_p00 (nan : Nat → F64) (dt q r p0 : F64) : (constructed nan dt q r p0).p00 = p0 := rfl
@[simp] theorem constructed_p01 (nan : Nat → F64) (dt q r p0 : F64) : (constructed nan dt q r p0).p01 = 0 := rfl
@[simp] theorem constructed_p10 (nan : Nat → F64) (dt q r p0 : F64) : (constructed nan dt q r p0).p10 = 0 := rfl
@[simp] theorem constructed_p11 (nan : Nat → F64) (dt q r p0 : F64) : (constructed nan dt q r p0).p11 = p0 := rfl
@[simp] theorem constructed_ready (nan : Nat → F64) (dt q r p0 : F64) : (constructed nan dt q r p0).ready = true := rfl

@[simp] theorem cycled_dt (nan : Nat → F64) (e : Estimator) (z : F64) : (cycled nan e z).dt = e.dt := rfl
@[simp] theorem cycled_qn (nan : Nat → F64) (e : Estimator) (z : F64) : (cycled nan e z).qn = e.qn := rfl
@[simp] theorem cycled_rn (nan : Nat → F64) (e : Estimator) (z : F64) : (cycled nan e z).rn = e.rn := rfl
@[simp] theorem cycled_p0 (nan : Nat → F64) (e : Estimator) (z : F64) : (cycled nan e z).p0 = e.p0 := rfl
@[simp] theorem cycled_qd00 (nan : Nat → F64) (e : Estimator) (z : F64) : (cycled nan e z).qd00 = e.qd00 := rfl
@[simp] theorem cycled_qd01 (nan : Nat → F64) (e : Estimator) (z : F64) : (cycled nan e z).qd01 = e.qd01 := rfl
@[simp] theorem cycled_qd11 (nan : Nat → F64) (e : Estimator) (z : F64) : (cycled nan e z).qd11 = e.qd11 := rfl
@[simp] theorem cycled_ready (nan : Nat → F64) (e : Estimator) (z : F64) : (cycled nan e z).ready = e.ready := rfl

end Sys2Proof.Machine
end

