-- ==== Sys2Proof/Laws/Memory.lean ====
section
/-! SUPPORT. The frame buffer: read after write, the canonical form, and what the access operations can answer. -/

namespace Sys2Proof.Machine

theorem Memory.wf_iff (m : Memory) :
    m.wf = true ↔ m.Pairwise (fun p q => p.1 < q.1) ∧ ∀ p ∈ m, p.1 < fbSize ∧ p.2 ≠ unwritten := by
  simp [Memory.wf]

/-- An offset below every entry reads as unwritten. -/
theorem Memory.read_below (m : Memory) (a : Nat) (h : ∀ p ∈ m, a < p.1) : m.read a = unwritten := by
  induction m with
  | nil => rfl
  | cons p m ih =>
    obtain ⟨k, v⟩ := p
    have hk : a < k := h (k, v) (by simp)
    rw [Memory.read, if_neg (by omega)]
    exact ih fun q hq => h q (by simp [hq])

/-- The byte just written is read back; every other byte reads as before. -/
theorem Memory.read_write (m : Memory) (hm : m.Pairwise fun p q => p.1 < q.1) (a : Nat) (b : Byte) (x : Nat) :
    (m.write a b).read x = if x = a then b else m.read x := by
  induction m with
  | nil =>
    by_cases hb : b = unwritten <;> by_cases hx : x = a <;> simp [Memory.write, Memory.read, hb, hx]
  | cons p m ih =>
    obtain ⟨k, v⟩ := p
    obtain ⟨hp, hm'⟩ := List.pairwise_cons.mp hm
    have ih := ih hm'
    by_cases h1 : a < k
    · have hlow : ∀ q ∈ (k, v) :: m, a < q.1 := by
        intro q hq
        rcases List.mem_cons.mp hq with rfl | hq
        · exact h1
        · exact lt_trans h1 (hp q hq)
      by_cases hb : b = unwritten
      · rw [Memory.write, if_pos h1, if_pos hb]
        by_cases hx : x = a
        · rw [if_pos hx, hx, Memory.read_below _ a hlow, hb]
        · rw [if_neg hx]
      · rw [Memory.write, if_pos h1, if_neg hb, Memory.read]
    · by_cases h2 : a = k
      · subst h2
        have hlow : ∀ q ∈ m, a < q.1 := fun q hq => hp q hq
        by_cases hb : b = unwritten
        · rw [Memory.write, if_neg h1, if_pos rfl, if_pos hb]
          by_cases hx : x = a
          · rw [if_pos hx, hx, Memory.read_below _ a hlow, hb]
          · rw [if_neg hx, Memory.read, if_neg hx]
        · rw [Memory.write, if_neg h1, if_pos rfl, if_neg hb]
          by_cases hx : x = a
          · rw [Memory.read, if_pos hx, if_pos hx]
          · rw [Memory.read, if_neg hx, if_neg hx, Memory.read, if_neg hx]
      · rw [Memory.write, if_neg h1, if_neg h2, Memory.read, Memory.read, ih]
        by_cases hx : x = a
        · have : x ≠ k := by omega
          simp [hx, h2]
        · simp [hx]

/-- Every entry of a written memory is an old one or the one written. -/
theorem Memory.mem_write (m : Memory) (a : Nat) (b : Byte) (p : Host.Cell) (hp : p ∈ m.write a b) :
    p ∈ m ∨ (p = (a, b) ∧ b ≠ unwritten) := by
  induction m with
  | nil =>
    by_cases hb : b = unwritten <;> simp_all [Memory.write]
  | cons q m ih =>
    obtain ⟨k, v⟩ := q
    by_cases h1 : a < k
    · by_cases hb : b = unwritten
      · rw [Memory.write, if_pos h1, if_pos hb] at hp
        exact .inl hp
      · rw [Memory.write, if_pos h1, if_neg hb] at hp
        rcases List.mem_cons.mp hp with h | h
        · exact .inr ⟨h, hb⟩
        · exact .inl h
    · by_cases h2 : a = k
      · by_cases hb : b = unwritten
        · rw [Memory.write, if_neg h1, if_pos h2, if_pos hb] at hp
          exact .inl (by simp [hp])
        · rw [Memory.write, if_neg h1, if_pos h2, if_neg hb] at hp
          rcases List.mem_cons.mp hp with h | h
          · exact .inr ⟨h, hb⟩
          · exact .inl (by simp [h])
      · rw [Memory.write, if_neg h1, if_neg h2] at hp
        rcases List.mem_cons.mp hp with h | h
        · exact .inl (by simp [h])
        · rcases ih h with h | h
          · exact .inl (by simp [h])
          · exact .inr h

theorem Memory.write_pairwise (m : Memory) (hm : m.Pairwise fun p q => p.1 < q.1) (a : Nat) (b : Byte) :
    (m.write a b).Pairwise fun p q => p.1 < q.1 := by
  induction m with
  | nil => by_cases hb : b = unwritten <;> simp [Memory.write, hb]
  | cons q m ih =>
    obtain ⟨k, v⟩ := q
    obtain ⟨hq, hm'⟩ := List.pairwise_cons.mp hm
    by_cases h1 : a < k
    · by_cases hb : b = unwritten
      · rw [Memory.write, if_pos h1, if_pos hb]
        exact hm
      · rw [Memory.write, if_pos h1, if_neg hb]
        refine List.pairwise_cons.mpr ⟨fun p hp => ?_, hm⟩
        rcases List.mem_cons.mp hp with rfl | hp
        · exact h1
        · exact lt_trans h1 (hq p hp)
    · by_cases h2 : a = k
      · by_cases hb : b = unwritten
        · rw [Memory.write, if_neg h1, if_pos h2, if_pos hb]
          exact hm'
        · rw [Memory.write, if_neg h1, if_pos h2, if_neg hb]
          exact List.pairwise_cons.mpr ⟨fun p hp => by subst h2; exact hq p hp, hm'⟩
      · rw [Memory.write, if_neg h1, if_neg h2]
        refine List.pairwise_cons.mpr ⟨fun p hp => ?_, ih hm'⟩
        rcases Memory.mem_write m a b p hp with h | ⟨rfl, -⟩
        · exact hq p h
        · show k < a
          omega

/-- A write in range keeps the canonical form. -/
theorem Memory.wf_write (m : Memory) (hm : m.wf = true) (a : Nat) (ha : a < fbSize) (b : Byte) :
    (m.write a b).wf = true := by
  rw [Memory.wf_iff] at hm ⊢
  refine ⟨Memory.write_pairwise m hm.1 a b, fun p hp => ?_⟩
  rcases Memory.mem_write m a b p hp with h | ⟨rfl, hb⟩
  · exact hm.2 p h
  · exact ⟨ha, hb⟩

theorem Memory.read_write_wf (m : Memory) (hm : m.wf = true) (a : Nat) (b : Byte) (x : Nat) :
    (m.write a b).read x = if x = a then b else m.read x :=
  Memory.read_write m ((Memory.wf_iff m).mp hm).1 a b x

/-- Bytes stored in range keep the canonical form and are read back in order; every other byte reads as before. -/
theorem Memory.storeBytes_spec (bs : List Byte) : ∀ (m : Memory) (off : Nat), m.wf = true → off + bs.length ≤ fbSize →
    (storeBytes m off bs).wf = true ∧
      ∀ x, (storeBytes m off bs).read x = if off ≤ x ∧ x < off + bs.length then bs.getD (x - off) 0 else m.read x := by
  induction bs with
  | nil =>
    intro m off hm _
    refine ⟨hm, fun x => ?_⟩
    rw [if_neg (by simp only [List.length_nil]; omega)]
    rfl
  | cons b bs ih =>
    intro m off hm hl
    rw [List.length_cons] at hl
    obtain ⟨hw, hr⟩ := ih (m.write off b) (off + 1) (Memory.wf_write m hm off (by omega) b) (by omega)
    refine ⟨hw, fun x => ?_⟩
    rw [storeBytes, hr x, Memory.read_write_wf m hm]
    rcases Nat.lt_trichotomy x off with h | h | h
    · rw [if_neg (by omega), if_neg (by omega), if_neg (by omega)]
    · subst h
      rw [if_neg (by omega), if_pos rfl, if_pos (by rw [List.length_cons]; omega)]
      simp
    · obtain ⟨d, rfl⟩ : ∃ d, x = off + 1 + d := ⟨x - (off + 1), by omega⟩
      have e1 : off + 1 + d - off = d + 1 := by omega
      have e2 : off + 1 + d - (off + 1) = d := by omega
      by_cases hd : d < bs.length
      · rw [if_pos (by omega), if_pos (by rw [List.length_cons]; omega), e1, e2]
        simp
      · rw [if_neg (by omega), if_neg (by omega), if_neg (by rw [List.length_cons]; omega)]

theorem memWrite1_eq_some (m : Memory) (off : Nat) (b : Byte) (m' : Memory) :
    memWrite1 m off b = some m' ↔ off < fbSize ∧ m' = m.write off b := by
  unfold memWrite1
  constructor
  · intro h
    split at h
    · exact ⟨by omega, by simpa using h.symm⟩
    · cases h
  · rintro ⟨h, rfl⟩
    rw [if_pos (by omega)]

theorem memRead1_of_le (m : Memory) (off : Nat) (h : off + 1 ≤ fbSize) : memRead1 m off = some (m.read off) := if_pos h

theorem memRead2_of_le (m : Memory) (off : Nat) (h : off + 2 ≤ fbSize) :
    memRead2 m off = some (le16 (m.read off) (m.read (off + 1))) := if_pos h

theorem memRead4_of_le (m : Memory) (off : Nat) (h : off + 4 ≤ fbSize) :
    memRead4 m off = some (le32 (m.read off) (m.read (off + 1)) (m.read (off + 2)) (m.read (off + 3))) := if_pos h

/-- The head of a unit can always be read. -/
theorem memRead4_head (m : Memory) :
    memRead4 m 0 = some (le32 (m.read 0) (m.read 1) (m.read 2) (m.read 3)) := rfl

end Sys2Proof.Machine
end

