-- ==== Sys2Proof/Laws/Bytes.lean ====
section
/-! SUPPORT. Byte order: the little-endian words are the sums of 00_scope.md R8, and the bytes of a word give it back. -/

namespace Sys2Proof.Machine

theorem le16_toNat (b0 b1 : Byte) : (le16 b0 b1).toNat = b0.toNat + 256 * b1.toNat := by
  have h0 := b0.isLt
  rw [le16, BitVec.toNat_append, ← Nat.shiftLeft_add_eq_or_of_lt h0, Nat.shiftLeft_eq]
  omega

theorem le32_toNat (b0 b1 b2 b3 : Byte) :
    (le32 b0 b1 b2 b3).toNat = b0.toNat + 256 * b1.toNat + 65536 * b2.toNat + 16777216 * b3.toNat := by
  have h0 := b0.isLt
  have h1 := b1.isLt
  have h2 := b2.isLt
  rw [le32, BitVec.toNat_append, BitVec.toNat_append, BitVec.toNat_append, ← Nat.shiftLeft_add_eq_or_of_lt h0,
    ← Nat.shiftLeft_add_eq_or_of_lt h1, ← Nat.shiftLeft_add_eq_or_of_lt h2]
  simp only [Nat.shiftLeft_eq]
  omega

theorem wordAt_eq (u : Nat → Byte) (o : Nat) : wordAt u o = le32 (u o) (u (o + 1)) (u (o + 2)) (u (o + 3)) := by
  apply BitVec.eq_of_toNat_eq
  have h0 := (u o).isLt
  have h1 := (u (o + 1)).isLt
  have h2 := (u (o + 2)).isLt
  have h3 := (u (o + 3)).isLt
  rw [wordAt, le32_toNat, BitVec.toNat_ofNat, Nat.mod_eq_of_lt (by omega)]

theorem halfAt_eq (u : Nat → Byte) (o : Nat) : halfAt u o = le16 (u o) (u (o + 1)) := by
  apply BitVec.eq_of_toNat_eq
  have h0 := (u o).isLt
  have h1 := (u (o + 1)).isLt
  rw [halfAt, le16_toNat, BitVec.toNat_ofNat, Nat.mod_eq_of_lt (by omega)]

/-- The four bytes of a word, put together again. -/
theorem le32_bytes (w : Word) :
    le32 (w.extractLsb' 0 8) (w.extractLsb' 8 8) (w.extractLsb' 16 8) (w.extractLsb' 24 8) = w := by
  apply BitVec.eq_of_toNat_eq
  rw [le32_toNat]
  have h := w.isLt
  simp only [BitVec.extractLsb'_toNat, Nat.shiftRight_eq_div_pow]
  omega

/-- The two bytes of a half word, put together again. -/
theorem le16_bytes (h : Half) : le16 (h.extractLsb' 0 8) (h.extractLsb' 8 8) = h := by
  apply BitVec.eq_of_toNat_eq
  rw [le16_toNat]
  have h := h.isLt
  simp only [BitVec.extractLsb'_toNat, Nat.shiftRight_eq_div_pow]
  omega

@[simp] theorem bytes32_length (w : Word) : (bytes32 w).length = 4 := rfl

@[simp] theorem bytes16_length (h : Half) : (bytes16 h).length = 2 := rfl

end Sys2Proof.Machine
end

