-- ==== Sys2Proof/Laws/Float.lean ====
section
/-! SUPPORT. Binary64 up to the bits of NaNs: every draw is a NaN, each operation maps the same values to the same values whichever
NaNs are drawn, and NaN operands give NaN results. -/

namespace Sys2Proof.Machine

/-! ### Classes -/

theorem magOf_withSign (neg : Bool) (mag : Nat) (h : mag < 2 ^ 63) : magOf (withSign neg mag) = mag := by
  unfold magOf withSign
  rw [BitVec.toNat_ofNat]
  cases neg <;> simp <;> omega

theorem signOf_withSign (neg : Bool) (mag : Nat) (h : mag < 2 ^ 63) : signOf (withSign neg mag) = neg := by
  unfold signOf withSign
  rw [BitVec.getLsbD, BitVec.toNat_ofNat, Nat.testBit_mod_two_pow]
  cases neg with
  | false =>
    have : mag.testBit 63 = false := Nat.testBit_lt_two_pow h
    simp [this]
  | true =>
    have : (2 ^ 63 + mag).testBit 63 = true := by
      rw [Nat.testBit_two_pow_add_eq, Nat.testBit_lt_two_pow h]
      rfl
    simpa using this

theorem magOf_lt (x : F64) : magOf x < 2 ^ 63 := Nat.mod_lt _ (by decide)

theorem infMag_lt : infMag < 2 ^ 63 := by decide

/-- The sign bit is the top half of the patterns. -/
theorem signOf_eq (x : F64) : signOf x = decide (2 ^ 63 ≤ x.toNat) := by
  have hx := x.isLt
  rw [signOf, BitVec.getLsbD]
  by_cases h : 2 ^ 63 ≤ x.toNat
  · rw [decide_eq_true h, show x.toNat = 2 ^ 63 + (x.toNat - 2 ^ 63) by omega, Nat.testBit_two_pow_add_eq,
      Nat.testBit_lt_two_pow (by omega)]
    rfl
  · rw [decide_eq_false h]
    exact Nat.testBit_lt_two_pow (by omega)

/-- Sign and magnitude make the pattern. -/
theorem withSign_sign_mag (x : F64) : withSign (signOf x) (magOf x) = x := by
  apply BitVec.eq_of_toNat_eq
  have hx := x.isLt
  rw [withSign, BitVec.toNat_ofNat, signOf_eq, magOf]
  by_cases h : 2 ^ 63 ≤ x.toNat
  · simp only [decide_eq_true h, if_true]
    omega
  · simp only [decide_eq_false h]
    norm_num
    omega

/-- Two patterns of one sign and one magnitude are the same. -/
theorem eq_of_sign_mag (a b : F64) (hs : signOf a = signOf b) (hm : magOf a = magOf b) : a = b := by
  rw [← withSign_sign_mag a, ← withSign_sign_mag b, hs, hm]

theorem finite_class (x : F64) (h : isFinite x = true) : isNaN x = false ∧ isInf x = false := by
  unfold isFinite at h
  unfold isNaN isInf
  simp only [decide_eq_true_eq, decide_eq_false_iff_not] at h ⊢
  omega

theorem infinite_class (x : F64) (h : isInf x = true) : isNaN x = false ∧ isFinite x = false ∧ isZero x = false := by
  unfold isInf at h
  have hm : magOf x = infMag := of_decide_eq_true h
  unfold isNaN isFinite isZero
  rw [hm]
  decide

theorem nan_class (x : F64) (h : isNaN x = true) : isFinite x = false := by
  unfold isNaN at h
  unfold isFinite
  simp only [decide_eq_true_eq, decide_eq_false_iff_not] at h ⊢
  omega

theorem zero_class (x : F64) (h : isZero x = true) : magOf x = 0 ∧ isFinite x = true := by
  unfold isZero at h
  have hm : magOf x = 0 := of_decide_eq_true h
  unfold isFinite
  rw [hm]
  decide

/-- A value that is not finite is a NaN or an infinity. -/
theorem nonfinite_class (x : F64) (h : isFinite x = false) : isNaN x = true ∨ isInf x = true := by
  unfold isFinite at h
  unfold isNaN isInf
  simp only [decide_eq_true_eq, decide_eq_false_iff_not] at h ⊢
  omega

theorem isNaN_nanOf (raw : F64) : isNaN (nanOf raw) = true := by
  have h : magOf raw % 2 ^ 52 < 2 ^ 52 := Nat.mod_lt _ (by decide)
  have hb : infMag = 2047 * 2 ^ 52 := rfl
  unfold nanOf isNaN
  rw [decide_eq_true_eq]
  by_cases h0 : magOf raw % 2 ^ 52 = 0
  · rw [if_pos h0, magOf_withSign _ _ (by omega)]
    omega
  · rw [if_neg h0, magOf_withSign _ _ (by omega)]
    omega

/-- Every draw is a NaN. -/
@[simp] theorem isNaN_drawNaN (seq site : Nat) : isNaN (drawNaN seq site) = true := isNaN_nanOf _

/-! ### The same value -/

theorem sameValue_iff (a b : F64) : sameValue a b = true ↔ a = b ∨ (isNaN a = true ∧ isNaN b = true) := by
  unfold sameValue
  simp

@[simp] theorem sameValue_refl (a : F64) : sameValue a a = true := (sameValue_iff a a).mpr (.inl rfl)

theorem sameValue_symm {a b : F64} (h : sameValue a b = true) : sameValue b a = true := by
  rcases (sameValue_iff a b).mp h with h | ⟨h1, h2⟩
  · rw [h]
    exact sameValue_refl b
  · exact (sameValue_iff b a).mpr (.inr ⟨h2, h1⟩)

theorem sameValue_trans {a b c : F64} (h : sameValue a b = true) (g : sameValue b c = true) : sameValue a c = true := by
  rcases (sameValue_iff a b).mp h with h | ⟨h1, h2⟩
  · rw [h]
    exact g
  · rcases (sameValue_iff b c).mp g with g | ⟨-, g2⟩
    · rw [← g]
      exact h
    · exact (sameValue_iff a c).mpr (.inr ⟨h1, g2⟩)

theorem sameValue_of_nan {a b : F64} (h : isNaN a = true) (g : isNaN b = true) : sameValue a b = true :=
  (sameValue_iff a b).mpr (.inr ⟨h, g⟩)

theorem isNaN_of_sameValue {a b : F64} (h : sameValue a b = true) : isNaN a = isNaN b := by
  rcases (sameValue_iff a b).mp h with h | ⟨h1, h2⟩
  · rw [h]
  · rw [h1, h2]

/-! ### NaN operands -/

theorem fadd_nan_left (n a b : F64) (h : isNaN a = true) : fadd n a b = n := by simp [fadd, h]

theorem fadd_nan_right (n a b : F64) (h : isNaN b = true) : fadd n a b = n := by simp [fadd, h]

theorem fmul_nan_left (n a b : F64) (h : isNaN a = true) : fmul n a b = n := by simp [fmul, h]

theorem fmul_nan_right (n a b : F64) (h : isNaN b = true) : fmul n a b = n := by simp [fmul, h]

theorem fdiv_nan_left (n a b : F64) (h : isNaN a = true) : fdiv n a b = n := by simp [fdiv, h]

theorem fdiv_nan_right (n a b : F64) (h : isNaN b = true) : fdiv n a b = n := by simp [fdiv, h]

theorem toNat_fneg (x : F64) : (fneg x).toNat = if 2 ^ 63 ≤ x.toNat then x.toNat - 2 ^ 63 else x.toNat + 2 ^ 63 := by
  have hx := x.isLt
  have e : (1#64 <<< 63).toNat = 2 ^ 63 := by decide
  rw [fneg, BitVec.toNat_xor, e]
  have hd : x.toNat = 2 ^ 63 * (x.toNat / 2 ^ 63) + x.toNat % 2 ^ 63 := (Nat.div_add_mod _ _).symm
  have hm : x.toNat % 2 ^ 63 < 2 ^ 63 := Nat.mod_lt _ (by decide)
  have key : ∀ q r : Nat, q < 2 → r < 2 ^ 63 → (2 ^ 63 * q + r) ^^^ 2 ^ 63 = 2 ^ 63 * (1 - q) + r := by
    intro q r hq hr
    apply Nat.eq_of_testBit_eq
    intro i
    rw [Nat.testBit_xor, Nat.testBit_two_pow, Nat.testBit_two_pow_mul_add _ hr, Nat.testBit_two_pow_mul_add _ hr]
    by_cases hi : i < 63
    · have : ¬ 63 = i := by omega
      simp [hi, this]
    · rw [if_neg hi, if_neg hi]
      have h2 : q = 0 ∨ q = 1 := by omega
      by_cases h63 : i = 63
      · subst h63
        rcases h2 with rfl | rfl <;> simp
      · have : ¬ 63 = i := by omega
        have hj : ∃ k, i - 63 = k + 1 := ⟨i - 64, by omega⟩
        obtain ⟨k, hk⟩ := hj
        rcases h2 with rfl | rfl <;> simp [this, hk, Nat.testBit_succ]
  rw [hd, key _ _ (by omega) hm]
  split <;> omega

@[simp] theorem magOf_fneg (x : F64) : magOf (fneg x) = magOf x := by
  have hx := x.isLt
  unfold magOf
  rw [toNat_fneg]
  split <;> omega

theorem signOf_fneg (x : F64) : signOf (fneg x) = !signOf x := by
  have hx := x.isLt
  rw [signOf_eq, signOf_eq, toNat_fneg]
  by_cases h : 2 ^ 63 ≤ x.toNat
  · rw [if_pos h, decide_eq_true h, decide_eq_false (by omega)]
    rfl
  · rw [if_neg h, decide_eq_false h, decide_eq_true (by omega)]
    rfl

theorem signedUnits_fneg (x : F64) : signedUnits (fneg x) = -signedUnits x := by
  unfold signedUnits
  rw [signOf_fneg, magOf_fneg]
  cases signOf x <;> simp

@[simp] theorem isNaN_fneg (x : F64) : isNaN (fneg x) = isNaN x := by unfold isNaN; rw [magOf_fneg]

@[simp] theorem isInf_fneg (x : F64) : isInf (fneg x) = isInf x := by unfold isInf; rw [magOf_fneg]

@[simp] theorem isZero_fneg (x : F64) : isZero (fneg x) = isZero x := by unfold isZero; rw [magOf_fneg]

@[simp] theorem isFinite_fneg (x : F64) : isFinite (fneg x) = isFinite x := by unfold isFinite; rw [magOf_fneg]

theorem fsub_nan_left (n a b : F64) (h : isNaN a = true) : fsub n a b = n := fadd_nan_left n a _ h

theorem fsub_nan_right (n a b : F64) (h : isNaN b = true) : fsub n a b = n := fadd_nan_right n a _ (by simpa using h)

/-! ### Finite operands -/

theorem fadd_finite (n a b : F64) (ha : isFinite a = true) (hb : isFinite b = true) : fadd n a b = addFinite a b := by
  simp [fadd, finite_class a ha, finite_class b hb]

theorem fmul_finite (n a b : F64) (ha : isFinite a = true) (hb : isFinite b = true) :
    fmul n a b = withSign (signOf a ^^ signOf b) (roundUnits (unitsOf (magOf a) * unitsOf (magOf b)) (2 ^ 1074)) := by
  obtain ⟨a1, a2⟩ := finite_class a ha
  obtain ⟨b1, b2⟩ := finite_class b hb
  unfold fmul
  rw [a1, b1, a2, b2]
  rfl

theorem fdiv_finite (n a b : F64) (ha : isFinite a = true) (hb : isFinite b = true) (h0 : isZero b = false) :
    fdiv n a b = withSign (signOf a ^^ signOf b) (roundUnits (unitsOf (magOf a) * 2 ^ 1074) (unitsOf (magOf b))) := by
  obtain ⟨a1, a2⟩ := finite_class a ha
  obtain ⟨b1, b2⟩ := finite_class b hb
  unfold fdiv
  rw [a1, b1, a2, b2, h0]
  rfl

/-! ### Values that spread -/

/-- A property of values that a sum, a difference and a product take over from either operand. -/
structure Spreads (bad : F64 → Bool) : Prop where
  fadd : ∀ n a b, isNaN n = true → bad a = true ∨ bad b = true → bad (fadd n a b) = true
  fsub : ∀ n a b, isNaN n = true → bad a = true ∨ bad b = true → bad (fsub n a b) = true
  fmul : ∀ n a b, isNaN n = true → bad a = true ∨ bad b = true → bad (fmul n a b) = true

theorem spreads_isNaN : Spreads isNaN where
  fadd n a b hn h := by
    rcases h with h | h
    · rwa [fadd_nan_left n a b h]
    · rwa [fadd_nan_right n a b h]
  fsub n a b hn h := by
    rcases h with h | h
    · rwa [fsub_nan_left n a b h]
    · rwa [fsub_nan_right n a b h]
  fmul n a b hn h := by
    rcases h with h | h
    · rwa [fmul_nan_left n a b h]
    · rwa [fmul_nan_right n a b h]

theorem isFinite_infinity (neg : Bool) : isFinite (withSign neg infMag) = false := by cases neg <;> decide

theorem fadd_nonfinite (n a b : F64) (hn : isNaN n = true) (h : isFinite a = false ∨ isFinite b = false) :
    isFinite (fadd n a b) = false := by
  have hf := nan_class n hn
  unfold fadd
  split
  · exact hf
  · rename_i hnan
    split
    · rename_i ha
      split
      · exact hf
      · exact (infinite_class a ha).2.1
    · rename_i ha
      split
      · rename_i hb
        exact (infinite_class b hb).2.1
      · rename_i hb
        simp only [Bool.or_eq_true, not_or] at hnan
        rcases h with h | h
        · rcases nonfinite_class a h with c | c
          · exact (hnan.1 c).elim
          · exact (ha c).elim
        · rcases nonfinite_class b h with c | c
          · exact (hnan.2 c).elim
          · exact (hb c).elim

theorem fmul_nonfinite (n a b : F64) (hn : isNaN n = true) (h : isFinite a = false ∨ isFinite b = false) :
    isFinite (fmul n a b) = false := by
  have hf := nan_class n hn
  unfold fmul
  split
  · exact hf
  · rename_i hnan
    split
    · split
      · exact hf
      · exact isFinite_infinity _
    · rename_i hinf
      simp only [Bool.or_eq_true, not_or] at hnan hinf
      rcases h with h | h
      · rcases nonfinite_class a h with c | c
        · exact (hnan.1 c).elim
        · exact (hinf.1 c).elim
      · rcases nonfinite_class b h with c | c
        · exact (hnan.2 c).elim
        · exact (hinf.2 c).elim

theorem spreads_nonfinite : Spreads fun x => !isFinite x where
  fadd n a b hn h := by
    simp only [Bool.not_eq_true'] at h ⊢
    exact fadd_nonfinite n a b hn h
  fsub n a b hn h := by
    simp only [Bool.not_eq_true'] at h ⊢
    exact fadd_nonfinite n a (fneg b) hn (by rwa [isFinite_fneg])
  fmul n a b hn h := by
    simp only [Bool.not_eq_true'] at h ⊢
    exact fmul_nonfinite n a b hn h

/-! ### Each operation, whichever NaNs are drawn -/

/-- A result is fixed by the operands, or it is the NaN that is drawn. -/
theorem fadd_draw (n m a b : F64) : fadd n a b = fadd m a b ∨ (fadd n a b = n ∧ fadd m a b = m) := by
  unfold fadd
  repeat' split
  all_goals first | exact .inl rfl | exact .inr ⟨rfl, rfl⟩

theorem fmul_draw (n m a b : F64) : fmul n a b = fmul m a b ∨ (fmul n a b = n ∧ fmul m a b = m) := by
  unfold fmul
  repeat' split
  all_goals first | exact .inl rfl | exact .inr ⟨rfl, rfl⟩

theorem fdiv_draw (n m a b : F64) : fdiv n a b = fdiv m a b ∨ (fdiv n a b = n ∧ fdiv m a b = m) := by
  unfold fdiv
  repeat' split
  all_goals first | exact .inl rfl | exact .inr ⟨rfl, rfl⟩

theorem fadd_same {n m a a' b b' : F64} (hn : isNaN n = true) (hm : isNaN m = true) (ha : sameValue a a' = true)
    (hb : sameValue b b' = true) : sameValue (fadd n a b) (fadd m a' b') = true := by
  rcases (sameValue_iff a a').mp ha with rfl | ⟨h1, h2⟩
  · rcases (sameValue_iff b b').mp hb with rfl | ⟨g1, g2⟩
    · rcases fadd_draw n m a b with h | ⟨h, g⟩
      · rw [h]
        exact sameValue_refl _
      · rw [h, g]
        exact sameValue_of_nan hn hm
    · rw [fadd_nan_right _ _ _ g1, fadd_nan_right _ _ _ g2]
      exact sameValue_of_nan hn hm
  · rw [fadd_nan_left _ _ _ h1, fadd_nan_left _ _ _ h2]
    exact sameValue_of_nan hn hm

theorem fneg_same {a a' : F64} (ha : sameValue a a' = true) : sameValue (fneg a) (fneg a') = true := by
  rcases (sameValue_iff a a').mp ha with rfl | ⟨h1, h2⟩
  · exact sameValue_refl _
  · exact sameValue_of_nan (by simpa using h1) (by simpa using h2)

theorem fsub_same {n m a a' b b' : F64} (hn : isNaN n = true) (hm : isNaN m = true) (ha : sameValue a a' = true)
    (hb : sameValue b b' = true) : sameValue (fsub n a b) (fsub m a' b') = true := fadd_same hn hm ha (fneg_same hb)

theorem fmul_same {n m a a' b b' : F64} (hn : isNaN n = true) (hm : isNaN m = true) (ha : sameValue a a' = true)
    (hb : sameValue b b' = true) : sameValue (fmul n a b) (fmul m a' b') = true := by
  rcases (sameValue_iff a a').mp ha with rfl | ⟨h1, h2⟩
  · rcases (sameValue_iff b b').mp hb with rfl | ⟨g1, g2⟩
    · rcases fmul_draw n m a b with h | ⟨h, g⟩
      · rw [h]
        exact sameValue_refl _
      · rw [h, g]
        exact sameValue_of_nan hn hm
    · rw [fmul_nan_right _ _ _ g1, fmul_nan_right _ _ _ g2]
      exact sameValue_of_nan hn hm
  · rw [fmul_nan_left _ _ _ h1, fmul_nan_left _ _ _ h2]
    exact sameValue_of_nan hn hm

theorem fdiv_same {n m a a' b b' : F64} (hn : isNaN n = true) (hm : isNaN m = true) (ha : sameValue a a' = true)
    (hb : sameValue b b' = true) : sameValue (fdiv n a b) (fdiv m a' b') = true := by
  rcases (sameValue_iff a a').mp ha with rfl | ⟨h1, h2⟩
  · rcases (sameValue_iff b b').mp hb with rfl | ⟨g1, g2⟩
    · rcases fdiv_draw n m a b with h | ⟨h, g⟩
      · rw [h]
        exact sameValue_refl _
      · rw [h, g]
        exact sameValue_of_nan hn hm
    · rw [fdiv_nan_right _ _ _ g1, fdiv_nan_right _ _ _ g2]
      exact sameValue_of_nan hn hm
  · rw [fdiv_nan_left _ _ _ h1, fdiv_nan_left _ _ _ h2]
    exact sameValue_of_nan hn hm

theorem f64OfF32_same {n m : F64} (hn : isNaN n = true) (hm : isNaN m = true) (w : Word) :
    sameValue (f64OfF32 n w) (f64OfF32 m w) = true := by
  unfold f64OfF32
  simp only
  split
  · exact sameValue_refl _
  · split
    · split
      · exact sameValue_refl _
      · exact sameValue_of_nan hn hm
    · exact sameValue_refl _

/-! ### The order of operands -/

theorem fmul_comm (n a b : F64) : fmul n a b = fmul n b a := by
  unfold fmul
  rw [Bool.or_comm (isNaN b), Bool.or_comm (isInf b), Bool.or_comm (isZero b), Bool.xor_comm (signOf b),
    Nat.mul_comm (unitsOf (magOf b))]

end Sys2Proof.Machine
end

