-- ==== Sys2Proof/Laws/Estimator.lean ====
section
/-! SUPPORT. KF up to the bits of NaNs: the same construction and the same cycle whichever NaNs are drawn, the symmetry of a cycle,
the covariance's independence of the measurement. -/

namespace Sys2Proof.Machine

@[simp] theorem sameValues_nil : sameValues [] [] = true := rfl

@[simp] theorem sameValues_cons (a b : F64) (as bs : List F64) :
    sameValues (a :: as) (b :: bs) = (sameValue a b && sameValues as bs) := rfl

@[simp] theorem sameValues_refl (l : List F64) : sameValues l l = true := by
  induction l with
  | nil => rfl
  | cons a l ih => rw [sameValues_cons, sameValue_refl, ih]; rfl

/-- Register by register. -/
theorem sameEstimator_iff (a b : Estimator) :
    sameEstimator a b ↔
      (sameValue a.dt b.dt = true ∧ sameValue a.qn b.qn = true ∧ sameValue a.rn b.rn = true ∧ sameValue a.p0 b.p0 = true ∧
        sameValue a.qd00 b.qd00 = true ∧ sameValue a.qd01 b.qd01 = true ∧ sameValue a.qd11 b.qd11 = true) ∧
      (sameValue a.x0 b.x0 = true ∧ sameValue a.x1 b.x1 = true ∧ sameValue a.p00 b.p00 = true ∧
        sameValue a.p01 b.p01 = true ∧ sameValue a.p10 b.p10 = true ∧ sameValue a.p11 b.p11 = true) ∧
      a.ready = b.ready := by
  simp [sameEstimator, and_assoc]

/-- A source of NaNs. -/
def AllNaN (nan : Nat → F64) : Prop := ∀ k, isNaN (nan k) = true

theorem allNaN_draw (seq : Nat) : AllNaN (drawNaN seq) := fun k => isNaN_drawNaN seq k

/-- Two constructions with the same operands. -/
theorem constructed_same {n m : Nat → F64} (hn : AllNaN n) (hm : AllNaN m) (dt q r p0 : F64) :
    sameEstimator (constructed n dt q r p0) (constructed m dt q r p0) := by
  have e2 := fmul_same (hn 0) (hm 0) (sameValue_refl dt) (sameValue_refl dt)
  have e3 := fmul_same (hn 1) (hm 1) e2 (sameValue_refl dt)
  have e4 := fmul_same (hn 2) (hm 2) e2 e2
  have rq := sameValue_refl q
  exact (sameEstimator_iff _ _).mpr
    ⟨⟨sameValue_refl _, sameValue_refl _, sameValue_refl _, sameValue_refl _,
      fdiv_same (hn 4) (hm 4) (fmul_same (hn 3) (hm 3) rq e4) (sameValue_refl _),
      fdiv_same (hn 6) (hm 6) (fmul_same (hn 5) (hm 5) rq e3) (sameValue_refl _),
      fmul_same (hn 7) (hm 7) rq e2⟩,
    ⟨sameValue_refl _, sameValue_refl _, sameValue_refl _, sameValue_refl _, sameValue_refl _, sameValue_refl _⟩, rfl⟩

/-- Two predictions from the same state. -/
theorem predict_same {n m : Nat → F64} (hn : AllNaN n) (hm : AllNaN m) {a b : Estimator} (h : sameEstimator a b) :
    sameValue (predict n a).x0p (predict m b).x0p = true ∧ sameValue (predict n a).x1p (predict m b).x1p = true ∧
      sameValue (predict n a).pp00 (predict m b).pp00 = true ∧ sameValue (predict n a).pp01 (predict m b).pp01 = true ∧
      sameValue (predict n a).pp10 (predict m b).pp10 = true ∧ sameValue (predict n a).pp11 (predict m b).pp11 = true := by
  obtain ⟨⟨hdt, -, -, -, h00, h01, h11⟩, ⟨hx0, hx1, hp00, hp01, hp10, hp11⟩, -⟩ := (sameEstimator_iff a b).mp h
  have a00 := fadd_same (hn 3) (hm 3) hp00 (fmul_same (hn 2) (hm 2) hdt hp10)
  have a01 := fadd_same (hn 5) (hm 5) hp01 (fmul_same (hn 4) (hm 4) hdt hp11)
  have a10 := fadd_same (hn 7) (hm 7) hp10 (fmul_same (hn 6) (hm 6) hdt hp11)
  exact ⟨fadd_same (hn 1) (hm 1) hx0 (fmul_same (hn 0) (hm 0) hx1 hdt), hx1,
    fadd_same (hn 10) (hm 10) (fadd_same (hn 9) (hm 9) a00 (fmul_same (hn 8) (hm 8) hdt a01)) h00,
    fadd_same (hn 11) (hm 11) a01 h01, fadd_same (hn 12) (hm 12) a10 h01, fadd_same (hn 13) (hm 13) hp11 h11⟩

/-- Two cycles from the same state on the same measurement. -/
theorem cycled_same {n m : Nat → F64} (hn : AllNaN n) (hm : AllNaN m) {a b : Estimator} (h : sameEstimator a b) {z w : F64}
    (hz : sameValue z w = true) : sameEstimator (cycled n a z) (cycled m b w) := by
  obtain ⟨px0, px1, p00, p01, p10, p11⟩ := predict_same hn hm h
  obtain ⟨hc, ⟨-, -, -, -, -, -⟩, hr⟩ := (sameEstimator_iff a b).mp h
  have hy := fsub_same (hn 14) (hm 14) hz px0
  have hs := fadd_same (hn 15) (hm 15) p00 hc.2.2.1
  have hk := fdiv_same (hn 16) (hm 16) (sameValue_refl oneF) hs
  exact (sameEstimator_iff _ _).mpr ⟨hc,
    ⟨fadd_same (hn 19) (hm 19) px0 (fmul_same (hn 18) (hm 18) (fmul_same (hn 17) (hm 17) hk p00) hy),
      fadd_same (hn 22) (hm 22) px1 (fmul_same (hn 21) (hm 21) (fmul_same (hn 20) (hm 20) hk p10) hy),
      fsub_same (hn 25) (hm 25) p00 (fmul_same (hn 24) (hm 24) hk (fmul_same (hn 23) (hm 23) p00 p00)),
      fsub_same (hn 28) (hm 28) p01 (fmul_same (hn 27) (hm 27) hk (fmul_same (hn 26) (hm 26) p00 p01)),
      fsub_same (hn 31) (hm 31) p10 (fmul_same (hn 30) (hm 30) hk (fmul_same (hn 29) (hm 29) p10 p00)),
      fsub_same (hn 34) (hm 34) p11 (fmul_same (hn 33) (hm 33) hk (fmul_same (hn 32) (hm 32) p10 p01))⟩, hr⟩

/-- The off-diagonal entries of an update. -/
theorem update_p01 (n : Nat → F64) (e : Estimator) (p : Prediction) (z : F64) :
    (update n e p z).p01 =
      fsub (n 28) p.pp01 (fmul (n 27) (fdiv (n 16) oneF (fadd (n 15) p.pp00 e.rn)) (fmul (n 26) p.pp00 p.pp01)) := rfl

theorem update_p10 (n : Nat → F64) (e : Estimator) (p : Prediction) (z : F64) :
    (update n e p z).p10 =
      fsub (n 31) p.pp10 (fmul (n 30) (fdiv (n 16) oneF (fadd (n 15) p.pp00 e.rn)) (fmul (n 29) p.pp10 p.pp00)) := rfl

theorem predict_pp01 (n : Nat → F64) (k : Estimator) :
    (predict n k).pp01 = fadd (n 11) (fadd (n 5) k.p01 (fmul (n 4) k.dt k.p11)) k.qd01 := rfl

theorem predict_pp10 (n : Nat → F64) (k : Estimator) :
    (predict n k).pp10 = fadd (n 12) (fadd (n 7) k.p10 (fmul (n 6) k.dt k.p11)) k.qd01 := rfl

/-- A prediction from a symmetric covariance is symmetric. -/
theorem predict_symmetric {n : Nat → F64} (hn : AllNaN n) (k : Estimator) (h : k.symmetric) :
    sameValue (predict n k).pp01 (predict n k).pp10 = true := by
  rw [predict_pp01, predict_pp10]
  exact fadd_same (hn 11) (hn 12)
    (fadd_same (hn 5) (hn 7) h (fmul_same (hn 4) (hn 6) (sameValue_refl k.dt) (sameValue_refl k.p11))) (sameValue_refl k.qd01)

/-- A cycle keeps the covariance symmetric. -/
theorem cycled_symmetric {n : Nat → F64} (hn : AllNaN n) (k : Estimator) (z : F64) (h : k.symmetric) :
    (cycled n k z).symmetric := by
  have p01 := predict_symmetric hn k h
  unfold Estimator.symmetric cycled
  rw [update_p01, update_p10, fmul_comm (n 29)]
  exact fsub_same (hn 28) (hn 31) p01
    (fmul_same (hn 27) (hn 30) (sameValue_refl _) (fmul_same (hn 26) (hn 29) (sameValue_refl _) p01))

/-- Register by register. -/
theorem sameCovariance_iff (a b : Estimator) :
    sameCovariance a b ↔
      (sameValue a.dt b.dt = true ∧ sameValue a.rn b.rn = true ∧ sameValue a.qd00 b.qd00 = true ∧
        sameValue a.qd01 b.qd01 = true ∧ sameValue a.qd11 b.qd11 = true) ∧
      (sameValue a.p00 b.p00 = true ∧ sameValue a.p01 b.p01 = true ∧ sameValue a.p10 b.p10 = true ∧
        sameValue a.p11 b.p11 = true) ∧ a.ready = b.ready := by
  simp [sameCovariance, and_assoc]

/-- The same state has the same configuration and covariance. -/
theorem sameCovariance_of_same {a b : Estimator} (h : sameEstimator a b) : sameCovariance a b := by
  obtain ⟨⟨hdt, -, hrn, -, h00, h01, h11⟩, ⟨-, -, hp⟩, hr⟩ := (sameEstimator_iff a b).mp h
  exact (sameCovariance_iff a b).mpr ⟨⟨hdt, hrn, h00, h01, h11⟩, hp, hr⟩

/-- Two cycles from states that agree in the covariance, on any measurements. -/
theorem cycled_sameCovariance {n m : Nat → F64} (hn : AllNaN n) (hm : AllNaN m) {a b : Estimator} (h : sameCovariance a b)
    (z w : F64) : sameCovariance (cycled n a z) (cycled m b w) := by
  obtain ⟨⟨hdt, hrn, h00, h01, h11⟩, ⟨hp00, hp01, hp10, hp11⟩, hr⟩ := (sameCovariance_iff a b).mp h
  have a00 := fadd_same (hn 3) (hm 3) hp00 (fmul_same (hn 2) (hm 2) hdt hp10)
  have a01 := fadd_same (hn 5) (hm 5) hp01 (fmul_same (hn 4) (hm 4) hdt hp11)
  have a10 := fadd_same (hn 7) (hm 7) hp10 (fmul_same (hn 6) (hm 6) hdt hp11)
  have p00 := fadd_same (hn 10) (hm 10) (fadd_same (hn 9) (hm 9) a00 (fmul_same (hn 8) (hm 8) hdt a01)) h00
  have p01 := fadd_same (hn 11) (hm 11) a01 h01
  have p10 := fadd_same (hn 12) (hm 12) a10 h01
  have p11 := fadd_same (hn 13) (hm 13) hp11 h11
  have hk := fdiv_same (hn 16) (hm 16) (sameValue_refl oneF) (fadd_same (hn 15) (hm 15) p00 hrn)
  exact (sameCovariance_iff _ _).mpr ⟨⟨hdt, hrn, h00, h01, h11⟩,
    ⟨fsub_same (hn 25) (hm 25) p00 (fmul_same (hn 24) (hm 24) hk (fmul_same (hn 23) (hm 23) p00 p00)),
      fsub_same (hn 28) (hm 28) p01 (fmul_same (hn 27) (hm 27) hk (fmul_same (hn 26) (hm 26) p00 p01)),
      fsub_same (hn 31) (hm 31) p10 (fmul_same (hn 30) (hm 30) hk (fmul_same (hn 29) (hm 29) p10 p00)),
      fsub_same (hn 34) (hm 34) p11 (fmul_same (hn 33) (hm 33) hk (fmul_same (hn 32) (hm 32) p10 p01))⟩, hr⟩

/-- A cycle from a bad estimate, or on a bad measurement, leaves a bad estimate. -/
theorem cycled_spreads {bad : F64 → Bool} (hb : Spreads bad) {n : Nat → F64} (hn : AllNaN n) (k : Estimator) (z : F64)
    (h : bad z = true ∨ bad k.x0 = true ∨ bad k.x1 = true) :
    bad (cycled n k z).x0 = true ∧ bad (cycled n k z).x1 = true := by
  have hy : bad (fsub (n 14) z (predict n k).x0p) = true := by
    refine hb.fsub _ _ _ (hn _) ?_
    rcases h with h | h | h
    · exact .inl h
    · exact .inr (hb.fadd _ _ _ (hn _) (.inl h))
    · exact .inr (hb.fadd _ _ _ (hn _) (.inr (hb.fmul _ _ _ (hn _) (.inl h))))
  exact ⟨hb.fadd _ _ _ (hn _) (.inr (hb.fmul _ _ _ (hn _) (.inr hy))),
    hb.fadd _ _ _ (hn _) (.inr (hb.fmul _ _ _ (hn _) (.inr hy)))⟩

end Sys2Proof.Machine
end

