-- ==== Sys2Proof/Laws/Ops.lean ====
section
/-! SUPPORT. What the shared operations can answer: the extraction loop, the completion of a unit, the emission with its coupling,
a byte collected, a unit received, the end of a turn. -/

namespace Sys2Proof.Machine

/-! ### Results -/

@[simp] theorem andThen_next (s : State) (f : State → Result) : andThen (.next s) f = f s := rfl

@[simp] theorem andThen_fault (r : Fault) (f : State → Result) : andThen (.fault r) f = .fault r := rfl

@[simp] theorem andThen_refused (r : Refusal) (f : State → Result) : andThen (.refused r) f = .refused r := rfl

/-- A sequence answers a next state exactly when both parts do. -/
theorem andThen_eq_next (o : Result) (f : State → Result) (t : State) :
    andThen o f = .next t ↔ ∃ s, o = .next s ∧ f s = .next t := by
  cases o <;> simp

theorem frameLen_le (l : Layout) : frameLen l ≤ 36 := by cases l <;> decide

theorem four_le_frameLen (l : Layout) : 4 ≤ frameLen l := by cases l <;> decide

/-! ### Extraction -/

/-- An extraction operation changes only the loop's variables and the draw counter. -/
theorem execField_frame (f : FieldType) (s t : State) (h : execField f s = .next t) :
    t = { s with xt := t.xt, nanSeq := t.nanSeq } := by
  have key : ∀ x n, Host.Outcome.next { s with xt := x, nanSeq := n } = (.next t : Result) →
      t = { s with xt := t.xt, nanSeq := t.nanSeq } := by
    intro x n e
    cases e
    rfl
  cases f
  · exact key _ _ h
  · simp only [execField, execU8eFault] at h
    split at h
    · cases h
    · exact key _ _ h
  · simp only [execField, execU8eState] at h
    split at h
    · cases h
    · exact key _ _ h
  · simp only [execField, execU16] at h
    split at h
    · cases h
    · exact key _ _ h
  · simp only [execField, execF32] at h
    split at h
    · cases h
    · exact key _ _ h

/-- An extraction leaves KF alone. -/
theorem execField_kf (f : FieldType) (s t : State) (h : execField f s = .next t) : t.kf = s.kf := by
  rw [execField_frame f s t h]

/-- The loop changes only its variables and the draw counter. -/
theorem extractFields_frame (l : List FieldType) : ∀ s t : State, extractFields l s = .next t →
    t = { s with xt := t.xt, nanSeq := t.nanSeq } := by
  induction l with
  | nil =>
    intro s t h
    cases h
    rfl
  | cons f l ih =>
    intro s t h
    obtain ⟨m, hm, ht⟩ := (andThen_eq_next _ _ _).mp h
    rw [execField_frame f s m hm] at ht
    have e := ih _ t ht
    exact e

/-- A field moves the offset on by its width. -/
theorem execField_off (f : FieldType) (s t : State) (h : execField f s = .next t) : t.xt.off = s.xt.off + fieldWidth f := by
  cases f
  · cases h
    rfl
  · simp only [execField, execU8eFault] at h
    split at h <;> cases h
    rfl
  · simp only [execField, execU8eState] at h
    split at h <;> cases h
    rfl
  · simp only [execField, execU16] at h
    split at h <;> cases h
    rfl
  · simp only [execField, execF32] at h
    split at h <;> cases h
    rfl

/-- The loop moves the offset on by the widths of its fields. -/
theorem extractFields_off (l : List FieldType) : ∀ s t : State, extractFields l s = .next t →
    t.xt.off = s.xt.off + (l.map fieldWidth).sum := by
  induction l with
  | nil =>
    intro s t h
    cases h
    rfl
  | cons f l ih =>
    intro s t h
    obtain ⟨m, hm, ht⟩ := (andThen_eq_next _ _ _).mp h
    rw [ih m t ht, execField_off f s m hm, List.map_cons, List.sum_cons, Nat.add_assoc]

/-- The whole loop over a layout gives the Sample of the field tables, one draw for each numeric field. -/
theorem extractFields_layout (s : State) (hx : s.xt = Extraction.start) :
    ∃ x : Extraction, extractFields (fieldsOf s.fs.cfg.layout) s =
        .next { s with xt := x, nanSeq := s.nanSeq + numCount s.fs.cfg.layout } ∧
      x.sample = tableSample s.fs.cfg s.nanSeq s.fs.fb.read := by
  obtain ⟨fs, kf, io, xt, seq, resp, out⟩ := s
  simp only at hx
  subst hx
  cases hl : fs.cfg.layout with
  | a =>
    refine ⟨_, rfl, ?_⟩
    simp only [tableSample, hl, wordAt_eq, halfAt_eq]
    rfl
  | b =>
    refine ⟨_, rfl, ?_⟩
    simp only [tableSample, hl, wordAt_eq, halfAt_eq]
    rfl
  | c =>
    refine ⟨_, rfl, ?_⟩
    simp only [tableSample, hl, wordAt_eq, halfAt_eq]
    rfl

/-! ### Emission -/

theorem tableSample_length (c : FsConfig) (seq : Nat) (u : Nat → Byte) :
    (tableSample c seq u).num.length = numCount c.layout := by
  unfold tableSample
  cases c.layout <;> rfl

theorem chselValid_iff (c : BitVec 5) : chselValid c = true ↔ 16 ≤ c.toNat := by
  revert c
  decide

theorem chselIndex_toNat (c : BitVec 5) : (chselIndex c).toNat = c.toNat % 16 := by
  revert c
  decide

/-- CHX answers a next state in every state: KF untouched, or one cycle on the routed value. -/
theorem execChx_cases (i : BitVec 4) (s : State) :
    execChx i s = .next s ∨
      ∃ z, routedValue i s.out = some z ∧ s.kf.ready = true ∧
        execChx i s = .next { s.withKf (cycled (drawNaN s.nanSeq) s.kf z) with
          out := s.out ++ [(cycled (drawNaN s.nanSeq) s.kf z).estimate] } := by
  unfold execChx
  cases hr : routedValue i s.out with
  | none => exact .inl rfl
  | some z =>
    cases hk : s.kf.ready with
    | false => exact .inl (by simp)
    | true => exact .inr ⟨z, rfl, rfl, by simp⟩

/-- An emission always answers a next state. -/
theorem emitSample_cases (s : State) :
    emitSample s = .next (handOver s) ∨
      ∃ z, chselValid s.fs.cfg.chsel = true ∧ s.xt.num[(chselIndex s.fs.cfg.chsel).toNat]? = some z ∧ s.kf.ready = true ∧
        emitSample s = .next { (handOver s).withKf (cycled (drawNaN s.nanSeq) s.kf z) with
          out := [.sample s.xt.sample, (cycled (drawNaN s.nanSeq) s.kf z).estimate] } := by
  unfold emitSample
  split
  · rename_i hv
    rcases execChx_cases (chselIndex s.fs.cfg.chsel) (handOver s) with h | ⟨z, hz, hk, h⟩
    · exact .inl h
    · exact .inr ⟨z, hv, hz, hk, h⟩
  · exact .inl rfl

/-- Without a selected channel, or without a KF, an emission is the hand-over alone. -/
theorem emitSample_alone (s : State) (h : chselValid s.fs.cfg.chsel = false ∨ s.kf.ready = false) :
    emitSample s = .next (handOver s) := by
  rcases emitSample_cases s with e | ⟨z, hv, -, hk, -⟩
  · exact e
  · rcases h with h | h
    · rw [h] at hv
      cases hv
    · rw [h] at hk
      cases hk

/-- With a selected channel and a KF, an emission runs one cycle on the channel. -/
theorem emitSample_routed (s : State) (z : F64) (hv : chselValid s.fs.cfg.chsel = true) (hk : s.kf.ready = true)
    (hz : s.xt.num[(chselIndex s.fs.cfg.chsel).toNat]? = some z) :
    emitSample s = .next { (handOver s).withKf (cycled (drawNaN s.nanSeq) s.kf z) with
      out := [.sample s.xt.sample, (cycled (drawNaN s.nanSeq) s.kf z).estimate] } := by
  have hr : routedValue (chselIndex s.fs.cfg.chsel) (handOver s).out = some z := hz
  unfold emitSample execChx
  rw [if_pos hv, hr]
  exact if_pos hk

/-! ### Units -/

/-- A complete unit: the emission of the Sample of the field tables, or the end by a wrong marker. -/
theorem completeUnit_eq (s : State) :
    (wordAt s.fs.fb.read 0 = s.fs.cfg.magic ∧ ∃ x : Extraction,
      x.sample = tableSample s.fs.cfg s.nanSeq s.fs.fb.read ∧
      completeUnit s = emitSample { s with xt := x, nanSeq := s.nanSeq + numCount s.fs.cfg.layout }) ∨
    (wordAt s.fs.fb.read 0 ≠ s.fs.cfg.magic ∧ completeUnit s = .next (raiseEnd .desync s)) := by
  rw [wordAt_eq]
  simp only [completeUnit, memRead4_head]
  by_cases hm : le32 (s.fs.fb.read 0) (s.fs.fb.read 1) (s.fs.fb.read 2) (s.fs.fb.read 3) = s.fs.cfg.magic
  · left
    obtain ⟨x, hx, hsmp⟩ := extractFields_layout { s with xt := Extraction.start } rfl
    refine ⟨hm, x, hsmp, ?_⟩
    rw [if_pos hm, hx]
    rfl
  · exact .inr ⟨hm, if_neg hm⟩

/-- Everything a complete unit can do: DESYNC, a Sample, or a Sample and one KF cycle on its selected channel. -/
theorem completeUnit_cases (s : State) :
    (wordAt s.fs.fb.read 0 ≠ s.fs.cfg.magic ∧ completeUnit s = .next (raiseEnd .desync s)) ∨
    (wordAt s.fs.fb.read 0 = s.fs.cfg.magic ∧
      (completeUnit s = .next
        { s with
          fs := { s.fs with demand := false }, xt := Extraction.start
          nanSeq := s.nanSeq + numCount s.fs.cfg.layout, resp := .accepted
          out := [.sample (tableSample s.fs.cfg s.nanSeq s.fs.fb.read)] } ∨
      ∃ z, chselValid s.fs.cfg.chsel = true ∧ s.kf.ready = true ∧
        (tableSample s.fs.cfg s.nanSeq s.fs.fb.read).num[(chselIndex s.fs.cfg.chsel).toNat]? = some z ∧
        completeUnit s = .next
          { s with
            fs := { s.fs with demand := false }, xt := Extraction.start
            kf := cycled (drawNaN (s.nanSeq + numCount s.fs.cfg.layout)) s.kf z
            nanSeq := s.nanSeq + numCount s.fs.cfg.layout + 1, resp := .accepted
            out := [.sample (tableSample s.fs.cfg s.nanSeq s.fs.fb.read),
              (cycled (drawNaN (s.nanSeq + numCount s.fs.cfg.layout)) s.kf z).estimate] })) := by
  rcases completeUnit_eq s with ⟨hm, x, hx, hc⟩ | h
  · refine .inr ⟨hm, ?_⟩
    rw [hc]
    rcases emitSample_cases { s with xt := x, nanSeq := s.nanSeq + numCount s.fs.cfg.layout } with h | ⟨z, hv, hz, hk, h⟩
    · left
      rw [h, handOver, hx]
      rfl
    · right
      refine ⟨z, hv, hk, ?_, ?_⟩
      · rw [← hx]
        exact hz
      · rw [h, handOver, hx]
        rfl
  · exact .inl h

/-- A complete unit with a wrong marker. -/
theorem completeUnit_desync (s : State) (hm : wordAt s.fs.fb.read 0 ≠ s.fs.cfg.magic) :
    completeUnit s = .next (raiseEnd .desync s) := by
  rcases completeUnit_eq s with ⟨h, -⟩ | ⟨-, h⟩
  · exact (hm h).elim
  · exact h

/-- A complete unit that emits its Sample alone. -/
theorem completeUnit_sample (s : State) (hm : wordAt s.fs.fb.read 0 = s.fs.cfg.magic)
    (h : chselValid s.fs.cfg.chsel = false ∨ s.kf.ready = false) :
    completeUnit s = .next
      { s with
        fs := { s.fs with demand := false }, xt := Extraction.start
        nanSeq := s.nanSeq + numCount s.fs.cfg.layout, resp := .accepted
        out := [.sample (tableSample s.fs.cfg s.nanSeq s.fs.fb.read)] } := by
  rcases completeUnit_eq s with ⟨-, x, hx, hc⟩ | ⟨hn, -⟩
  · rw [hc, emitSample_alone { s with xt := x, nanSeq := s.nanSeq + numCount s.fs.cfg.layout } h, handOver, hx]
    rfl
  · exact (hn hm).elim

/-- A complete unit that emits its Sample and runs one cycle on the selected channel. -/
theorem completeUnit_routed (s : State) (z : F64) (hm : wordAt s.fs.fb.read 0 = s.fs.cfg.magic)
    (hv : chselValid s.fs.cfg.chsel = true) (hk : s.kf.ready = true)
    (hz : (tableSample s.fs.cfg s.nanSeq s.fs.fb.read).num[(chselIndex s.fs.cfg.chsel).toNat]? = some z) :
    completeUnit s = .next
      { s with
        fs := { s.fs with demand := false }, xt := Extraction.start
        kf := cycled (drawNaN (s.nanSeq + numCount s.fs.cfg.layout)) s.kf z
        nanSeq := s.nanSeq + numCount s.fs.cfg.layout + 1, resp := .accepted
        out := [.sample (tableSample s.fs.cfg s.nanSeq s.fs.fb.read),
          (cycled (drawNaN (s.nanSeq + numCount s.fs.cfg.layout)) s.kf z).estimate] } := by
  rcases completeUnit_eq s with ⟨-, x, hx, hc⟩ | ⟨hn, -⟩
  · have hxn : x.num = (tableSample s.fs.cfg s.nanSeq s.fs.fb.read).num := by
      rw [← hx]
      rfl
    rw [← hxn] at hz
    rw [hc, emitSample_routed { s with xt := x, nanSeq := s.nanSeq + numCount s.fs.cfg.layout } z hv hk hz, handOver, hx]
    rfl
  · exact (hn hm).elim

/-- What a complete unit does depends on neither the last answer nor the last outputs. -/
theorem completeUnit_answer (s : State) (r : Response) (o : List Output) : completeUnit (s.answer r o) = completeUnit s := by
  rcases completeUnit_eq s with ⟨hm, x, hx, hc⟩ | ⟨hm, hc⟩
  · rcases completeUnit_eq (s.answer r o) with ⟨-, y, hy, hd⟩ | ⟨hn, -⟩
    · have hxy : y.sample = x.sample := hy.trans hx.symm
      rw [hc, hd]
      simp only [emitSample, handOver, hxy]
      rfl
    · exact (hn hm).elim
  · rw [hc, completeUnit_desync (s.answer r o) hm]
    rfl

/-- A complete unit never stops the machine. -/
theorem completeUnit_next (s : State) : ∃ t, completeUnit s = .next t := by
  rcases completeUnit_cases s with ⟨-, h⟩ | ⟨-, h | ⟨z, -, -, -, h⟩⟩ <;> exact ⟨_, h⟩

/-- A byte collected within the frame buffer: stored, then counted or the unit completed. -/
theorem collectByte_eq (d : Byte) (s : State) (h : s.fs.fidx.toNat < fbSize) :
    collectByte d s =
      if s.fs.fidx.toNat + 1 < frameLen s.fs.cfg.layout then
        .next ((s.withFs
          { s.fs with fb := s.fs.fb.write s.fs.fidx.toNat d, fidx := s.fs.fidx + 1 }).accept [])
      else completeUnit (s.withFs { s.fs with fb := s.fs.fb.write s.fs.fidx.toNat d, fidx := 0 }) := by
  unfold collectByte
  rw [(memWrite1_eq_some _ _ _ _).mpr ⟨h, rfl⟩]

/-- A byte beyond the frame buffer stops the machine. -/
theorem collectByte_fault (d : Byte) (s : State) (h : ¬ s.fs.fidx.toNat < fbSize) :
    collectByte d s = .fault .frameBufferRange := by
  unfold collectByte memWrite1
  rw [if_neg (by omega)]

/-- Everything a collected byte can do when it answers a next state. -/
theorem collectByte_cases (d : Byte) (s t : State) (h : collectByte d s = .next t) :
    s.fs.fidx.toNat < fbSize ∧
      ((s.fs.fidx.toNat + 1 < frameLen s.fs.cfg.layout ∧
        t = (s.withFs { s.fs with fb := s.fs.fb.write s.fs.fidx.toNat d, fidx := s.fs.fidx + 1 }).accept []) ∨
      (frameLen s.fs.cfg.layout ≤ s.fs.fidx.toNat + 1 ∧
        completeUnit (s.withFs { s.fs with fb := s.fs.fb.write s.fs.fidx.toNat d, fidx := 0 }) = .next t)) := by
  by_cases hf : s.fs.fidx.toNat < fbSize
  · rw [collectByte_eq d s hf] at h
    refine ⟨hf, ?_⟩
    split at h
    · rename_i hlt
      cases h
      exact .inl ⟨hlt, rfl⟩
    · rename_i hge
      exact .inr ⟨by omega, h⟩
  · rw [collectByte_fault d s hf] at h
    cases h

theorem byteAccepted_iff (p : Phase) (f : FrameSync) (hp : p = .hunt ∨ p = .skip ∨ p = .frame) :
    byteAccepted p f = true ↔ f.phase = p ∧ f.demand = true := by
  unfold byteAccepted rxReady
  rcases hp with rfl | rfl | rfl <;> cases f.phase <;> simp

theorem unitAccepted_iff (l : Layout) (f : FrameSync) :
    unitAccepted l f = true ↔ f.phase = .frame ∧ f.demand = true ∧ f.cfg.layout = l ∧ f.fidx = 0 := by
  unfold unitAccepted
  rw [Bool.and_eq_true, Bool.and_eq_true, byteAccepted_iff .frame f (by simp)]
  simp [and_assoc]

theorem rxReady_iff (f : FrameSync) :
    rxReady f = true ↔ (f.phase = .hunt ∨ f.phase = .skip ∨ f.phase = .frame) ∧ f.demand = true := by
  unfold rxReady
  cases f.phase <;> simp

/-! ### The end of a turn -/

/-- The end of a turn touches only what the senders hold. -/
theorem endTurn_eq (s : State) : endTurn s = { s with io := s.io.turnOver s.resp } := rfl

/-- What a step can do: run the decoded word, reject a word that is no operation, or idle. -/
theorem step_cases (s t : State) (h : step s = .next t) :
    (presented s = none ∧ t = endTurn (s.accept [])) ∨
    (∃ p i u, presented s = some p ∧ decode (decodeMode s) p = .ok i ∧ exec i s = .next u ∧ t = endTurn u) ∨
    (∃ p r, presented s = some p ∧ decode (decodeMode s) p = .error r ∧ t = endTurn (rejectWord r s)) := by
  unfold step runPresented at h
  cases hp : presented s with
  | none =>
    rw [hp] at h
    cases h
    exact .inl ⟨rfl, rfl⟩
  | some p =>
    rw [hp] at h
    simp only at h
    cases hd : decode (decodeMode s) p with
    | ok i =>
      rw [hd] at h
      obtain ⟨u, hu, ht⟩ := (andThen_eq_next _ _ _).mp h
      cases ht
      exact .inr (.inl ⟨p, i, u, rfl, hd, hu, rfl⟩)
    | error r =>
      rw [hd] at h
      cases h
      exact .inr (.inr ⟨p, r, rfl, hd, rfl⟩)

/-- Only commands and source answers are ever presented. -/
theorem presented_cases (s : State) (p : PlacedWord) (h : presented s = some p) :
    (∃ w, p = .cmd w ∧ s.io.cmdIn.head? = some w) ∨ (∃ w, p = .src w ∧ s.io.srcIn.head? = some w) ∨
      (∃ w, p = .kcmd w ∧ s.io.kcmdIn.head? = some w) := by
  unfold presented at h
  split at h
  · cases h
  · rename_i q _ _
    cases q <;> simp only [portWord, Option.map_eq_some_iff] at h <;> obtain ⟨w, hw, rfl⟩ := h
    · exact .inl ⟨w, rfl, hw⟩
    · exact .inr (.inl ⟨w, rfl, hw⟩)
    · exact .inr (.inr ⟨w, rfl, hw⟩)

end Sys2Proof.Machine
end

