-- ==== Sys2Proof/Laws/Frames.lean ====
section
/-! SUPPORT. Frames: what the operations that handle a unit change and what they leave alone, and each operation's own meaning as
an equation of `exec`. -/

namespace Sys2Proof.Machine

/-- What handling a unit's byte, a unit, or its completion never changes, and the two things it can do to KF. -/
structure UnitFrame (s t : State) : Prop where
  io      : t.io = s.io
  cfg     : t.fs.cfg = s.fs.cfg
  w       : t.fs.w = s.fs.w
  wcnt    : t.fs.wcnt = s.fs.wcnt
  skipcnt : t.fs.skipcnt = s.fs.skipcnt
  resp    : t.resp = .accepted
  kf      : t.kf = s.kf ∨ (s.kf.ready = true ∧ chselValid s.fs.cfg.chsel = true ∧
    ∃ n z smp v r, t.kf = cycled (drawNaN n) s.kf z ∧ t.out = [.sample smp, .est v r])
  /-- an estimate beside the Sample is that of one cycle on the selected channel -/
  routed  : ∀ smp v r, t.out = [.sample smp, .est v r] → s.kf.ready = true ∧
    ∃ n z, smp.num[(chselIndex s.fs.cfg.chsel).toNat]? = some z ∧ t.kf = cycled (drawNaN n) s.kf z

/-- How a complete unit leaves FS: ended by its marker, or one Sample on. -/
def UnitEnd (fb : Memory) (s t : State) : Prop :=
  (wordAt fb.read 0 ≠ s.fs.cfg.magic ∧ t.fs.phase = .done ∧ t.fs.cause = .desync ∧ t.xt = s.xt) ∨
  (wordAt fb.read 0 = s.fs.cfg.magic ∧ t.fs.phase = s.fs.phase ∧ t.fs.cause = s.fs.cause ∧ t.xt = Extraction.start)

theorem completeUnit_frame (s t : State) (h : completeUnit s = .next t) :
    UnitFrame s t ∧ t.fs.fb = s.fs.fb ∧ t.fs.fidx = s.fs.fidx ∧ t.fs.demand = false ∧ UnitEnd s.fs.fb s t := by
  rcases completeUnit_cases s with ⟨hm, h'⟩ | ⟨hm, h' | ⟨z, hv, hk, hz, h'⟩⟩
  · rw [h] at h'
    cases h'
    exact ⟨⟨rfl, rfl, rfl, rfl, rfl, rfl, .inl rfl, fun _ _ _ c => by cases c⟩, rfl, rfl, rfl, .inl ⟨hm, rfl, rfl, rfl⟩⟩
  · rw [h] at h'
    cases h'
    exact ⟨⟨rfl, rfl, rfl, rfl, rfl, rfl, .inl rfl, fun _ _ _ c => by cases c⟩, rfl, rfl, rfl, .inr ⟨hm, rfl, rfl, rfl⟩⟩
  · rw [h] at h'
    cases h'
    refine ⟨⟨rfl, rfl, rfl, rfl, rfl, rfl, .inr ⟨hk, hv, _, z, _, _, _, rfl, rfl⟩, fun smp v r c => ?_⟩, rfl, rfl, rfl,
      .inr ⟨hm, rfl, rfl, rfl⟩⟩
    cases c
    exact ⟨hk, _, z, hz, rfl⟩

theorem collectByte_frame (d : Byte) (s t : State) (h : collectByte d s = .next t) :
    s.fs.fidx.toNat < fbSize ∧ UnitFrame s t ∧ t.fs.fb = s.fs.fb.write s.fs.fidx.toNat d ∧
      ((s.fs.fidx.toNat + 1 < frameLen s.fs.cfg.layout ∧ t.fs.phase = s.fs.phase ∧ t.fs.cause = s.fs.cause ∧
        t.fs.demand = s.fs.demand ∧ t.fs.fidx = s.fs.fidx + 1 ∧ t.xt = s.xt) ∨
      (frameLen s.fs.cfg.layout ≤ s.fs.fidx.toNat + 1 ∧ t.fs.fidx = 0 ∧ t.fs.demand = false ∧
        UnitEnd (s.fs.fb.write s.fs.fidx.toNat d) s t)) := by
  obtain ⟨hf, h⟩ := collectByte_cases d s t h
  refine ⟨hf, ?_⟩
  rcases h with ⟨hl, rfl⟩ | ⟨hl, h⟩
  · exact ⟨⟨rfl, rfl, rfl, rfl, rfl, rfl, .inl rfl, fun _ _ _ c => by cases c⟩, rfl, .inl ⟨hl, rfl, rfl, rfl, rfl, rfl⟩⟩
  · obtain ⟨⟨h1, h2, h3, h4, h5, h6, h7, h8⟩, hb, hi, hd, he⟩ := completeUnit_frame _ _ h
    exact ⟨⟨h1, h2, h3, h4, h5, h6, h7, h8⟩, hb, .inr ⟨hl, hi, hd, he⟩⟩

/-- A unit received: held, or stored and completed. -/
theorem receiveUnit_frame (l : Layout) (u : List Byte) (s t : State) (h : receiveUnit l u s = .next t) :
    (unitAccepted l s.fs = false ∧ t = s.hold) ∨
    (unitAccepted l s.fs = true ∧ UnitFrame s t ∧ t.fs.fb = storeBytes s.fs.fb 0 u ∧ t.fs.fidx = 0 ∧
      t.fs.demand = false ∧ UnitEnd (storeBytes s.fs.fb 0 u) s t) := by
  unfold receiveUnit at h
  generalize storeBytes s.fs.fb 0 u = fb at h ⊢
  split at h
  · rename_i ha
    obtain ⟨⟨h1, h2, h3, h4, h5, h6, h7, h8⟩, hb, hi, hd, he⟩ := completeUnit_frame _ _ h
    have h0 : s.fs.fidx = 0 := ((unitAccepted_iff l s.fs).mp ha).2.2.2
    exact .inr ⟨ha, ⟨h1, h2, h3, h4, h5, h6, h7, h8⟩, hb, hi.trans h0, hd, he⟩
  · rename_i ha
    cases h
    exact .inl ⟨by simpa using ha, rfl⟩

/-! ### The meanings as equations of `exec` -/

theorem exec_rxFrame (d : Byte) (s : State) :
    exec (.rxFrame d) s = if byteAccepted .frame s.fs then collectByte d s else .next s.hold := rfl

theorem exec_frameA (f0 f1 f2 f3 f4 f5 : Word) (u0 u1 : Half) (s : State) :
    exec (.frameA f0 f1 f2 f3 f4 f5 u0 u1) s = receiveUnit .a (unitA f0 f1 f2 f3 f4 f5 u0 u1) s := rfl

theorem exec_frameB (f0 f1 f2 f3 f4 f5 f6 : Word) (u0 : Half) (fault state : Byte) (s : State) :
    exec (.frameB f0 f1 f2 f3 f4 f5 f6 u0 fault state) s =
      receiveUnit .b (unitB f0 f1 f2 f3 f4 f5 f6 u0 fault state) s := rfl

theorem exec_frameC (f0 f1 f2 f3 f4 f5 : Word) (u0 : Half) (fault pad : Byte) (s : State) :
    exec (.frameC f0 f1 f2 f3 f4 f5 u0 fault pad) s = receiveUnit .c (unitC f0 f1 f2 f3 f4 f5 u0 fault pad) s := rfl

/-- Everything RX.FRAME can do. -/
theorem rxFrame_cases (d : Byte) (s t : State) (h : exec (.rxFrame d) s = .next t) :
    (¬(s.fs.phase = .frame ∧ s.fs.demand = true) ∧ t = s.hold) ∨
    ((s.fs.phase = .frame ∧ s.fs.demand = true) ∧ collectByte d s = .next t) := by
  rw [exec_rxFrame] at h
  have hiff := byteAccepted_iff .frame s.fs (by simp)
  split at h
  · rename_i ha
    exact .inr ⟨hiff.mp ha, h⟩
  · rename_i ha
    cases h
    exact .inl ⟨fun c => ha (hiff.mpr c), rfl⟩

/-- Everything hunting can do to FS: no register but the window, its count, PHASE, SKIPCNT and FIDX changes. -/
theorem FrameSync.hunted_frame (f : FrameSync) (d : Byte) :
    f.hunted d = { f with
      w := shiftWindow f.w d, wcnt := countWindow f.wcnt, phase := (f.hunted d).phase, skipcnt := (f.hunted d).skipcnt
      fidx := (f.hunted d).fidx } := by
  unfold FrameSync.hunted
  simp only
  split
  · split <;> rfl
  · rfl

/-- Everything skipping can do to FS. -/
theorem FrameSync.skipped_frame (f : FrameSync) :
    f.skipped = { f with skipcnt := f.skipcnt - 1, phase := f.skipped.phase, fidx := f.skipped.fidx } := by
  unfold FrameSync.skipped
  simp only
  split <;> rfl

/-! ### KF under every operation -/

/-- An operation left KF alone, and none of the three ways to run a cycle applied. -/
structure KfUntouched (i : Instr) (s t : State) : Prop where
  kf      : t.kf = s.kf
  kfStep  : ∀ z, i = .kfStep z → s.kf.ready = false
  chx     : ∀ c, i = .chx c → s.kf.ready = false ∨ routedValue c s.out = none
  collect : collectsUnit i = true → ∀ smp v r, t.out ≠ [.sample smp, .est v r]

/-- An operation ran one cycle, on the measurement of KF.STEP, on the value CHX routes, or on the selected channel of the Sample
it emitted. -/
def KfCycled (i : Instr) (s t : State) (z : F64) : Prop :=
  s.kf.ready = true ∧ (∃ n, t.kf = cycled (drawNaN n) s.kf z) ∧
    (i = .kfStep z ∨ (∃ c, i = .chx c ∧ routedValue c s.out = some z) ∨
      (collectsUnit i = true ∧ ∃ smp v r, t.out = [.sample smp, .est v r] ∧
        smp.num[(chselIndex s.fs.cfg.chsel).toNat]? = some z))

/-- The reception of a unit's byte or of a unit that leaves KF alone. -/
theorem KfUntouched.of_collect {i : Instr} {s t : State} (hi : collectsUnit i = true) (hk : t.kf = s.kf)
    (h : ∀ smp v r, t.out ≠ [.sample smp, .est v r]) : KfUntouched i s t where
  kf := hk
  kfStep z e := by subst e; cases hi
  chx c e := by subst e; cases hi
  collect _ := h

theorem UnitFrame.kf_cases {i : Instr} {s t : State} (f : UnitFrame s t) (hi : collectsUnit i = true) :
    KfUntouched i s t ∨ ∃ z, KfCycled i s t z := by
  by_cases h : ∃ smp v r, t.out = [.sample smp, .est v r]
  · obtain ⟨smp, v, r, ho⟩ := h
    obtain ⟨hk, n, z, hz, hc⟩ := f.routed smp v r ho
    exact .inr ⟨z, hk, ⟨n, hc⟩, .inr (.inr ⟨hi, smp, v, r, ho, hz⟩)⟩
  · refine .inl (.of_collect hi ?_ fun smp v r ho => h ⟨smp, v, r, ho⟩)
    rcases f.kf with hk | ⟨-, -, n, z, smp, v, r, -, ho⟩
    · exact hk
    · exact (h ⟨smp, v, r, ho⟩).elim

theorem receiveUnit_kf {i : Instr} (hi : collectsUnit i = true) (l : Layout) (u : List Byte) (s t : State)
    (h : receiveUnit l u s = .next t) : KfUntouched i s t ∨ ∃ z, KfCycled i s t z := by
  rcases receiveUnit_frame l u s t h with ⟨-, rfl⟩ | ⟨-, f, -⟩
  · exact .inl (.of_collect hi rfl fun smp v r ho => by cases ho)
  · exact f.kf_cases hi

/-- An operation that cannot run a cycle and leaves KF alone. -/
theorem KfUntouched.of_eq {i : Instr} {s t : State} (hk : t.kf = s.kf) (hi : collectsUnit i = false)
    (h1 : ∀ z, i ≠ .kfStep z) (h2 : ∀ c, i ≠ .chx c) : KfUntouched i s t :=
  ⟨hk, fun z e => (h1 z e).elim, fun c e => (h2 c e).elim, fun e => by rw [hi] at e; cases e⟩

/-- Everything an operation other than KF.INIT can do to KF. -/
theorem exec_kf_cases (i : Instr) (s t : State) (hi : ∀ dt q r p0, i ≠ .kfInit dt q r p0) (h : exec i s = .next t) :
    KfUntouched i s t ∨ ∃ z, KfCycled i s t z := by
  cases i with
  | nop =>
    cases h
    exact .inl (.of_eq rfl rfl (by simp) (by simp))
  | next =>
    left
    refine .of_eq ?_ rfl (by simp) (by simp)
    simp only [exec, execNext] at h
    split at h <;> cases h <;> rfl
  | start cfg =>
    left
    refine .of_eq ?_ rfl (by simp) (by simp)
    simp only [exec, execStart] at h
    split at h
    · cases h
      rfl
    · split at h <;> cases h <;> rfl
  | rxHunt d =>
    left
    refine .of_eq ?_ rfl (by simp) (by simp)
    simp only [exec, execRxHunt] at h
    split at h <;> cases h <;> rfl
  | rxSkip d =>
    left
    refine .of_eq ?_ rfl (by simp) (by simp)
    simp only [exec, execRxSkip] at h
    split at h <;> cases h <;> rfl
  | rxFrame d =>
    rcases rxFrame_cases d s t h with ⟨-, rfl⟩ | ⟨-, hc⟩
    · exact .inl (.of_collect rfl rfl fun smp v r ho => by cases ho)
    · exact (collectByte_frame d s t hc).2.1.kf_cases rfl
  | eos x =>
    left
    refine .of_eq ?_ rfl (by simp) (by simp)
    simp only [exec, execEos] at h
    split at h <;> cases h <;> rfl
  | pad8 => exact .inl (.of_eq (execField_kf .pad8 s t h) rfl (by simp) (by simp))
  | u8eFault => exact .inl (.of_eq (execField_kf .u8eFault s t h) rfl (by simp) (by simp))
  | u8eState => exact .inl (.of_eq (execField_kf .u8eState s t h) rfl (by simp) (by simp))
  | u16 => exact .inl (.of_eq (execField_kf .u16 s t h) rfl (by simp) (by simp))
  | f32 => exact .inl (.of_eq (execField_kf .f32 s t h) rfl (by simp) (by simp))
  | kfInit dt q r p0 => exact (hi dt q r p0 rfl).elim
  | kfStep z =>
    cases hk : s.kf.ready with
    | true =>
      simp only [exec, execKfStep, hk, if_true] at h
      cases h
      exact .inr ⟨z, hk, ⟨_, rfl⟩, .inl rfl⟩
    | false =>
      simp only [exec, execKfStep, hk] at h
      cases h
      exact .inl ⟨rfl, fun _ _ => hk, by simp, fun c => by cases c⟩
  | chx c =>
    cases hr : routedValue c s.out with
    | none =>
      simp only [exec, execChx, hr] at h
      cases h
      exact .inl ⟨rfl, by simp, fun d e => by cases e; exact .inr hr, fun c => by cases c⟩
    | some z =>
      cases hk : s.kf.ready with
      | true =>
        simp only [exec, execChx, hr, hk, if_true] at h
        cases h
        exact .inr ⟨z, hk, ⟨_, rfl⟩, .inr (.inl ⟨c, rfl, hr⟩)⟩
      | false =>
        simp only [exec, execChx, hr, hk] at h
        cases h
        exact .inl ⟨rfl, by simp, fun _ _ => .inl hk, fun c => by cases c⟩
  | frameA f0 f1 f2 f3 f4 f5 u0 u1 =>
    rw [exec_frameA] at h
    exact receiveUnit_kf rfl _ _ s t h
  | frameB f0 f1 f2 f3 f4 f5 f6 u0 fault state =>
    rw [exec_frameB] at h
    exact receiveUnit_kf rfl _ _ s t h
  | frameC f0 f1 f2 f3 f4 f5 u0 fault pad =>
    rw [exec_frameC] at h
    exact receiveUnit_kf rfl _ _ s t h

end Sys2Proof.Machine
end

