-- ==== Sys2Proof/Laws/PerInstr.lean ====
section
/-! SUPPORT. One family for all operations: the encoder puts every operation at the place that spec/opcode_table.json gives its
row, and its word meets the row's width, mask and match. -/

namespace Sys2Proof.Laws.TableRow

/-- A row of spec/opcode_table.json. -/
structure Row where
  width : Nat
  mask  : Nat
  bits  : Nat
deriving DecidableEq, Repr

/-- The rows, constructor by constructor. -/
def rowOf : Instr → Row
  | .nop => { width := 2, mask := 0x3, bits := 0x0 }
  | .next => { width := 2, mask := 0x3, bits := 0x1 }
  | .start _ => { width := 2, mask := 0x3, bits := 0x2 }
  | .rxHunt _ => { width := 9, mask := 0x100, bits := 0x0 }
  | .rxSkip _ => { width := 9, mask := 0x100, bits := 0x0 }
  | .rxFrame _ => { width := 9, mask := 0x100, bits := 0x0 }
  | .eos _ => { width := 9, mask := 0x100, bits := 0x100 }
  | .pad8 => { width := 8, mask := 0xFF, bits := 0x0 }
  | .u8eFault => { width := 8, mask := 0xFF, bits := 0x1 }
  | .u8eState => { width := 8, mask := 0xFF, bits := 0x2 }
  | .u16 => { width := 8, mask := 0xFF, bits := 0x3 }
  | .f32 => { width := 8, mask := 0xFF, bits := 0x4 }
  | .kfInit _ _ _ _ => { width := 2, mask := 0x3, bits := 0x2 }
  | .kfStep _ => { width := 2, mask := 0x3, bits := 0x1 }
  | .chx _ => { width := 5, mask := 0x10, bits := 0x10 }
  | .frameA _ _ _ _ _ _ _ _ => { width := 256, mask := 0xFFFFFFFF, bits := 0x74656C65 }
  | .frameB _ _ _ _ _ _ _ _ _ _ => { width := 288, mask := 0xFFFFFFFF, bits := 0x74656C65 }
  | .frameC _ _ _ _ _ _ _ _ _ => { width := 256, mask := 0xFFFFFFFF, bits := 0x74656C65 }

/-- A unit read as a little-endian integer: byte k is bits 8k+7 to 8k. -/
def natOfBytes : List Byte → Nat
  | [] => 0
  | b :: bs => b.toNat + 256 * natOfBytes bs

/-- The bits of a word at its place. -/
def number : PlacedWord → Nat
  | .cmd w => w.code.toNat
  | .src w => w.toNat
  | .kcmd w => w.code.toNat
  | .desc d => d.toNat
  | .chsel c => c.toNat
  | .unit u => natOfBytes u

/-- The word of an operation meets its row. -/
def Statement (i : Instr) : Prop :=
  number (encode i) < 2 ^ (rowOf i).width ∧ number (encode i) &&& (rowOf i).mask = (rowOf i).bits

theorem natOfBytes_lt (u : List Byte) : natOfBytes u < 2 ^ (8 * u.length) := by
  induction u with
  | nil => simp [natOfBytes]
  | cons b bs ih =>
    have hb := b.isLt
    have e : 2 ^ (8 * (b :: bs).length) = 256 * 2 ^ (8 * bs.length) := by
      rw [List.length_cons, Nat.mul_add, Nat.pow_add, Nat.mul_comm]
    rw [natOfBytes, e]
    omega

/-- A list of bytes that begins with the marker meets the mask of the wire frames. -/
theorem natOfBytes_marker (u : List Byte) : natOfBytes (markerBytes ++ u) &&& 0xFFFFFFFF = 0x74656C65 := by
  have h : natOfBytes (markerBytes ++ u) = 0x74656C65 + 2 ^ 32 * natOfBytes u := by
    have e : markerBytes = [0x65, 0x6C, 0x65, 0x74] := by decide
    simp [e, natOfBytes]
    omega
  rw [h, show (0xFFFFFFFF : Nat) = 2 ^ 32 - 1 by decide, Nat.and_two_pow_sub_one_eq_mod]
  omega

theorem byte_word : ∀ d : Byte, (srcByte d).toNat < 2 ^ 9 ∧ (srcByte d).toNat &&& 0x100 = 0 := by decide

theorem closed_word : ∀ x : Byte, (srcClosed x).toNat < 2 ^ 9 ∧ (srcClosed x).toNat &&& 0x100 = 0x100 := by decide

theorem nop : Statement .nop := ⟨by decide, by decide⟩
theorem next : Statement .next := ⟨by decide, by decide⟩
theorem start (cfg : ConfigInputs) : Statement (.start cfg) := by simp [Statement, encode, number, rowOf]
theorem rxHunt (d : Byte) : Statement (.rxHunt d) := byte_word d
theorem rxSkip (d : Byte) : Statement (.rxSkip d) := byte_word d
theorem rxFrame (d : Byte) : Statement (.rxFrame d) := byte_word d
theorem eos (x : Byte) : Statement (.eos x) := closed_word x
theorem pad8 : Statement .pad8 := ⟨by decide, by decide⟩
theorem u8eFault : Statement .u8eFault := ⟨by decide, by decide⟩
theorem u8eState : Statement .u8eState := ⟨by decide, by decide⟩
theorem u16 : Statement .u16 := ⟨by decide, by decide⟩
theorem f32 : Statement .f32 := ⟨by decide, by decide⟩
theorem kfInit (dt q r p0 : F64) : Statement (.kfInit dt q r p0) := by simp [Statement, encode, number, rowOf]
theorem kfStep (z : F64) : Statement (.kfStep z) := by simp [Statement, encode, number, rowOf]
theorem chx (i : BitVec 4) : Statement (.chx i) := ⟨by revert i; decide, by revert i; decide⟩

theorem frameA (f0 f1 f2 f3 f4 f5 : Word) (u0 u1 : Half) : Statement (.frameA f0 f1 f2 f3 f4 f5 u0 u1) := by
  refine ⟨natOfBytes_lt (unitA f0 f1 f2 f3 f4 f5 u0 u1), ?_⟩
  simp only [encode, number, rowOf, unitA, List.append_assoc]
  exact natOfBytes_marker _

theorem frameB (f0 f1 f2 f3 f4 f5 f6 : Word) (u0 : Half) (fault state : Byte) :
    Statement (.frameB f0 f1 f2 f3 f4 f5 f6 u0 fault state) := by
  refine ⟨natOfBytes_lt (unitB f0 f1 f2 f3 f4 f5 f6 u0 fault state), ?_⟩
  simp only [encode, number, rowOf, unitB, List.append_assoc]
  exact natOfBytes_marker _

theorem frameC (f0 f1 f2 f3 f4 f5 : Word) (u0 : Half) (fault pad : Byte) :
    Statement (.frameC f0 f1 f2 f3 f4 f5 u0 fault pad) := by
  refine ⟨natOfBytes_lt (unitC f0 f1 f2 f3 f4 f5 u0 fault pad), ?_⟩
  simp only [encode, number, rowOf, unitC, List.append_assoc]
  exact natOfBytes_marker _

end Sys2Proof.Laws.TableRow
end

