-- ==== Sys2Proof/Laws/Rounding.lean ====
section
/-! SUPPORT. Rounding: the nearest integer with ties to even, the last place of a quotient, and the value in units that a rounded
magnitude stands for. -/

namespace Sys2Proof.Machine

/-! ### The nearest integer -/

/-- Within half a unit of the quotient. -/
theorem roundNearestEven_half (n d : Nat) (hd : 0 < d) :
    2 * n ≤ 2 * (roundNearestEven n d * d) + d ∧ 2 * (roundNearestEven n d * d) ≤ 2 * n + d := by
  have hq : d * (n / d) + n % d = n := Nat.div_add_mod n d
  have hr : n % d < d := Nat.mod_lt n hd
  have hc : n / d * d = d * (n / d) := Nat.mul_comm _ _
  have hs : (n / d + 1) * d = d * (n / d) + d := by rw [Nat.add_mul, hc, Nat.one_mul]
  unfold roundNearestEven
  split
  · omega
  · split
    · omega
    · rcases Nat.mod_two_eq_zero_or_one (n / d) with h | h
      · rw [h, Nat.add_zero]
        omega
      · rw [h]
        omega

/-- At a tie the result is even. -/
theorem roundNearestEven_tie (n d : Nat) (h : 2 * (n % d) = d) : roundNearestEven n d % 2 = 0 := by
  unfold roundNearestEven
  rw [if_neg (by omega), if_neg (by omega)]
  omega

/-- Exact quotients are not rounded. -/
theorem roundNearestEven_exact (k d : Nat) (hd : 0 < d) : roundNearestEven (k * d) d = k := by
  unfold roundNearestEven
  rw [Nat.mul_mod_left, Nat.mul_div_cancel _ hd, if_pos (by omega)]

/-- No integer is nearer. -/
theorem roundNearestEven_nearest (n d k : Nat) (hd : 0 < d) :
    |(roundNearestEven n d * d : Int) - n| ≤ |(k * d : Int) - n| := by
  obtain ⟨h1, h2⟩ := roundNearestEven_half n d hd
  have g1 : 2 * (n : Int) ≤ 2 * (roundNearestEven n d * d) + d := by exact_mod_cast h1
  have g2 : 2 * ((roundNearestEven n d : Int) * d) ≤ 2 * n + d := by exact_mod_cast h2
  rcases Nat.lt_trichotomy k (roundNearestEven n d) with h | h | h
  · have : ((k + 1 : Nat) : Int) * d ≤ roundNearestEven n d * d := by exact_mod_cast Nat.mul_le_mul_right d h
    push_cast at this
    rw [abs_le]
    constructor
    · have := le_abs_self ((k * d : Int) - n)
      have := neg_abs_le ((k * d : Int) - n)
      linarith
    · have := neg_abs_le ((k * d : Int) - n)
      linarith
  · rw [h]
  · have : ((roundNearestEven n d + 1 : Nat) : Int) * d ≤ k * d := by exact_mod_cast Nat.mul_le_mul_right d h
    push_cast at this
    rw [abs_le]
    constructor
    · have := le_abs_self ((k * d : Int) - n)
      linarith
    · have := le_abs_self ((k * d : Int) - n)
      linarith

/-- Another integer as near as the result: a tie, so the result is even. -/
theorem roundNearestEven_even (n d k : Nat) (hd : 0 < d) (hk : k ≠ roundNearestEven n d)
    (h : |(roundNearestEven n d * d : Int) - n| = |(k * d : Int) - n|) : roundNearestEven n d % 2 = 0 := by
  apply roundNearestEven_tie
  have hq : d * (n / d) + n % d = n := Nat.div_add_mod n d
  have hr : n % d < d := Nat.mod_lt n hd
  have hq' : (d : Int) * (n / d : Nat) + (n % d : Nat) = n := by exact_mod_cast hq
  by_contra ht
  -- no tie: the result is n / d or n / d + 1, whichever is strictly nearer
  have key : 2 * |(roundNearestEven n d * d : Int) - n| < d := by
    unfold roundNearestEven
    split
    · rename_i hlt
      have e : ((n / d : Nat) * d : Int) - n = -((n % d : Nat) : Int) := by rw [← hq']; ring
      rw [e, abs_neg, abs_of_nonneg (by positivity)]
      exact_mod_cast hlt
    · rename_i hlt
      rw [if_pos (by omega)]
      have e : ((n / d + 1 : Nat) * d : Int) - n = (d : Int) - (n % d : Nat) := by rw [← hq']; push_cast; ring
      rw [e, abs_of_nonneg (by have : ((n % d : Nat) : Int) < d := by exact_mod_cast hr
                               linarith)]
      have : (d : Int) < 2 * (n % d : Nat) := by
        have : d < 2 * (n % d) := by omega
        exact_mod_cast this
      linarith
  have hab : |((roundNearestEven n d : Int) - k) * d| ≤ |(roundNearestEven n d * d : Int) - n| + |(k * d : Int) - n| := by
    have e : ((roundNearestEven n d : Int) - k) * d = ((roundNearestEven n d * d : Int) - n) - ((k * d : Int) - n) := by ring
    rw [e]
    exact abs_sub _ _
  have h1 : 1 ≤ |(roundNearestEven n d : Int) - k| := Int.one_le_abs (by intro c; apply hk; omega)
  rw [abs_mul, abs_of_nonneg (by positivity : (0 : Int) ≤ d)] at hab
  have h2 : (d : Int) ≤ |(roundNearestEven n d : Int) - k| * d := by
    have : (0 : Int) < d := by exact_mod_cast hd
    nlinarith
  linarith

/-! ### The last place and the value in units -/

/-- The bounds of a magnitude's significand. -/
theorem lastPlace_bounds (q : Nat) :
    q < 2 ^ (53 + lastPlace q) ∧ (lastPlace q ≠ 0 → 2 ^ (52 + lastPlace q) ≤ q) := by
  unfold lastPlace
  by_cases h : q < 2 ^ 53
  · rw [if_pos h]
    exact ⟨h, fun c => (c rfl).elim⟩
  · rw [if_neg h]
    have h0 : q ≠ 0 := by rintro rfl; exact h (by norm_num)
    have hl : 53 ≤ q.log2 := (Nat.le_log2 h0).mpr (by omega)
    have h1 : q < 2 ^ (q.log2 + 1) := Nat.lt_log2_self
    have h2 : 2 ^ q.log2 ≤ q := Nat.log2_self_le h0
    refine ⟨?_, fun _ => ?_⟩
    · rw [show 53 + (q.log2 - 52) = q.log2 + 1 by omega]
      exact h1
    · rw [show 52 + (q.log2 - 52) = q.log2 by omega]
      exact h2

/-- The units of a magnitude put together from a last place and a significand. -/
theorem unitsOf_place (e r : Nat) (hr : r ≤ 2 ^ 53) (he : e ≠ 0 → 2 ^ 52 ≤ r) : unitsOf (e * 2 ^ 52 + r) = r * 2 ^ e := by
  unfold unitsOf
  by_cases h0 : e = 0
  · subst h0
    rw [Nat.zero_mul, Nat.zero_add, pow_zero, Nat.mul_one]
    by_cases h1 : r < 2 ^ 52
    · rw [if_pos (Nat.div_eq_of_lt h1), Nat.mod_eq_of_lt h1]
    · by_cases h2 : r < 2 ^ 53
      · have hd : r / 2 ^ 52 = 1 := by omega
        rw [if_neg (by omega), hd]
        norm_num
        omega
      · have hd : r = 2 ^ 53 := by omega
        subst hd
        norm_num
  · have hb := he h0
    by_cases h2 : r < 2 ^ 53
    · have hd : (e * 2 ^ 52 + r) / 2 ^ 52 = e + 1 := by omega
      have hm : (e * 2 ^ 52 + r) % 2 ^ 52 = r - 2 ^ 52 := by omega
      rw [hd, hm, if_neg (by omega), show 2 ^ 52 + (r - 2 ^ 52) = r by omega, Nat.add_sub_cancel]
    · have hr2 : r = 2 ^ 53 := by omega
      have hd : (e * 2 ^ 52 + r) / 2 ^ 52 = e + 2 := by omega
      have hm : (e * 2 ^ 52 + r) % 2 ^ 52 = 0 := by omega
      rw [hd, hm, if_neg (by omega), hr2, show e + 2 - 1 = e + 1 by omega, pow_succ]
      ring

/-- The significand of a rounded quotient. -/
theorem significand_bounds (n d : Nat) (hd : 0 < d) :
    roundNearestEven n (d * 2 ^ lastPlace (n / d)) ≤ 2 ^ 53 ∧
      (lastPlace (n / d) ≠ 0 → 2 ^ 52 ≤ roundNearestEven n (d * 2 ^ lastPlace (n / d))) := by
  obtain ⟨b1, b2⟩ := lastPlace_bounds (n / d)
  generalize lastPlace (n / d) = e at b1 b2
  have hp : 0 < 2 ^ e := Nat.two_pow_pos e
  have hD : 0 < d * 2 ^ e := Nat.mul_pos hd hp
  obtain ⟨g1, g2⟩ := roundNearestEven_half n (d * 2 ^ e) hD
  generalize roundNearestEven n (d * 2 ^ e) = r at g1 g2
  constructor
  · have hn : n < 2 ^ 53 * (d * 2 ^ e) := by
      have : n < 2 ^ (53 + e) * d := (Nat.div_lt_iff_lt_mul hd).mp b1
      rw [pow_add] at this
      calc n < 2 ^ 53 * 2 ^ e * d := this
        _ = 2 ^ 53 * (d * 2 ^ e) := by ring
    by_contra hc
    have : (2 ^ 53 + 1) * (d * 2 ^ e) ≤ r * (d * 2 ^ e) := Nat.mul_le_mul_right _ (by omega)
    rw [Nat.add_mul] at this
    omega
  · intro he
    have hn : 2 ^ 52 * (d * 2 ^ e) ≤ n := by
      have := (Nat.le_div_iff_mul_le hd).mp (b2 he)
      rw [pow_add] at this
      calc 2 ^ 52 * (d * 2 ^ e) = 2 ^ 52 * 2 ^ e * d := by ring
        _ ≤ n := this
    by_contra hc
    have : (r + 1) * (d * 2 ^ e) ≤ 2 ^ 52 * (d * 2 ^ e) := Nat.mul_le_mul_right _ (by omega)
    rw [Nat.add_mul] at this
    omega

/-- What a rounded quotient is, below infinity. -/
theorem roundUnits_eq (n d : Nat) (h : roundUnits n d < infMag) :
    roundUnits n d = lastPlace (n / d) * 2 ^ 52 + roundNearestEven n (d * 2 ^ lastPlace (n / d)) := by
  unfold roundUnits at h ⊢
  omega

/-- The units of a rounded quotient, below infinity. -/
theorem unitsOf_roundUnits (n d : Nat) (hd : 0 < d) (h : roundUnits n d < infMag) :
    unitsOf (roundUnits n d) = roundNearestEven n (d * 2 ^ lastPlace (n / d)) * 2 ^ lastPlace (n / d) := by
  rw [roundUnits_eq n d h]
  obtain ⟨h1, h2⟩ := significand_bounds n d hd
  exact unitsOf_place _ _ h1 h2

theorem roundUnits_le (n d : Nat) : roundUnits n d ≤ infMag := by
  unfold roundUnits
  omega

@[simp] theorem unitsOf_zero : unitsOf 0 = 0 := by decide

/-- Only the zero magnitude has no units. -/
theorem unitsOf_eq_zero (m : Nat) : unitsOf m = 0 ↔ m = 0 := by
  unfold unitsOf
  split
  · omega
  · have : 0 < (2 ^ 52 + m % 2 ^ 52) * 2 ^ (m / 2 ^ 52 - 1) := Nat.mul_pos (by omega) (Nat.two_pow_pos _)
    omega

theorem roundUnits_zero (d : Nat) (hd : 0 < d) : roundUnits 0 d = 0 := by
  unfold roundUnits lastPlace roundNearestEven
  simp [hd]

/-- A multiple of the last place, or below the binade: every magnitude against a last place. -/
theorem unitsOf_multiple (m e : Nat) : unitsOf m < 2 ^ (52 + e) ∨ 2 ^ e ∣ unitsOf m := by
  unfold unitsOf
  split
  · rename_i h
    left
    calc m % 2 ^ 52 < 2 ^ 52 := Nat.mod_lt _ (by decide)
      _ ≤ 2 ^ (52 + e) := Nat.pow_le_pow_right (by decide) (by omega)
  · by_cases h : e ≤ m / 2 ^ 52 - 1
    · right
      exact Dvd.dvd.mul_left (Nat.pow_dvd_pow 2 h) _
    · left
      have h1 : 2 ^ 52 + m % 2 ^ 52 < 2 ^ 53 := by omega
      calc (2 ^ 52 + m % 2 ^ 52) * 2 ^ (m / 2 ^ 52 - 1) < 2 ^ 53 * 2 ^ (m / 2 ^ 52 - 1) :=
            Nat.mul_lt_mul_of_pos_right h1 (Nat.two_pow_pos _)
        _ = 2 ^ (53 + (m / 2 ^ 52 - 1)) := (pow_add _ _ _).symm
        _ ≤ 2 ^ (52 + e) := Nat.pow_le_pow_right (by decide) (by omega)

/-- A greater magnitude has more units. -/
theorem unitsOf_mono_lt (a b : Nat) (h : a < b) : unitsOf a < unitsOf b := by
  have key : ∀ m, unitsOf m < unitsOf (m + 1) := by
    intro m
    by_cases h52 : m < 2 ^ 52
    · have e1 := unitsOf_place 0 m (by omega) (fun c => (c rfl).elim)
      have e2 := unitsOf_place 0 (m + 1) (by omega) (fun c => (c rfl).elim)
      simp at e1 e2; omega
    · have hm : m = (m / 2 ^ 52 - 1) * 2 ^ 52 + (2 ^ 52 + m % 2 ^ 52) := by omega
      have e1 := unitsOf_place (m / 2 ^ 52 - 1) (2 ^ 52 + m % 2 ^ 52) (by omega) (fun _ => by omega)
      have e2 := unitsOf_place (m / 2 ^ 52 - 1) (2 ^ 52 + m % 2 ^ 52 + 1) (by omega) (fun _ => by omega)
      rw [← Nat.add_assoc, ← hm] at e2
      rw [← hm] at e1
      rw [e1, e2]
      exact Nat.mul_lt_mul_of_pos_right (by omega) (Nat.two_pow_pos _)
  induction b with
  | zero => omega
  | succ b ih =>
    by_cases hab : a = b
    · rw [hab]; exact key b
    · exact lt_trans (ih (by omega)) (key b)

/-! ### Overflow -/

/-- A quotient rounds to infinity exactly from 2^1024 - 2^970 on (42_estimator.md R201 (d)). -/
theorem roundUnits_infinite (n d : Nat) (hd : 0 < d) : roundUnits n d = infMag ↔ (2 ^ 54 - 1) * 2 ^ 2044 * d ≤ n := by
  obtain ⟨s1, s2⟩ := significand_bounds n d hd
  obtain ⟨b1, b2⟩ := lastPlace_bounds (n / d)
  have hi : infMag = 2047 * 2 ^ 52 := rfl
  unfold roundUnits
  generalize lastPlace (n / d) = e at *
  rw [Nat.div_lt_iff_lt_mul hd] at b1
  rw [Nat.le_div_iff_mul_le hd] at b2
  rcases Nat.lt_trichotomy e 2045 with h | h | h
  · have h1 : 2 ^ (53 + e) * d ≤ 2 ^ (53 + 2044) * d := Nat.mul_le_mul_right d (Nat.pow_le_pow_right (by decide) (by omega))
    have h2 : 2 ^ (53 + 2044) * d ≤ (2 ^ 54 - 1) * 2 ^ 2044 * d := by
      rw [pow_add]
      exact Nat.mul_le_mul_right d (Nat.mul_le_mul_right _ (by decide))
    constructor
    · intro c
      have : e * 2 ^ 52 + roundNearestEven n (d * 2 ^ e) < infMag := by omega
      omega
    · intro c
      omega
  · subst h
    have hD : d * 2 ^ 2045 = 2 * (d * 2 ^ 2044) := by rw [pow_succ 2 2044]; ring
    have hD0 : 0 < d * 2 ^ 2045 := Nat.mul_pos hd (Nat.two_pow_pos _)
    have hT : (2 ^ 54 - 1) * 2 ^ 2044 * d = (2 ^ 54 - 1) * (d * 2 ^ 2044) := by ring
    obtain ⟨g1, g2⟩ := roundNearestEven_half n (d * 2 ^ 2045) hD0
    have tie := roundNearestEven_tie n (d * 2 ^ 2045)
    rw [hT]
    generalize hr : roundNearestEven n (d * 2 ^ 2045) = r at *
    rw [hD] at *
    generalize d * 2 ^ 2044 = P at *
    have hP : 0 < P := by omega
    clear b1 b2 hT hD hr
    constructor
    · intro c
      have hr : 2 ^ 53 ≤ r := by omega
      have : 2 ^ 53 * (2 * P) ≤ r * (2 * P) := Nat.mul_le_mul_right _ hr
      omega
    · intro c
      have hr : 2 ^ 53 ≤ r := by
        by_contra hc
        rcases Nat.lt_or_ge r (2 ^ 53 - 1) with l | l
        · have : r * (2 * P) ≤ (2 ^ 53 - 2) * (2 * P) := Nat.mul_le_mul_right _ (by omega)
          omega
        · have : r = 2 ^ 53 - 1 := by omega
          subst this
          have hn : n = P + (2 * P) * (2 ^ 53 - 1) := by omega
          have := tie (by rw [hn, Nat.add_mul_mod_self_left, Nat.mod_eq_of_lt (by omega)])
          omega
      omega
  · have h1 : 2 ^ (52 + 2046) * d ≤ n := le_trans (Nat.mul_le_mul_right d (Nat.pow_le_pow_right (by decide) (by omega))) (b2 (by omega))
    have h2 : (2 ^ 54 - 1) * 2 ^ 2044 * d ≤ 2 ^ (52 + 2046) * d := by
      rw [show 52 + 2046 = 54 + 2044 by norm_num, pow_add]
      exact Nat.mul_le_mul_right d (Nat.mul_le_mul_right _ (by decide))
    have := s2 (by omega)
    constructor
    · intro _; omega
    · intro _
      have : 2046 * 2 ^ 52 ≤ e * 2 ^ 52 := Nat.mul_le_mul_right _ (by omega)
      omega

end Sys2Proof.Machine
end

