-- ==== Sys2Proof/Laws/Units.lean ====
section
/-! SUPPORT. Units and their fields: the fields read back from the bytes of a wire frame, the bytes put together again from the
fields, the marker at the head of a stored unit; and the arithmetic of the hunting window. -/

namespace Sys2Proof.Machine

/-! ### Bytes of words -/

theorem bytes32_le32 (b0 b1 b2 b3 : Byte) : bytes32 (le32 b0 b1 b2 b3) = [b0, b1, b2, b3] := by
  have h0 := b0.isLt
  have h1 := b1.isLt
  have h2 := b2.isLt
  have h3 := b3.isLt
  have e0 : (le32 b0 b1 b2 b3).extractLsb' 0 8 = b0 := by
    apply BitVec.eq_of_toNat_eq
    simp only [BitVec.extractLsb'_toNat, le32_toNat, Nat.shiftRight_eq_div_pow]
    omega
  have e1 : (le32 b0 b1 b2 b3).extractLsb' 8 8 = b1 := by
    apply BitVec.eq_of_toNat_eq
    simp only [BitVec.extractLsb'_toNat, le32_toNat, Nat.shiftRight_eq_div_pow]
    omega
  have e2 : (le32 b0 b1 b2 b3).extractLsb' 16 8 = b2 := by
    apply BitVec.eq_of_toNat_eq
    simp only [BitVec.extractLsb'_toNat, le32_toNat, Nat.shiftRight_eq_div_pow]
    omega
  have e3 : (le32 b0 b1 b2 b3).extractLsb' 24 8 = b3 := by
    apply BitVec.eq_of_toNat_eq
    simp only [BitVec.extractLsb'_toNat, le32_toNat, Nat.shiftRight_eq_div_pow]
    omega
  rw [bytes32, e0, e1, e2, e3]

theorem bytes16_le16 (b0 b1 : Byte) : bytes16 (le16 b0 b1) = [b0, b1] := by
  have h0 := b0.isLt
  have h1 := b1.isLt
  have e0 : (le16 b0 b1).extractLsb' 0 8 = b0 := by
    apply BitVec.eq_of_toNat_eq
    simp only [BitVec.extractLsb'_toNat, le16_toNat, Nat.shiftRight_eq_div_pow]
    omega
  have e1 : (le16 b0 b1).extractLsb' 8 8 = b1 := by
    apply BitVec.eq_of_toNat_eq
    simp only [BitVec.extractLsb'_toNat, le16_toNat, Nat.shiftRight_eq_div_pow]
    omega
  rw [bytes16, e0, e1]

/-! ### Fields of a unit -/

theorem unitA_length (f0 f1 f2 f3 f4 f5 : Word) (u0 u1 : Half) : (unitA f0 f1 f2 f3 f4 f5 u0 u1).length = 32 := rfl

theorem unitB_length (f0 f1 f2 f3 f4 f5 f6 : Word) (u0 : Half) (fault state : Byte) :
    (unitB f0 f1 f2 f3 f4 f5 f6 u0 fault state).length = 36 := rfl

theorem unitC_length (f0 f1 f2 f3 f4 f5 : Word) (u0 : Half) (fault pad : Byte) :
    (unitC f0 f1 f2 f3 f4 f5 u0 fault pad).length = 32 := rfl

/-- A word whose four bytes stand at an offset. -/
theorem unitWord_of_bytes (u : List Byte) (o : Nat) (w : Word) (h : (u.drop o).take 4 = bytes32 w) : unitWord u o = w := by
  have g : ∀ n, n < 4 → unitByte u (o + n) = (bytes32 w).getD n 0 := by
    intro n hn
    rw [← h, unitByte, List.getD_eq_getElem?_getD, List.getD_eq_getElem?_getD, List.getElem?_take_of_lt hn,
      List.getElem?_drop]
  have g0 := g 0 (by omega)
  rw [Nat.add_zero] at g0
  rw [unitWord, g0, g 1 (by omega), g 2 (by omega), g 3 (by omega)]
  exact le32_bytes w

/-- A half word whose two bytes stand at an offset. -/
theorem unitHalf_of_bytes (u : List Byte) (o : Nat) (v : Half) (h : (u.drop o).take 2 = bytes16 v) : unitHalf u o = v := by
  have g : ∀ n, n < 2 → unitByte u (o + n) = (bytes16 v).getD n 0 := by
    intro n hn
    rw [← h, unitByte, List.getD_eq_getElem?_getD, List.getD_eq_getElem?_getD, List.getElem?_take_of_lt hn,
      List.getElem?_drop]
  have g0 := g 0 (by omega)
  rw [Nat.add_zero] at g0
  rw [unitHalf, g0, g 1 (by omega)]
  exact le16_bytes v

/-- The fields of the bytes of a wire frame of layout A. -/
theorem frameOfUnit_unitA (f0 f1 f2 f3 f4 f5 : Word) (u0 u1 : Half) :
    frameOfUnit .a (unitA f0 f1 f2 f3 f4 f5 u0 u1) = .frameA f0 f1 f2 f3 f4 f5 u0 u1 := by
  unfold frameOfUnit
  simp only
  rw [unitWord_of_bytes _ 4 f0 rfl, unitWord_of_bytes _ 8 f1 rfl, unitWord_of_bytes _ 12 f2 rfl, unitWord_of_bytes _ 16 f3 rfl,
    unitWord_of_bytes _ 20 f4 rfl, unitWord_of_bytes _ 24 f5 rfl, unitHalf_of_bytes _ 28 u0 rfl, unitHalf_of_bytes _ 30 u1 rfl]

/-- The fields of the bytes of a wire frame of layout B. -/
theorem frameOfUnit_unitB (f0 f1 f2 f3 f4 f5 f6 : Word) (u0 : Half) (fault state : Byte) :
    frameOfUnit .b (unitB f0 f1 f2 f3 f4 f5 f6 u0 fault state) = .frameB f0 f1 f2 f3 f4 f5 f6 u0 fault state := by
  have e1 : unitByte (unitB f0 f1 f2 f3 f4 f5 f6 u0 fault state) 34 = fault := rfl
  have e2 : unitByte (unitB f0 f1 f2 f3 f4 f5 f6 u0 fault state) 35 = state := rfl
  unfold frameOfUnit
  simp only
  rw [unitWord_of_bytes _ 4 f0 rfl, unitWord_of_bytes _ 8 f1 rfl, unitWord_of_bytes _ 12 f2 rfl, unitWord_of_bytes _ 16 f3 rfl,
    unitWord_of_bytes _ 20 f4 rfl, unitWord_of_bytes _ 24 f5 rfl, unitWord_of_bytes _ 28 f6 rfl, unitHalf_of_bytes _ 32 u0 rfl,
    e1, e2]

/-- The fields of the bytes of a wire frame of layout C. -/
theorem frameOfUnit_unitC (f0 f1 f2 f3 f4 f5 : Word) (u0 : Half) (fault pad : Byte) :
    frameOfUnit .c (unitC f0 f1 f2 f3 f4 f5 u0 fault pad) = .frameC f0 f1 f2 f3 f4 f5 u0 fault pad := by
  have e1 : unitByte (unitC f0 f1 f2 f3 f4 f5 u0 fault pad) 30 = fault := rfl
  have e2 : unitByte (unitC f0 f1 f2 f3 f4 f5 u0 fault pad) 31 = pad := rfl
  unfold frameOfUnit
  simp only
  rw [unitWord_of_bytes _ 4 f0 rfl, unitWord_of_bytes _ 8 f1 rfl, unitWord_of_bytes _ 12 f2 rfl, unitWord_of_bytes _ 16 f3 rfl,
    unitWord_of_bytes _ 20 f4 rfl, unitWord_of_bytes _ 24 f5 rfl, unitHalf_of_bytes _ 28 u0 rfl, e1, e2]

/-- A list of bytes by its bytes. -/
theorem map_unitByte (u : List Byte) (n : Nat) (h : u.length = n) : (List.range n).map (unitByte u) = u := by
  apply List.ext_getElem
  · simp [h]
  · intro i h1 h2
    simp [unitByte, List.getD_eq_getElem?_getD, List.getElem?_eq_getElem h2]

/-- A unit that begins with the marker constant is the bytes of the wire frame that its layout reads. -/
theorem encode_frameOfUnit (l : Layout) (u : List Byte) (hl : u.length = frameLen l) (hm : unitWord u 0 = magic) :
    encode (frameOfUnit l u) = .unit u := by
  have hM : markerBytes = [unitByte u 0, unitByte u 1, unitByte u 2, unitByte u 3] := by
    rw [markerBytes, ← hm]
    exact bytes32_le32 _ _ _ _
  cases l with
  | a =>
    refine congrArg PlacedWord.unit (Eq.trans ?_ (map_unitByte u 32 hl))
    simp only [unitA, unitWord, unitHalf, hM, bytes32_le32, bytes16_le16]
    rfl
  | b =>
    refine congrArg PlacedWord.unit (Eq.trans ?_ (map_unitByte u 36 hl))
    simp only [unitB, unitWord, unitHalf, hM, bytes32_le32, bytes16_le16]
    rfl
  | c =>
    refine congrArg PlacedWord.unit (Eq.trans ?_ (map_unitByte u 32 hl))
    simp only [unitC, unitWord, unitHalf, hM, bytes32_le32, bytes16_le16]
    rfl

/-! ### A unit in the frame buffer -/

/-- Every byte of a stored unit is read back. -/
theorem read_storeBytes_unit (m : Memory) (hm : Memory.wf m = true) (u : List Byte) (hu : u.length ≤ 36) (a : Nat)
    (ha : a < u.length) : (storeBytes m 0 u).read a = unitByte u a := by
  rw [(Memory.storeBytes_spec u m 0 hm (by unfold fbSize; omega)).2 a, if_pos (by omega)]
  rfl

/-- A word of a stored unit. -/
theorem wordAt_storeBytes (m : Memory) (hm : Memory.wf m = true) (u : List Byte) (hu : u.length ≤ 36) (o : Nat)
    (ho : o + 4 ≤ u.length) : wordAt (storeBytes m 0 u).read o = unitWord u o := by
  rw [wordAt_eq, read_storeBytes_unit m hm u hu _ (by omega), read_storeBytes_unit m hm u hu _ (by omega),
    read_storeBytes_unit m hm u hu _ (by omega), read_storeBytes_unit m hm u hu _ (by omega)]
  rfl

/-- A half word of a stored unit. -/
theorem halfAt_storeBytes (m : Memory) (hm : Memory.wf m = true) (u : List Byte) (hu : u.length ≤ 36) (o : Nat)
    (ho : o + 2 ≤ u.length) : halfAt (storeBytes m 0 u).read o = unitHalf u o := by
  rw [halfAt_eq, read_storeBytes_unit m hm u hu _ (by omega), read_storeBytes_unit m hm u hu _ (by omega)]
  rfl

/-- The head of a wire frame's stored unit is the marker constant. -/
theorem wordAt_unitA (m : Memory) (hm : Memory.wf m = true) (f0 f1 f2 f3 f4 f5 : Word) (u0 u1 : Half) :
    wordAt (storeBytes m 0 (unitA f0 f1 f2 f3 f4 f5 u0 u1)).read 0 = magic :=
  (wordAt_storeBytes m hm _ (by rw [unitA_length]; omega) 0 (by rw [unitA_length]; omega)).trans (unitWord_of_bytes _ _ _ rfl)

theorem wordAt_unitB (m : Memory) (hm : Memory.wf m = true) (f0 f1 f2 f3 f4 f5 f6 : Word) (u0 : Half) (fault state : Byte) :
    wordAt (storeBytes m 0 (unitB f0 f1 f2 f3 f4 f5 f6 u0 fault state)).read 0 = magic :=
  (wordAt_storeBytes m hm _ (by rw [unitB_length]) 0 (by rw [unitB_length]; omega)).trans (unitWord_of_bytes _ _ _ rfl)

theorem wordAt_unitC (m : Memory) (hm : Memory.wf m = true) (f0 f1 f2 f3 f4 f5 : Word) (u0 : Half) (fault pad : Byte) :
    wordAt (storeBytes m 0 (unitC f0 f1 f2 f3 f4 f5 u0 fault pad)).read 0 = magic :=
  (wordAt_storeBytes m hm _ (by rw [unitC_length]; omega) 0 (by rw [unitC_length]; omega)).trans (unitWord_of_bytes _ _ _ rfl)

/-! ### The hunting window -/

/-- The window's shift as arithmetic. -/
theorem shiftWindow_eq (w : Word) (d : Byte) : shiftWindow w d = BitVec.ofNat 32 (w.toNat / 256 + 16777216 * d.toNat) := by
  apply BitVec.eq_of_toNat_eq
  have h0 := w.isLt
  have hd := d.isLt
  simp only [shiftWindow, BitVec.toNat_append, BitVec.toNat_ofNat, BitVec.extractLsb'_toNat]
  rw [← Nat.shiftLeft_add_eq_or_of_lt (Nat.mod_lt _ (by norm_num)), Nat.shiftLeft_eq, Nat.shiftRight_eq_div_pow]
  omega

theorem countWindow_eq_four (c : BitVec 3) : countWindow c = 4 ↔ 4 ≤ c.toNat + 1 := by
  revert c
  decide

theorem countWindow_toNat (c : BitVec 3) : (countWindow c).toNat = min (c.toNat + 1) 4 := by
  revert c
  decide

theorem hdrBytes_eq_zero (c : FsConfig) : hdrBytes c = 0 ↔ c.hdrWords.toNat = 0 := by
  unfold hdrBytes
  generalize c.hdrWords = x
  revert x
  decide

theorem hdrBytes_toNat (c : FsConfig) : (hdrBytes c).toNat = 4 * c.hdrWords.toNat := by
  unfold hdrBytes
  generalize c.hdrWords = x
  revert x
  decide

/-- Hunting on: no lock. -/
theorem FrameSync.hunted_search (f : FrameSync) (d : Byte)
    (h : ¬(countWindow f.wcnt = 4 ∧ shiftWindow f.w d = f.cfg.magic)) :
    f.hunted d = { f with w := shiftWindow f.w d, wcnt := countWindow f.wcnt } := if_neg h

/-- Lock with a header to skip. -/
theorem FrameSync.hunted_lock_skip (f : FrameSync) (d : Byte) (h : countWindow f.wcnt = 4 ∧ shiftWindow f.w d = f.cfg.magic)
    (hb : hdrBytes f.cfg ≠ 0) :
    f.hunted d = { f with
      w := shiftWindow f.w d, wcnt := countWindow f.wcnt, fidx := 0, phase := .skip, skipcnt := hdrBytes f.cfg } :=
  (if_pos h).trans (if_neg hb)

/-- Lock without a header. -/
theorem FrameSync.hunted_lock_frame (f : FrameSync) (d : Byte) (h : countWindow f.wcnt = 4 ∧ shiftWindow f.w d = f.cfg.magic)
    (hb : hdrBytes f.cfg = 0) :
    f.hunted d = { f with w := shiftWindow f.w d, wcnt := countWindow f.wcnt, fidx := 0, phase := .frame } :=
  (if_pos h).trans (if_pos hb)

end Sys2Proof.Machine
end

