-- ==== Sys2Proof/Tests/Slice0.lean ====
section
/-! SUPPORT. The model's own tests. Expected results are those of spec/95_test_vectors.md, named in each test, or are read off the
encodings of spec/30_encoding.md; then a witness for the hypotheses of each statement. -/

namespace Sys2Proof.Tests

open Sys2Proof.Machine

set_option Elab.async false

/-! ### Helpers -/

/-- The outcome is a next state with a property. -/
def after (o : Result) (q : State → Bool) : Bool :=
  match o with
  | .next t => q t
  | .fault _ => false
  | .refused _ => false

theorem exists_of_after {o : Result} (q : State → Bool) (h : after o q = true) : ∃ t, o = .next t := by
  cases o with
  | next t => exact ⟨t, rfl⟩
  | fault r => cases h
  | refused r => cases h

/-- The latched configuration of a layout, with the tables of V-FX3: token 10 stands for "none", 13 for "overcurrent", 21 for
"run". -/
def cfgOf (l : Layout) : FsConfig :=
  { (plainConfig l).toConfigBody with
    layout := l, faultTable := [(0, { token := 10 }), (3, { token := 13 })], stateTable := [(1, { token := 21 })] }

/-- FS in a phase of a session of a layout, with a demand. -/
def reading (l : Layout) (p : Phase) : State :=
  { State.reset with fs := { FrameSync.reset with cfg := cfgOf l, phase := p, wcnt := 4, skipcnt := 1, demand := true } }

/-- FS collecting, with the first bytes of a unit already stored. -/
def collected (l : Layout) (bytes : List Byte) : State :=
  let s := reading l .frame
  s.withFs { s.fs with fb := storeBytes [] 0 bytes, fidx := BitVec.ofNat 6 bytes.length }

/-- FS in DONE. -/
def ended : State := (reading .a .done).withFs { (reading .a .done).fs with demand := false, cause := .eos }

/-- The extraction loop at an offset, before numeric field `n`, over a buffer that holds these bytes there. -/
def atField (off n : Nat) (bytes : List Byte) (c : FsConfig) : State :=
  { State.reset with
    fs := { FrameSync.reset with cfg := c, fb := storeBytes [] off bytes }
    xt := { Extraction.start with off := off, num := List.replicate n 0 } }

/-- A configuration that scales field 0. -/
def scaled (scale offset : F64) : FsConfig :=
  { cfgOf .a with scaling := (cfgOf .a).scaling.set 0 { en := true, scale := scale, offset := offset } }

/-- KF after KF.INIT(1.0, 4.0, 1.0, 1.0), as V-KF1 gives it. -/
def estimator : Estimator :=
  { Estimator.reset with
    dt := oneF, qn := fourF, rn := oneF, p0 := oneF, qd00 := oneF, qd01 := twoF, qd11 := fourF, p00 := oneF, p11 := oneF
    ready := true }

/-- A machine with that KF. -/
def withEstimator (s : State) : State := { s with kf := estimator }

/-- The frame F1 of the source's scenario E1. -/
def unitF1 : List Byte :=
  [0x65, 0x6C, 0x65, 0x74, 0x00, 0x00, 0x80, 0x3F, 0x00, 0x00, 0x00, 0x40, 0x00, 0x00, 0x40, 0x40, 0x00, 0x00, 0x80, 0x40,
    0x00, 0x00, 0xA0, 0x40, 0x00, 0x00, 0xC0, 0x40, 0x0A, 0x00, 0x14, 0x00]

/-- The frame B1 of program S3. -/
def unitB1 : List Byte :=
  [0x65, 0x6C, 0x65, 0x74, 0x00, 0x00, 0x00, 0x3F, 0x00, 0x00, 0xC0, 0x3F, 0x00, 0x00, 0x20, 0x40, 0x00, 0x00, 0x60, 0x40,
    0x00, 0x00, 0x90, 0x40, 0x00, 0x00, 0xB0, 0x40, 0x00, 0x00, 0xD0, 0x40, 0xE8, 0x03, 0x03, 0x01]

/-- The frame C1 of program S4. -/
def unitC1 : List Byte :=
  [0x65, 0x6C, 0x65, 0x74, 0x00, 0x00, 0x80, 0x3F, 0x00, 0x00, 0x00, 0x40, 0x00, 0x00, 0x40, 0x40, 0x00, 0x00, 0x80, 0x40,
    0x00, 0x00, 0xA0, 0x40, 0x00, 0x00, 0xC0, 0x40, 0xF4, 0x01, 0x00, 0xAA]

/-! ### Well-formedness: one ill-formed term for each check -/

theorem test_wf_layout_code : Instr.wf (.start { plainConfig .a with layout := 3 }) = false := by decide
theorem test_wf_channel : Instr.wf (.start { plainConfig .c with chsel := 0b10111 }) = false := by decide
theorem test_wf_channel_edge : Instr.wf (.start { plainConfig .c with chsel := 0b10110 }) = true := by decide
theorem test_wf_fault_table_order :
    Instr.wf (.start { plainConfig .b with faultTable := [(3, { token := 0 }), (1, { token := 0 })] }) = false := by decide
theorem test_wf_state_table_repeat :
    Instr.wf (.start { plainConfig .b with stateTable := [(1, { token := 0 }), (1, { token := 2 })] }) = false := by decide
theorem test_wf_chx : Instr.wf (.chx 8) = false ∧ Instr.wf (.chx 7) = true := by decide

/-! ### Decoding of words written out from the encodings (30_encoding.md R92 to R105) -/

def mode (p : Phase) (l : Layout) : DecodeMode := { phase := p, layout := l }

theorem test_decode_nop : decode (mode .done .c) (.cmd { code := 0b00, cfg := plainConfig .a }) = .ok .nop := rfl
theorem test_decode_next : decode (mode .skip .a) (.cmd { code := 0b01, cfg := plainConfig .a }) = .ok .next := rfl
theorem test_decode_start : decode (mode .frame .a) (.cmd { code := 0b10, cfg := plainConfig .c }) = .ok (.start (plainConfig .c)) :=
  rfl
theorem test_decode_rxHunt : decode (mode .hunt .a) (.src 0b010000001) = .ok (.rxHunt 0x81) := rfl
theorem test_decode_rxSkip : decode (mode .skip .a) (.src 0b010000001) = .ok (.rxSkip 0x81) := rfl
theorem test_decode_rxFrame : decode (mode .frame .b) (.src 0b010000001) = .ok (.rxFrame 0x81) := rfl
theorem test_decode_eos : decode (mode .hunt .a) (.src 0b110000001) = .ok (.eos 0x81) := rfl
theorem test_decode_unread_byte : decode (mode .done .a) (.src 0b010000001) = .error .sourceNotRead := rfl
theorem test_decode_pad8 : decode (mode .frame .c) (.desc 0b00000000) = .ok .pad8 := rfl
theorem test_decode_u8eFault : decode (mode .frame .c) (.desc 0b00000001) = .ok .u8eFault := rfl
theorem test_decode_u8eState : decode (mode .frame .b) (.desc 0b00000010) = .ok .u8eState := rfl
theorem test_decode_u16 : decode (mode .frame .b) (.desc 0b00000011) = .ok .u16 := rfl
theorem test_decode_f32 : decode (mode .frame .b) (.desc 0b00000100) = .ok .f32 := rfl
theorem test_decode_desc_high_bits : decode (mode .frame .b) (.desc 0b00001100) = .error .reservedDescriptor := rfl
theorem test_decode_kfStep : decode (mode .idle .a) (.kcmd { code := 0b01, ops := { zeroOperands with z := 7 } }) = .ok (.kfStep 7) :=
  rfl
theorem test_decode_kfInit :
    decode (mode .idle .a) (.kcmd { code := 0b10, ops := { z := 9, dt := 1, q := 2, r := 3, p0 := 4 } }) = .ok (.kfInit 1 2 3 4) :=
  rfl
theorem test_decode_chx : decode (mode .frame .a) (.chsel 0b10101) = .ok (.chx 5) := rfl
theorem test_decode_frameA :
    decode (mode .frame .a) (.unit unitF1) =
      .ok (.frameA 0x3F800000 0x40000000 0x40400000 0x40800000 0x40A00000 0x40C00000 10 20) := by decide
theorem test_decode_frameB :
    decode (mode .frame .b) (.unit unitB1) =
      .ok (.frameB 0x3F000000 0x3FC00000 0x40200000 0x40600000 0x40900000 0x40B00000 0x40D00000 1000 3 1) := by decide
theorem test_decode_frameC :
    decode (mode .frame .c) (.unit unitC1) =
      .ok (.frameC 0x3F800000 0x40000000 0x40400000 0x40800000 0x40A00000 0x40C00000 500 0 0xAA) := by decide
theorem test_table_word_unit : decodeTableWord 8 0x13 = some (.chx 3) ∧ decodeTableWord 16 0x181 = some (.eos 0x81) := by decide

/-! ### One step of each operation -/

/-- V-FS3: NOP in any state. -/
theorem test_nop : after (exec .nop (collected .a [1, 2])) (fun t => t.fs == (collected .a [1, 2]).fs && t.out == []) = true := by
  decide
/-- V-FS3: NEXT in HUNT without a demand. -/
theorem test_next_demand :
    after (exec .next ((reading .a .hunt).withFs { (reading .a .hunt).fs with demand := false })) (fun t => rxReady t.fs) = true := by
  decide
/-- V-FS3: NEXT in DONE outputs END again. -/
theorem test_next_done : after (exec .next ended) (fun t => t.out == [.ended] && t.fs == ended.fs) = true := by decide
/-- V-FS4: START(B) in the middle of a unit. -/
theorem test_start :
    after (exec (.start (plainConfig .b)) (collected .a [1, 2]))
      (fun t => t.fs.phase == .hunt && t.fs.cfg.layout == .b && t.fs.fidx == 0 && t.fs.wcnt == 0 && !t.fs.demand) = true := by
  decide
/-- V-FS4: START(C) with channel 7 is refused. -/
theorem test_start_refused :
    after (exec (.start { plainConfig .c with chsel := 0b10111 }) (reading .a .skip))
      (fun t => t.resp == .refused && t.fs == (reading .a .skip).fs) = true := by decide
/-- V-FS1: the eleventh byte locks. -/
theorem test_rxHunt_lock :
    after (exec (.rxHunt 0x74) ((reading .a .hunt).withFs { (reading .a .hunt).fs with w := 0x656C656C }))
      (fun t => t.fs.w == 0x74656C65 && t.fs.phase == .skip && t.fs.skipcnt == 28 && t.out == []) = true := by decide
/-- V-FS2: one byte of this session does not lock, whatever the window. -/
theorem test_rxHunt_guard :
    after
      (exec (.rxHunt 0x01) ((reading .a .hunt).withFs
        { (reading .a .hunt).fs with wcnt := 0, cfg := { cfgOf .a with magic := 0x01000000 } }))
      (fun t => t.fs.w == 0x01000000 && t.fs.wcnt == 1 && t.fs.phase == .hunt) = true := by decide
/-- V-FS5: the 28th header byte. -/
theorem test_rxSkip :
    after (exec (.rxSkip 0x65) (reading .a .skip)) (fun t => t.fs.phase == .frame && t.fs.skipcnt == 0 && t.fs.fidx == 0) = true := by
  decide
/-- V-FS6, E1: the 32nd byte of F1 emits the Sample. -/
theorem test_rxFrame_sample :
    after (exec (.rxFrame 0x00) (collected .a (unitF1.take 31)))
      (fun t => t.out == [.sample
        { num := [0x3FF0000000000000, 0x4000000000000000, 0x4008000000000000, 0x4010000000000000, 0x4014000000000000,
            0x4018000000000000, 0x4024000000000000, 0x4034000000000000]
          fault := none, state := none }] && t.fs.phase == .frame && !t.fs.demand && t.fs.fidx == 0) = true := by decide +kernel
/-- V-FS6: the same with a first byte 64. -/
theorem test_rxFrame_desync :
    after (exec (.rxFrame 0x00) (collected .a (0x64 :: (unitF1.take 31).tail)))
      (fun t => t.out == [.ended] && t.fs.phase == .done && t.fs.cause == .desync && !t.fs.demand) = true := by decide +kernel
/-- V-FS7: closed with 31 bytes of a unit collected. -/
theorem test_eos :
    after (exec (.eos 0xFF) (collected .a (unitF1.take 31)))
      (fun t => t.out == [.ended] && t.fs.phase == .done && t.fs.cause == .eos && t.fs.fidx == 31) = true := by decide
/-- V-FS3: closed without a demand is not accepted. -/
theorem test_eos_held :
    after (exec (.eos 0) ((reading .a .frame).withFs { (reading .a .frame).fs with demand := false })) (fun t => t.resp == .held) =
      true := by decide
/-- V-FX4: the pad byte leaves no entry. -/
theorem test_pad8 :
    after (exec .pad8 (atField 31 7 [0x65] (cfgOf .c))) (fun t => t.xt.off == 32 && t.xt.num.length == 7 && t.xt.fault == none) =
      true := by decide
/-- V-FX3: fault codes 03 and 01. -/
theorem test_u8eFault_known :
    after (exec .u8eFault (atField 34 8 [0x03] (cfgOf .b))) (fun t => t.xt.fault == some { code := 3, res := .known { token := 13 } }) =
      true := by decide
theorem test_u8eFault_unknown :
    after (exec .u8eFault (atField 34 8 [0x01] (cfgOf .b))) (fun t => t.xt.fault == some { code := 1, res := .unknown }) = true := by
  decide
/-- V-FX3: state codes 01 and FF. -/
theorem test_u8eState_known :
    after (exec .u8eState (atField 35 8 [0x01] (cfgOf .b))) (fun t => t.xt.state == some { code := 1, res := .known { token := 21 } }) =
      true := by decide
theorem test_u8eState_unknown :
    after (exec .u8eState (atField 35 8 [0xFF] (cfgOf .b))) (fun t => t.xt.state == some { code := 255, res := .unknown }) = true := by
  decide
/-- V-FX2: 00 80 is 32768.0. -/
theorem test_u16 :
    after (exec .u16 (atField 28 0 [0x00, 0x80] (cfgOf .a))) (fun t => t.xt.num == [0x40E0000000000000] && t.xt.off == 30) = true := by
  decide +kernel
/-- V-FX5: 1500 * 0.001 - 1.0 = 0.5. -/
theorem test_u16_scaled :
    after (exec .u16 (atField 28 0 [0xDC, 0x05] (scaled 0x3F50624DD2F1A9FC 0xBFF0000000000000)))
      (fun t => t.xt.num == [0x3FE0000000000000]) = true := by decide +kernel
/-- V-FX1: a subnormal. -/
theorem test_f32_subnormal :
    after (exec .f32 (atField 4 0 [0xC2, 0x16, 0x01, 0x00] (cfgOf .a))) (fun t => t.xt.num == [0x37A16C2000000000]) = true := by
  decide +kernel
/-- V-FX5: 0.1f * 10.0 + 0.25, two roundings. -/
theorem test_f32_scaled :
    after (exec .f32 (atField 4 0 [0xCD, 0xCC, 0xCC, 0x3D] (scaled 0x4024000000000000 0x3FD0000000000000)))
      (fun t => t.xt.num == [0x3FF4000004000000]) = true := by decide +kernel
/-- E2: the derived constants. -/
theorem test_kfInit :
    after (exec (.kfInit 0x3EE4F8B588E368F1 0x412E848000000000 0x3FF0000000000000 0x3F50624DD2F1A9FC) State.reset)
      (fun t => t.kf.qd00 == 0x3CE6849B86A12B9E && t.kf.qd01 == 0x3E012E0BE826D696 && t.kf.qd11 == 0x3F1A36E2EB1C432E) = true := by
  decide +kernel
/-- V-KF1, step 2, from the registers that step 1 leaves. -/
theorem test_kfStep :
    after
      (exec (.kfStep 0x4018000000000000)
        { State.reset with
          kf := { estimator with
            x0 := 0x4012000000000000, x1 := 0x4012000000000000, p00 := 0x3FE8000000000000, p01 := 0x3FE8000000000000
            p10 := 0x3FE8000000000000, p11 := 0x4006000000000000 } })
      (fun t => t.out == [.est 0x4019B6DB6DB6DB6E 0x4001249249249249] && t.kf.p00 == 0x3FEB6DB6DB6DB6E0 &&
        t.kf.p01 == 0x3FE9249249249248 && t.kf.p10 == 0x3FE9249249249248 && t.kf.p11 == 0x40036DB6DB6DB6DC) = true := by
  decide +kernel
/-- V-KF4: KF.STEP before KF.INIT is refused. -/
theorem test_kfStep_refused : after (exec (.kfStep 0) State.reset) (fun t => t.resp == .refused && t.out == []) = true := by decide
/-- S6, PULL 1: the Sample's channel 0 is routed. -/
theorem test_chx :
    after (exec (.chx 0) { withEstimator (reading .a .frame) with
        out := [.sample { num := [0x4018000000000000], fault := none, state := none }] })
      (fun t => t.out == [.sample { num := [0x4018000000000000], fault := none, state := none },
        .est 0x4012000000000000 0x4012000000000000]) = true := by decide +kernel
/-- S1, PULL 2: the second frame. -/
theorem test_frameA :
    after (exec (.frameA 0xBFC00000 0x3F000000 0x80000000 0x000116C2 0x7F800000 0xFF800000 0 65535) (reading .a .frame))
      (fun t => t.out == [.sample
        { num := [0xBFF8000000000000, 0x3FE0000000000000, 0x8000000000000000, 0x37A16C2000000000, 0x7FF0000000000000,
            0xFFF0000000000000, 0, 0x40EFFFE000000000]
          fault := none, state := none }]) = true := by decide +kernel
/-- S3, PULL 2: the frame B2. -/
theorem test_frameB :
    after (exec (.frameB 0x3F000000 0x3FC00000 0x40200000 0x40600000 0x40900000 0x40B00000 0xC0D00000 32768 7 255)
        (reading .b .frame))
      (fun t => t.out == [.sample
        { num := [0x3FE0000000000000, 0x3FF8000000000000, 0x4004000000000000, 0x400C000000000000, 0x4012000000000000,
            0x4016000000000000, 0xC01A000000000000, 0x40E0000000000000]
          fault := some { code := 7, res := .unknown }, state := some { code := 255, res := .unknown } }]) = true := by
  decide +kernel
/-- S4, PULL 1: the frame C1. -/
theorem test_frameC :
    after (exec (.frameC 0x3F800000 0x40000000 0x40400000 0x40800000 0x40A00000 0x40C00000 500 0 0xAA) (reading .c .frame))
      (fun t => t.out == [.sample
        { num := [0x3FF0000000000000, 0x4000000000000000, 0x4008000000000000, 0x4010000000000000, 0x4014000000000000,
            0x4018000000000000, 0x407F400000000000]
          fault := some { code := 0, res := .known { token := 10 } }, state := none }]) = true := by decide +kernel
/-- The fetch of a table word: RX.HUNT of byte 65 is the first step after reset. -/
theorem test_fetch_rxHunt :
    after (step (State.reset.withFetchWord 16 0x65)) (fun t => t.fs.w == 0x65000000 && t.resp == .accepted) = true := by decide
/-- The fetch of a table word: a unit of layout B runs whole. -/
theorem test_fetch_frameB :
    after (step (State.reset.withFetchWord 288 0x74656C65)) (fun t => t.out.length == 1 && t.fs.phase == .frame) = true := by
  decide +kernel

/-! ### Witnesses: concrete states and operands that meet the hypotheses of each statement, clause by clause -/

/-- The state right after START of a configuration, from reset. -/
def started (cfg : ConfigInputs) (l : Layout) : State := (State.reset.withFs (State.reset.fs.started cfg l)).accept []

/-- A machine whose source answers next. -/
def offered (s : State) : State := sourceSends 0x065 s

theorem inv_reading : (reading .a .hunt).inv ∧ rxReady (reading .a .hunt).fs = true := by
  unfold State.inv FrameSync.inv Estimator.symmetric; decide
theorem wit_StepKeepsTheInvariant : (offered (reading .a .hunt)).inv ∧ ∃ t, step (offered (reading .a .hunt)) = .next t :=
  ⟨inv_reading.1, _, rfl⟩
theorem wit_StepKeepsTheInvariant_skip :
    (offered (reading .c .skip)).inv ∧ after (step (offered (reading .c .skip))) (fun t => t.fs.phase == .frame) = true := by
  constructor
  · unfold State.inv FrameSync.inv Estimator.symmetric; decide
  · decide
theorem wit_StepAlwaysAnswersUnderTheInvariant : ∃ s : State, s.inv := ⟨_, inv_reading.1⟩
theorem wit_StepRunsTheDecodedOperation :
    presented (offered (reading .a .skip)) = some (.src 0x065) ∧
      decode (decodeMode (offered (reading .a .skip))) (.src 0x065) = .ok (.rxSkip 0x65) := ⟨rfl, rfl⟩
theorem wit_TurnTakesAtMostThePresentedWord :
    (offered State.reset).io.sched = .src :: [] ∧ Response.accepted ≠ .held ∧ Response.refused ≠ .held := by decide
theorem wit_SourceAnswersAreAcceptedOnlyOnRequest :
    (offered State.reset).io.sched = .src :: [] ∧ (offered State.reset).io.srcIn = 0x065 :: [] ∧
      rxReady (offered State.reset).fs = false ∧ rxReady (offered (reading .a .hunt)).fs = true ∧
      (offered (reading .a .hunt)).io.sched = .src :: [] ∧ configLegal (plainConfig .c) = true := by decide
theorem wit_BytesAreTakenOnlyOnDemand : ∃ t, step (offered (reading .a .hunt)) = .next t ∧ t.io.srcIn = [] := ⟨_, rfl, rfl⟩
/-- A reserved code at either port, KCMD = 00, a silent turn of an empty sender, and no turn at all. -/
theorem wit_ReservedCommandCodesAreRefused :
    (hostSends { code := 3, cfg := plainConfig .a } State.reset).io.sched = .cmd :: [] ∧
      (kfSends { code := 3, ops := zeroOperands } State.reset).io.sched = .kcmd :: [] ∧
      (kfSends { code := 0, ops := zeroOperands } State.reset).io.kcmdIn = { code := 0, ops := zeroOperands } :: [] ∧
      presented { State.reset with io := { State.reset.io with sched := [.src] } } = none ∧ presented State.reset = none := by decide
theorem wit_EncodedOperationDecodesToItself :
    Instr.wf (.frameB 0 0 0 0 0 0 0 0 0 0) = true ∧ inMode (mode .frame .b) (.frameB 0 0 0 0 0 0 0 0 0 0) = true ∧
      Instr.wf (.start (plainConfig .c)) = true ∧ Instr.wf (.chx 7) = true := by decide
theorem wit_DecodedWordEncodesToItself :
    decode (mode .hunt .a) (.src 0x0FF) = .ok (.rxHunt 0xFF) ∧ decode (mode .hunt .a) (.desc 4) = .ok .f32 ∧
      decode (mode .hunt .a) (.chsel 0b11111) = .ok (.chx 15) ∧ ∃ i, decode (mode .frame .c) (.unit unitC1) = .ok i :=
  ⟨rfl, rfl, rfl, _, test_decode_frameC⟩
theorem wit_ReservedEncodingsAreNoOperation : 4 < (5 : Byte).toNat ∧ 4 < (255 : Byte).toNat ∧ (15 : BitVec 5).toNat < 16 := by decide
theorem wit_MarkerCannotOverlapItself :
    (((markerBytes ++ markerBytes).drop 0).take 4 = markerBytes) ∧ ((markerBytes ++ markerBytes).drop 4).take 4 = markerBytes := by
  decide
theorem wit_LayoutListsAreTheTables :
    State.reset.xt = Extraction.start ∧
      after (extractFields ((fieldsOf .c).take 9) State.reset) (fun t => t.xt.off == 32) = true := by decide +kernel
theorem wit_NextDemandsOrRepeatsTheEnd :
    State.reset.fs.phase = .idle ∧ (reading .a .hunt).fs.phase = .hunt ∧ (reading .a .skip).fs.phase = .skip ∧
      (reading .a .frame).fs.phase = .frame ∧ ended.fs.phase = .done := by decide
theorem wit_StartBeginsASession :
    layoutOfCode (plainConfig .b).layout = some .b ∧ configLegal { plainConfig .b with chsel := 0b10111 } = true := by decide
theorem wit_IllegalStartIsRefused :
    ({ plainConfig .a with layout := 3 } : ConfigInputs).layout = 3 ∧ layoutOfCode (plainConfig .a).layout = some .a ∧
      numCount .a ≤ (0b11000 : BitVec 5).toNat - 16 ∧ numCount .c ≤ (0b10111 : BitVec 5).toNat - 16 := by decide
/-- RX.HUNT: no lock with three bytes, no lock with another window, lock with and without a header. -/
theorem wit_HuntingShiftsTheWindowAndLocks :
    (reading .a .hunt).fs.phase = .hunt ∧ (reading .a .hunt).fs.demand = true ∧
      (BitVec.ofNat 32 ((0x656C6500 : Word).toNat / 256 + 16777216 * (0x74 : Byte).toNat) = (reading .a .hunt).fs.cfg.magic) ∧
      min ((reading .a .hunt).fs.wcnt.toNat + 1) 4 = 4 ∧ min ((2 : BitVec 3).toNat + 1) 4 ≠ 4 ∧
      4 * (reading .a .hunt).fs.cfg.hdrWords.toNat ≠ 0 ∧ 4 * (0 : BitVec 4).toNat = 0 := by decide
theorem wit_SkippingCountsTheHeaderDown :
    (reading .a .skip).fs.phase = .skip ∧ (reading .a .skip).fs.demand = true ∧ (reading .a .skip).fs.skipcnt.toNat = 1 ∧
      2 ≤ (60 : BitVec 6).toNat := by decide
/-- RX.FRAME: the last byte but one and the first. -/
theorem wit_CollectingStoresOneByte :
    (collected .a (unitF1.take 30)).fs.phase = .frame ∧ (collected .a (unitF1.take 30)).fs.demand = true ∧
      Memory.wf (collected .a (unitF1.take 30)).fs.fb = true ∧
      (collected .a (unitF1.take 30)).fs.fidx.toNat + 1 < frameLen (collected .a (unitF1.take 30)).fs.cfg.layout ∧
      (collected .b []).fs.fidx.toNat + 1 < frameLen .b := by decide
theorem wit_CompletedUnitEmitsItsSample :
    (collected .a (unitF1.take 31)).fs.phase = .frame ∧ (collected .a (unitF1.take 31)).fs.demand = true ∧
      Memory.wf (collected .a (unitF1.take 31)).fs.fb = true ∧
      (collected .a (unitF1.take 31)).fs.fidx.toNat + 1 = frameLen (collected .a (unitF1.take 31)).fs.cfg.layout ∧
      (collected .a (unitF1.take 31)).fs.cfg.chsel.toNat < 16 ∧
      wordAt (fun a => if a = 31 then 0 else (collected .a (unitF1.take 31)).fs.fb.read a) 0 = magic := by decide
/-- With the last channel of layout A and of layout C, with a KF and without. -/
theorem wit_SelectedChannelIsRoutedToTheEstimator :
    7 < numCount .a ∧ (0b10111 : BitVec 5).toNat = 16 + 7 ∧ 6 < numCount .c ∧ (0b10110 : BitVec 5).toNat = 16 + 6 ∧
      (withEstimator (collected .a (unitF1.take 31))).kf.ready = true ∧ (collected .a (unitF1.take 31)).kf.ready = false := by decide
theorem wit_WrongMarkerEndsTheSequence :
    Memory.wf (collected .c (0x64 :: (unitC1.take 31).tail)).fs.fb = true ∧
      (collected .c (0x64 :: (unitC1.take 31).tail)).fs.fidx.toNat + 1 = frameLen .c ∧
      wordAt (fun a => if a = 31 then 0xAA else (collected .c (0x64 :: (unitC1.take 31).tail)).fs.fb.read a) 0 ≠ magic := by decide
theorem wit_ClosedSourceEndsTheSequence :
    ((reading .a .frame).fs.phase = .hunt ∨ (reading .a .frame).fs.phase = .skip ∨ (reading .a .frame).fs.phase = .frame) ∧
      (reading .a .frame).fs.demand = true ∧
      ¬((ended.fs.phase = .hunt ∨ ended.fs.phase = .skip ∨ ended.fs.phase = .frame) ∧ ended.fs.demand = true) := by decide
theorem wit_IdleAndDoneWaitForStart :
    (State.reset.fs.phase = .idle ∨ State.reset.fs.phase = .done) ∧ (ended.fs.phase = .idle ∨ ended.fs.phase = .done) ∧
      configLegal (plainConfig .a) = true ∧ ∃ t, exec .next ended = .next t := ⟨by decide, by decide, by decide, _, rfl⟩
theorem wit_EventsOutsideTheirPhaseAreHeld :
    State.reset.fs.phase ≠ .hunt ∧ State.reset.fs.demand = false ∧ (reading .b .frame).fs.cfg.layout ≠ .a ∧
      (collected .b [1]).fs.fidx ≠ 0 ∧ State.reset.fs.phase = .idle := by decide
theorem wit_PhaseFollowsTheTransitionTable :
    Memory.wf (reading .a .hunt).fs.fb = true ∧ ∃ t, exec (.eos 0) (reading .a .hunt) = .next t ∧ t.fs.phase = .done :=
  ⟨by decide, _, rfl, rfl⟩
theorem wit_FrameBufferReadsWhatWasStored :
    Memory.wf [(0, 1), (35, 2)] = true ∧ memRead1 [(35, 2)] 35 = some 2 ∧ memRead2 [(35, 2)] 34 = some 0x200 ∧
      memRead4 [(35, 2)] 32 = some 0x2000000 ∧ memRead4 [(35, 2)] 33 = none ∧ memRead2 [] 35 = none ∧ memWrite1 [] 36 0 = none := by
  decide
theorem wit_OnlyUnitBytesReachTheFrameBuffer :
    Memory.wf (reading .a .frame).fs.fb = true ∧ ∃ t, exec (.rxFrame 7) (reading .a .frame) = .next t := ⟨by decide, _, rfl⟩
/-- A scaled and an unscaled field, the last index that has an entry, and the first that has none. -/
theorem wit_NumericFieldsAreReadConvertedAndScaled :
    (atField 32 0 [] (scaled 0 0)).xt.off + 4 ≤ 36 ∧ (atField 34 7 [] (cfgOf .b)).xt.off + 2 ≤ 36 ∧
      (atField 32 0 [] (scaled 0 0)).xt.num.length = 0 ∧ (scaled 0 0).scaling[0].en = true ∧
      (atField 34 7 [] (cfgOf .b)).xt.num.length = 7 ∧ (cfgOf .b).scaling[7].en = false ∧
      8 ≤ (atField 4 8 [] (cfgOf .a)).xt.num.length ∧ noScaling.en = false := by decide
theorem wit_CodesAreResolvedAndPadIsSkipped :
    (atField 35 0 [3] (cfgOf .b)).xt.off + 1 ≤ 36 ∧ LabelTable.wf (cfgOf .b).faultTable = true ∧
      LabelTable.wf (cfgOf .b).stateTable = true ∧ (3, { token := 13 }) ∈ (cfgOf .b).faultTable ∧
      ∀ l : Label, ((7 : Byte), l) ∉ (cfgOf .b).faultTable := by
  refine ⟨by decide, by decide, by decide, by decide, fun l h => ?_⟩
  simp [cfgOf] at h
theorem wit_ReadingBeyondTheFrameBufferFaults : 36 < 33 + 4 ∧ 36 < 35 + 2 ∧ 36 < 36 + 1 := by decide
/-- A binary32 zero, the least and the greatest subnormal, the least and the greatest normal, an infinity, a NaN. -/
theorem wit_WideningPreservesTheValue :
    (0x80000000 : Word).toNat / 2 ^ 23 % 256 = 0 ∧ (0x00000001 : Word).toNat % 2 ^ 23 ≠ 0 ∧
      (0x00800000 : Word).toNat / 2 ^ 23 % 256 = 1 ∧ (0x7F7FFFFF : Word).toNat / 2 ^ 23 % 256 = 254 ∧
      (0x7F800000 : Word).toNat / 2 ^ 23 % 256 = 255 ∧ (0x7FC00000 : Word).toNat % 2 ^ 23 ≠ 0 ∧
      isNaN 0x7FF8000000000000 = true := by decide
/-- Two units of layout C that differ in the pad byte alone. -/
theorem wit_SampleDependsOnThePayloadAlone :
    let s1 := atField 31 0 [0xAA] (cfgOf .c)
    let s2 := atField 31 0 [0x65] (cfgOf .c)
    s1.fs.cfg = s2.fs.cfg ∧ s1.fs.fb.read 31 ≠ s2.fs.fb.read 31 ∧ (∀ a : Nat, a < 31 → s1.fs.fb.read a = s2.fs.fb.read a) ∧
      after (extractFields (fieldsOf .c) { s1 with xt := Extraction.start }) (fun _ => true) = true := by decide +kernel
theorem wit_LayoutFramesEmitTheirFields :
    unitAccepted .a (reading .a .frame).fs = true ∧ unitAccepted .b (reading .b .frame).fs = true ∧
      unitAccepted .c (reading .c .frame).fs = true ∧ Memory.wf (reading .c .frame).fs.fb = true ∧
      (reading .c .frame).fs.cfg.magic = magic ∧ (reading .c .frame).fs.cfg.chsel.toNat < 16 := by decide
theorem wit_WireFrameIsItsBytesInTurn :
    unitAccepted .a (reading .a .frame).fs = true ∧ unitAccepted .b (reading .b .frame).fs = true ∧
      unitAccepted .c (reading .c .frame).fs = true := by decide
/-- 1.0 and 2.0, whose sum, difference, product and quotient are finite; the greatest finite value, whose sum with itself and
with half its last place is infinite while that with a little less is not. -/
theorem wit_FiniteResultsAreNearest :
    isFinite oneF = true ∧ isFinite twoF = true ∧ isZero twoF = false ∧ isFinite (fadd 0 oneF twoF) = true ∧
      isFinite (fsub 0 oneF twoF) = true ∧ isFinite (fmul 0 oneF twoF) = true ∧ isFinite (fdiv 0 oneF twoF) = true ∧
      isFinite 0x7FEFFFFFFFFFFFFF = true ∧ isInf (fadd 0 0x7FEFFFFFFFFFFFFF 0x7FEFFFFFFFFFFFFF) = true ∧
      isInf (fadd 0 0x7FEFFFFFFFFFFFFF 0x7C90000000000000) = true ∧
      isFinite (fadd 0 0x7FEFFFFFFFFFFFFF 0x7C8FFFFFFFFFFFFF) = true := by
  decide +kernel
/-- 1 + 2^-53 lies between 1 and the next value; half a unit lies between 0 and 1. -/
theorem wit_TiesGoToEven :
    (isFinite oneF = true ∧ isFinite 0x3CA0000000000000 = true ∧ isFinite (fadd 0 oneF 0x3CA0000000000000) = true ∧
      signedUnits 0x3FF0000000000001 ≠ signedUnits (fadd 0 oneF 0x3CA0000000000000) ∧
      |signedUnits 0x3FF0000000000001 * 1 - (signedUnits oneF + signedUnits 0x3CA0000000000000)| =
        |signedUnits (fadd 0 oneF 0x3CA0000000000000) * 1 - (signedUnits oneF + signedUnits 0x3CA0000000000000)|) ∧
    roundUnits 1 2 < infMag ∧ 1 < infMag ∧ 1 ≠ roundUnits 1 2 ∧
      |(unitsOf 1 : Int) * (2 : Nat) - (1 : Nat)| = |(unitsOf (roundUnits 1 2) : Int) * (2 : Nat) - (1 : Nat)| := by decide +kernel
/-- 1.0, both zeros, both infinities, a NaN. -/
theorem wit_SpecialOperandsGiveTheirResults :
    isFinite oneF = true ∧ isZero oneF = false ∧ isZero 0 = true ∧ isZero 0x8000000000000000 = true ∧
      isInf 0x7FF0000000000000 = true ∧ isInf 0xFFF0000000000000 = true ∧ signOf 0xFFF0000000000000 = true ∧
      signOf 0x7FF0000000000000 = false ∧ isNaN 0xFFF0000000000001 = true ∧ signOf 0 ≠ signOf 0x8000000000000000 := by decide
theorem wit_StepPredictsThenUpdates : (withEstimator State.reset).kf.ready = true ∧ State.reset.kf.ready = false := by decide
theorem wit_CovarianceStaysSymmetric :
    (withEstimator State.reset).kf.symmetric ∧ (∃ t, exec (.kfStep 0) (withEstimator State.reset) = .next t) ∧
      ∃ t, exec (.kfInit 0 0 0 0) State.reset = .next t :=
  ⟨by unfold Estimator.symmetric; decide, ⟨_, rfl⟩, _, rfl⟩
theorem wit_EqualMeasurementsGiveEqualEstimates :
    (∃ t, exec (.kfInit 1 2 3 4) State.reset = .next t) ∧ ∃ t, exec (.kfInit 1 2 3 4) (collected .b [7]) = .next t :=
  ⟨⟨_, rfl⟩, _, rfl⟩
/-- Two constructions, and two instances that differ in the estimate, on measurements of which one is a NaN. -/
theorem wit_CovarianceNeverSeesAMeasurement :
    ((∃ t, exec (.kfInit 1 2 3 4) State.reset = .next t) ∧ ∃ t, exec (.kfInit 1 2 3 4) (collected .b [7]) = .next t) ∧
      [oneF, twoF].length = [fourF, 0x7FF8000000000000].length ∧
      sameCovariance estimator { estimator with x0 := twoF } ∧
      (runMeasurements [oneF, twoF] (withEstimator State.reset)).isSome = true ∧
      (runMeasurements [fourF, 0x7FF8000000000000] { State.reset with kf := { estimator with x0 := twoF } }).isSome = true :=
  ⟨⟨⟨_, rfl⟩, _, rfl⟩, rfl, ⟨by decide, by decide, rfl⟩, by decide +kernel, by decide +kernel⟩
/-- An infinite measurement by KF.STEP, a NaN one routed by CHX and by the byte that completes a unit, and NEXT on an estimate
that is a NaN. -/
theorem wit_NaNEstimateStaysUntilInit :
    (withEstimator State.reset).kf.ready = true ∧ isFinite 0x7FF0000000000000 = false ∧
      (∃ t, exec (.kfStep 0x7FF0000000000000) (withEstimator State.reset) = .next t) ∧
      ({ num := [0x7FF8000000000000], fault := none, state := none } : Sample).num[(0 : BitVec 4).toNat]? = some 0x7FF8000000000000 ∧
      isNaN 0x7FF8000000000000 = true ∧ (∃ t, exec .next { State.reset with kf := { estimator with x0 := 0x7FF8000000000000 } } = .next t) :=
  ⟨rfl, by decide, ⟨_, rfl⟩, rfl, by decide, _, rfl⟩
/-- The same clause for the reception of a unit: its byte completes the unit, and CHX runs on an infinite channel 0. -/
theorem wit_NaNEstimateStaysUntilInit_unit :
    let s := withEstimator ((collected .a ([0x65, 0x6C, 0x65, 0x74, 0x00, 0x00, 0x80, 0x7F] ++ List.replicate 23 0)).withFs
      { (collected .a ([0x65, 0x6C, 0x65, 0x74, 0x00, 0x00, 0x80, 0x7F] ++ List.replicate 23 0)).fs with
        cfg := { cfgOf .a with chsel := 0b10000 } })
    collectsUnit (.rxFrame 0) = true ∧ (chselIndex s.fs.cfg.chsel).toNat = 0 ∧
      after (exec (.rxFrame 0) s) (fun t =>
        match t.out with
        | [.sample smp, .est _ _] => smp.num.head? == some 0x7FF0000000000000
        | _ => false) = true := by decide +kernel
theorem wit_RoutingRunsOneCycle :
    ({ num := [oneF, twoF], fault := none, state := none } : Sample).num[(1 : BitVec 4).toNat]? = some twoF := by decide
theorem wit_ComponentsShareNoState :
    (∃ t, exec (.kfStep 0) (withEstimator State.reset) = .next t) ∧ ∃ t, exec .next State.reset = .next t := ⟨⟨_, rfl⟩, _, rfl⟩
theorem wit_ConfigurationIsSampledOnce :
    ∃ t, exec (.start (plainConfig .c)) State.reset = .next t ∧ t.fs.cfg.layout = .c := ⟨_, rfl, rfl⟩
theorem wit_OperationsLeaveTheSendersAlone : ∃ t, exec .nop (offered State.reset) = .next t ∧ t.io.srcIn = [0x065] := ⟨_, rfl, rfl⟩
theorem wit_Sessions :
    Memory.wf State.reset.fs.fb = true ∧ configLegal (plainConfig .a) = true ∧ (plainConfig .a).magic = magic ∧
      exec (.start (plainConfig .a)) State.reset = .next (started (plainConfig .a) .a) := ⟨by decide, by decide, rfl, rfl⟩
/-- The header and the frames of S1, the garbage of S2, the tail of S4 in length. -/
theorem wit_Sessions_streams :
    (List.replicate 28 (0 : Byte)).length = 4 * (plainConfig .a).hdrWords.toNat ∧
      (∀ u ∈ [unitF1, unitF1], u.length = frameLen (started (plainConfig .a) .a).fs.cfg.layout ∧ u.take 4 = markerBytes) ∧
      0 < (unitF1.take 17).length ∧ (unitF1.take 17).length < frameLen .a := by decide
theorem wit_GarbageWithoutTheMarkerChangesNoSample (k : Nat) :
    (([0xDE, 0xAD, 0x65, 0x6C, 0x65, 0x65, 0x6C] : List Byte).drop k).take 4 ≠ markerBytes := by
  by_cases h : k < 7
  · revert k; decide
  · rw [List.drop_of_length_le (by simpa using h)]
    decide
/-- S2: garbage, marker, header and one frame give one Sample and END with EOS after 71 bytes. -/
theorem test_session :
    ((runSession ([0xDE, 0xAD, 0x65, 0x6C, 0x65, 0x65, 0x6C] ++ markerBytes ++ List.replicate 28 0 ++ unitF1)
        (started (plainConfig .a) .a)).map fun r => (r.samples.length, r.consumed, r.final.fs.cause)) = some (1, 71, .eos) := by
  decide +kernel

end Sys2Proof.Tests
end

section
/-! SUPPORT. Proofs of the statements of 10_state.md R41 and R42: the state after START and after KF.INIT. -/

namespace Sys2Proof.Machine

/-- Replacing FS and accepting, written out field by field: nothing else changes. -/
theorem State.accept_withFs_eq (s : State) (f : FrameSync) (o : List Output) :
    (s.withFs f).accept o = { s with fs := f, resp := .accepted, out := o } := rfl

/-- Replacing KF and accepting, written out field by field: nothing else changes but the draw counter. -/
theorem State.accept_withKf_eq (s : State) (k : Estimator) (o : List Output) :
    (s.withKf k).accept o = { s with kf := k, nanSeq := s.nanSeq + 1, resp := .accepted, out := o } := rfl

/-- The registers of FS after START, written out: only the frame buffer is kept. -/
theorem FrameSync.started_eq (f : FrameSync) (cfg : ConfigInputs) (l : Layout) :
    f.started cfg l =
      { cfg := { toConfigBody := cfg.toConfigBody, layout := l }, phase := .hunt, w := 0, wcnt := 0, skipcnt := 0
        fb := f.fb, fidx := 0, demand := false, cause := .none } := rfl

/-- START with a legal configuration is accepted in every phase. -/
theorem exec_start_of_legal {cfg : ConfigInputs} {l : Layout} (hl : layoutOfCode cfg.layout = some l)
    (hc : configLegal cfg = true) (s : State) :
    exec (.start cfg) s = .next ((s.withFs (s.fs.started cfg l)).accept []) := by
  simp [exec, execStart, hl, hc]

/-- KF.INIT is accepted in every state. -/
theorem exec_kfInit (dt q r p0 : F64) (s : State) :
    exec (.kfInit dt q r p0) s = .next ((s.withKf (constructed (drawNaN s.nanSeq) dt q r p0)).accept []) := rfl

/-- Settles O18: a legal START is accepted, and what it does to FS keeps the frame buffer alone. -/
theorem startBeginsASession : Obligations.StartBeginsASession := by
  unfold Obligations.StartBeginsASession
  intro cfg l s hl hc
  rw [exec_start_of_legal hl hc, State.accept_withFs_eq, FrameSync.started_eq]

/-- Settles O46: KF.INIT is accepted, and the constructed estimator has the formulas of 42_estimator.md R202. -/
theorem initConstructsTheEstimator : Obligations.InitConstructsTheEstimator := by
  unfold Obligations.InitConstructsTheEstimator
  intro dt q r p0 s nan dt2 dt3 dt4
  rw [exec_kfInit, State.accept_withKf_eq]
  rfl

end Sys2Proof.Machine
end

section
/-! SUPPORT. Proof of the statement of 20_memory.md R72: START latches the configuration of FS, KF.INIT that of KF, and no other
operation writes either. -/

namespace Sys2Proof.Machine

/-! ### The configuration of FS -/

@[simp] theorem FrameSync.hunted_cfg (f : FrameSync) (d : Byte) : (f.hunted d).cfg = f.cfg := by
  rw [FrameSync.hunted_frame]

@[simp] theorem FrameSync.skipped_cfg (f : FrameSync) : f.skipped.cfg = f.cfg := by
  rw [FrameSync.skipped_frame]

/-- An extraction leaves FS alone. -/
theorem execField_fs (f : FieldType) (s t : State) (h : execField f s = .next t) : t.fs = s.fs := by
  rw [execField_frame f s t h]

/-- The coupling leaves FS alone. -/
theorem execChx_fs (i : BitVec 4) (s t : State) (h : execChx i s = .next t) : t.fs = s.fs := by
  rcases execChx_cases i s with e | ⟨z, -, -, e⟩ <;> rw [e] at h <;> cases h <;> rfl

/-- A unit received, or held, leaves the configuration of FS alone. -/
theorem receiveUnit_cfg (l : Layout) (u : List Byte) (s t : State) (h : receiveUnit l u s = .next t) :
    t.fs.cfg = s.fs.cfg := by
  rcases receiveUnit_frame l u s t h with ⟨-, rfl⟩ | ⟨-, frame, -⟩
  · rfl
  · exact frame.cfg

/-- No operation but START writes the configuration of FS. -/
theorem exec_cfg_of_ne_start (i : Instr) (s t : State) (hi : ∀ cfg, i ≠ .start cfg) (h : exec i s = .next t) :
    t.fs.cfg = s.fs.cfg := by
  cases i with
  | nop =>
    cases h
    rfl
  | next =>
    simp only [exec, execNext] at h
    split at h <;> cases h <;> rfl
  | start cfg => exact (hi cfg rfl).elim
  | rxHunt d =>
    simp only [exec, execRxHunt] at h
    split at h <;> cases h
    · exact s.fs.hunted_cfg d
    · rfl
  | rxSkip d =>
    simp only [exec, execRxSkip] at h
    split at h <;> cases h
    · exact s.fs.skipped_cfg
    · rfl
  | rxFrame d =>
    rcases rxFrame_cases d s t h with ⟨-, rfl⟩ | ⟨-, hc⟩
    · rfl
    · obtain ⟨-, frame, -⟩ := collectByte_frame d s t hc
      exact frame.cfg
  | eos x =>
    simp only [exec, execEos] at h
    split at h <;> cases h <;> rfl
  | pad8 => rw [execField_fs .pad8 s t h]
  | u8eFault => rw [execField_fs .u8eFault s t h]
  | u8eState => rw [execField_fs .u8eState s t h]
  | u16 => rw [execField_fs .u16 s t h]
  | f32 => rw [execField_fs .f32 s t h]
  | kfInit dt q r p0 =>
    cases h
    rfl
  | kfStep z =>
    simp only [exec, execKfStep] at h
    split at h <;> cases h <;> rfl
  | chx c => rw [execChx_fs c s t h]
  | frameA f0 f1 f2 f3 f4 f5 u0 u1 => exact receiveUnit_cfg _ _ s t h
  | frameB f0 f1 f2 f3 f4 f5 f6 u0 fault state => exact receiveUnit_cfg _ _ s t h
  | frameC f0 f1 f2 f3 f4 f5 u0 fault pad => exact receiveUnit_cfg _ _ s t h

/-! ### The configuration of KF -/

/-- Two estimators agree in what KF.INIT latches: the operands, the constants derived from them, and READY. -/
def SameConstruction (a b : Estimator) : Prop :=
  a.dt = b.dt ∧ a.qn = b.qn ∧ a.rn = b.rn ∧ a.p0 = b.p0 ∧ a.qd00 = b.qd00 ∧ a.qd01 = b.qd01 ∧ a.qd11 = b.qd11 ∧
    a.ready = b.ready

theorem SameConstruction.refl (k : Estimator) : SameConstruction k k := ⟨rfl, rfl, rfl, rfl, rfl, rfl, rfl, rfl⟩

/-- A cycle writes the estimate and the covariance alone. -/
theorem cycled_sameConstruction (nan : Nat → F64) (k : Estimator) (z : F64) : SameConstruction (cycled nan k z) k :=
  ⟨rfl, rfl, rfl, rfl, rfl, rfl, rfl, rfl⟩

/-- No operation but KF.INIT writes the configuration of KF: it runs at most one cycle. -/
theorem exec_sameConstruction_of_ne_kfInit (i : Instr) (s t : State) (hi : ∀ dt q r p0, i ≠ .kfInit dt q r p0)
    (h : exec i s = .next t) : SameConstruction t.kf s.kf := by
  rcases exec_kf_cases i s t hi h with untouched | ⟨z, -, ⟨n, hk⟩, -⟩
  · rw [untouched.kf]
    exact .refl s.kf
  · rw [hk]
    exact cycled_sameConstruction _ s.kf z

/-- Settles O55: what START and KF.INIT latch, and that every other operation keeps it. -/
theorem configurationIsSampledOnce : Obligations.ConfigurationIsSampledOnce := by
  unfold Obligations.ConfigurationIsSampledOnce
  intro i s t h
  refine ⟨?start, ?kfInit, fun hi => exec_cfg_of_ne_start i s t hi h,
    fun hi => exec_sameConstruction_of_ne_kfInit i s t hi h⟩
  case start =>
    rintro cfg l rfl hl hc
    rw [exec_start_of_legal hl hc] at h
    cases h
    rfl
  case kfInit =>
    rintro dt q r p0 rfl
    rw [exec_kfInit] at h
    cases h
    exact ⟨rfl, rfl, rfl, rfl⟩

end Sys2Proof.Machine
end

section
/-! SUPPORT. Proofs of the statements of 30_encoding.md R91 and R101: the marker, and the layouts' descriptor lists. -/

namespace Sys2Proof.Machine

/-! ### The marker -/

/-- The marker in arrival order (30_encoding.md R91). -/
theorem markerBytes_eq : markerBytes = [0x65, 0x6C, 0x65, 0x74] := by decide

/-- No proper prefix of the marker is a proper suffix of it. -/
theorem markerBytes_take_ne_drop : ∀ k : Nat, 1 ≤ k → k ≤ 3 → markerBytes.take k ≠ markerBytes.drop (4 - k) := by
  intro k h1 h3
  rw [markerBytes_eq]
  interval_cases k <;> decide

/-- Where a list stands at offset `i` of a stream and again at offset `j` before its end, the bytes the two occurrences share
are a suffix of the first and a prefix of the second. -/
theorem take_eq_drop_of_overlap {m s : List Byte} {i j : Nat} (hij : i ≤ j)
    (hi : (s.drop i).take m.length = m) (hj : (s.drop j).take m.length = m) :
    m.take (i + m.length - j) = m.drop (j - i) := by
  have shared : m.length - (j - i) = i + m.length - j := by omega
  calc m.take (i + m.length - j)
      = ((s.drop j).take m.length).take (i + m.length - j) := by rw [hj]
    _ = (s.drop j).take (i + m.length - j) := by rw [List.take_take, Nat.min_eq_left (by omega)]
    _ = ((s.drop i).drop (j - i)).take (m.length - (j - i)) := by rw [List.drop_drop, Nat.add_sub_cancel' hij, shared]
    _ = ((s.drop i).take m.length).drop (j - i) := (List.drop_take ..).symm
    _ = m.drop (j - i) := by rw [hi]

/-- Two occurrences of the marker in a stream are at least its length apart. -/
theorem markerBytes_occurrences_disjoint (s : List Byte) (i j : Nat) (hij : i < j)
    (hi : (s.drop i).take 4 = markerBytes) (hj : (s.drop j).take 4 = markerBytes) : i + 4 ≤ j := by
  by_contra overlap
  have border : markerBytes.take (i + 4 - j) = markerBytes.drop (j - i) :=
    take_eq_drop_of_overlap (m := markerBytes) hij.le hi hj
  refine markerBytes_take_ne_drop (i + 4 - j) (by omega) (by omega) ?_
  rw [border, show 4 - (i + 4 - j) = j - i by omega]

/-- Settles O14: an overlap of two occurrences would make a proper prefix of the marker a proper suffix. -/
theorem markerCannotOverlapItself : Obligations.MarkerCannotOverlapItself := by
  unfold Obligations.MarkerCannotOverlapItself
  exact ⟨rfl, markerBytes_eq, markerBytes_take_ne_drop, markerBytes_occurrences_disjoint⟩

/-! ### The descriptor lists -/

/-- The payload lengths of the three layouts (30_encoding.md R101). -/
theorem payLen_eq : payLen .a = 28 ∧ payLen .b = 32 ∧ payLen .c = 28 := ⟨rfl, rfl, rfl⟩

/-- The unit lengths are the payload lengths and the marker's four bytes. -/
theorem frameLen_eq : frameLen .a = 32 ∧ frameLen .b = 36 ∧ frameLen .c = 32 := by
  obtain ⟨ha, hb, hc⟩ := payLen_eq
  exact ⟨congrArg (4 + ·) ha, congrArg (4 + ·) hb, congrArg (4 + ·) hc⟩

/-- From its start the extraction loop stands, after some fields, at the marker's length and their widths. -/
theorem extractFields_off_of_start (fields : List FieldType) (s t : State) (hs : s.xt = Extraction.start)
    (h : extractFields fields s = .next t) : t.xt.off = 4 + (fields.map fieldWidth).sum := by
  rw [extractFields_off fields s t h, hs]
  rfl

/-- Settles O15: the lists are read off the tables, the offsets from what the loop does to its offset. -/
theorem layoutListsAreTheTables : Obligations.LayoutListsAreTheTables := by
  unfold Obligations.LayoutListsAreTheTables
  obtain ⟨payA, payB, payC⟩ := payLen_eq
  obtain ⟨frameA, frameB, frameC⟩ := frameLen_eq
  exact ⟨rfl, rfl, rfl, rfl, rfl, rfl, payA, payB, payC, frameA, frameB, frameC, rfl, rfl, rfl, fun _ => rfl,
    fun l j => extractFields_off_of_start ((fieldsOf l).take j)⟩

end Sys2Proof.Machine
end

section
/-! SUPPORT. Proofs of the statements of 40_frame_sync.md R133, R138 and R139: NOP, the source's answers with and without a read
request, and the two phases that wait for START. -/

namespace Sys2Proof.Machine

/-! ### The operations as equations of `exec` -/

/-- NOP is accepted in every state and changes nothing. -/
theorem exec_nop (s : State) : exec .nop s = .next (s.accept []) := rfl

theorem exec_rxHunt (d : Byte) (s : State) :
    exec (.rxHunt d) s = if byteAccepted .hunt s.fs then .next ((s.withFs (s.fs.hunted d)).accept []) else .next s.hold := rfl

theorem exec_rxSkip (d : Byte) (s : State) :
    exec (.rxSkip d) s = if byteAccepted .skip s.fs then .next ((s.withFs s.fs.skipped).accept []) else .next s.hold := rfl

theorem exec_eos (x : Byte) (s : State) :
    exec (.eos x) s = if rxReady s.fs then .next (raiseEnd .eos s) else .next s.hold := rfl

/-- NEXT in IDLE is ignored. -/
theorem exec_next_of_idle (s : State) (h : s.fs.phase = .idle) : exec .next s = .next (s.accept []) := by
  simp only [exec, execNext, h]

/-- NEXT in DONE repeats END. -/
theorem exec_next_of_done (s : State) (h : s.fs.phase = .done) : exec .next s = .next (s.accept [.ended]) := by
  simp only [exec, execNext, h]

/-- NEXT in an active phase sets the demand. -/
theorem exec_next_of_active (s : State) (h : s.fs.phase = .hunt ∨ s.fs.phase = .skip ∨ s.fs.phase = .frame) :
    exec .next s = .next ((s.withFs { s.fs with demand := true }).accept []) := by
  rcases h with h | h | h <;> simp only [exec, execNext, h]

/-- NEXT is accepted in every state. -/
theorem exec_next_accepted (s : State) : ∃ t, exec .next s = .next t ∧ t.resp = .accepted := by
  cases h : s.fs.phase with
  | idle => exact ⟨_, exec_next_of_idle s h, rfl⟩
  | hunt => exact ⟨_, exec_next_of_active s (by simp [h]), rfl⟩
  | skip => exact ⟨_, exec_next_of_active s (by simp [h]), rfl⟩
  | frame => exact ⟨_, exec_next_of_active s (by simp [h]), rfl⟩
  | done => exact ⟨_, exec_next_of_done s h, rfl⟩

/-- A legal configuration has a layout. -/
theorem layoutOfCode_of_configLegal {cfg : ConfigInputs} (hc : configLegal cfg = true) :
    ∃ l, layoutOfCode cfg.layout = some l := by
  cases hl : layoutOfCode cfg.layout with
  | none => simp [configLegal, hl] at hc
  | some l => exact ⟨l, rfl⟩

/-! ### The source's answers -/

/-- The events that an answer of the source can be in a phase (30_encoding.md R103, R108). -/
inductive SourceEvent : Phase → Instr → Prop where
  | eos (p : Phase) (x : Byte) : SourceEvent p (.eos x)
  | rxHunt (d : Byte) : SourceEvent .hunt (.rxHunt d)
  | rxSkip (d : Byte) : SourceEvent .skip (.rxSkip d)
  | rxFrame (d : Byte) : SourceEvent .frame (.rxFrame d)

/-- An answer of the source is an event of the phase, or a byte in a phase that reads none. -/
theorem decodeSrc_cases (p : Phase) (w : BitVec 9) :
    (∃ i, decodeSrc p w = .ok i ∧ SourceEvent p i) ∨
      (decodeSrc p w = .error .sourceNotRead ∧ (p = .idle ∨ p = .done)) := by
  by_cases hc : w.getLsbD 8 = true
  · exact .inl ⟨_, if_pos hc, .eos p _⟩
  · cases p with
    | idle => exact .inr ⟨if_neg hc, .inl rfl⟩
    | hunt => exact .inl ⟨_, if_neg hc, .rxHunt _⟩
    | skip => exact .inl ⟨_, if_neg hc, .rxSkip _⟩
    | frame => exact .inl ⟨_, if_neg hc, .rxFrame _⟩
    | done => exact .inr ⟨if_neg hc, .inr rfl⟩

theorem byteAccepted_of_not_rxReady (p : Phase) {f : FrameSync} (h : rxReady f = false) : byteAccepted p f = false := by
  simp [byteAccepted, h]

theorem byteAccepted_of_rxReady {p : Phase} {f : FrameSync} (h : rxReady f = true) (hp : f.phase = p) :
    byteAccepted p f = true := by
  simp [byteAccepted, h, hp]

/-- IDLE and DONE read nothing. -/
theorem rxReady_of_idle_or_done {f : FrameSync} (h : f.phase = .idle ∨ f.phase = .done) : rxReady f = false := by
  rcases h with h | h <;> simp only [rxReady, h]

/-- Without a read request a source event, of whatever phase, is held. -/
theorem SourceEvent.exec_held {p : Phase} {i : Instr} (e : SourceEvent p i) (s : State) (h : rxReady s.fs = false) :
    exec i s = .next s.hold := by
  have closed (q : Phase) : ¬ byteAccepted q s.fs = true := by simp [byteAccepted_of_not_rxReady q h]
  cases e with
  | eos p x => exact (exec_eos x s).trans (if_neg (by simp [h]))
  | rxHunt d => exact (exec_rxHunt d s).trans (if_neg (closed .hunt))
  | rxSkip d => exact (exec_rxSkip d s).trans (if_neg (closed .skip))
  | rxFrame d => exact (exec_rxFrame d s).trans (if_neg (closed .frame))

/-- A byte collected within the frame buffer never stops the machine. -/
theorem collectByte_next (d : Byte) (s : State) (h : s.fs.fidx.toNat < fbSize) : ∃ t, collectByte d s = .next t := by
  rw [collectByte_eq d s h]
  split
  · exact ⟨_, rfl⟩
  · exact completeUnit_next _

/-- With a read request an event of the phase is accepted and leaves the senders alone. -/
theorem SourceEvent.exec_accepted {p : Phase} {i : Instr} (e : SourceEvent p i) (s : State) (hp : s.fs.phase = p)
    (h : rxReady s.fs = true) (hf : s.fs.phase = .frame → s.fs.fidx.toNat < fbSize) :
    ∃ t, exec i s = .next t ∧ t.resp = .accepted ∧ t.io = s.io := by
  have taken : byteAccepted p s.fs = true := byteAccepted_of_rxReady h hp
  cases e with
  | eos p x => exact ⟨_, (exec_eos x s).trans (if_pos h), rfl, rfl⟩
  | rxHunt d => exact ⟨_, (exec_rxHunt d s).trans (if_pos taken), rfl, rfl⟩
  | rxSkip d => exact ⟨_, (exec_rxSkip d s).trans (if_pos taken), rfl, rfl⟩
  | rxFrame d =>
    obtain ⟨t, ht⟩ := collectByte_next d s (hf hp)
    obtain ⟨-, frame, -⟩ := collectByte_frame d s t ht
    exact ⟨t, by rw [exec_rxFrame, if_pos taken, ht], frame.resp, frame.io⟩

/-- Under the invariant the next byte of a unit fits the frame buffer. -/
theorem State.inv.fidx_lt {s : State} (h : s.inv) (hp : s.fs.phase = .frame) : s.fs.fidx.toNat < fbSize := by
  obtain ⟨⟨-, -, fidx_lt_frameLen, -⟩, -⟩ := h
  exact (fidx_lt_frameLen hp).trans_le (frameLen_le _)

/-! ### The turn of a sender -/

/-- The word at the head of the byte source's queue is presented in its turn. -/
theorem presented_src {s : State} {w : BitVec 9} {ws : List (BitVec 9)} {ps : List Port} (hs : s.io.sched = .src :: ps)
    (hw : s.io.srcIn = w :: ws) : presented s = some (.src w) := by
  simp [presented, hs, portWord, hw]

/-- A step on a word that is an operation: the operation, then the end of the turn. -/
theorem step_of_decode_ok {s : State} {p : PlacedWord} {i : Instr} (hp : presented s = some p)
    (hd : decode (decodeMode s) p = .ok i) : step s = andThen (exec i s) fun t => .next (endTurn t) := by
  simp only [step, runPresented, hp, hd]

/-- A step on a word that is no operation: the word rejected, then the end of the turn. -/
theorem step_of_decode_error {s : State} {p : PlacedWord} {r : Reject} (hp : presented s = some p)
    (hd : decode (decodeMode s) p = .error r) : step s = .next (endTurn (rejectWord r s)) := by
  simp only [step, runPresented, hp, hd]

/-- The turn after a held word: only the schedule moves on. -/
theorem Environment.turnOver_held {e : Environment} {p : Port} {ps : List Port} (h : e.sched = p :: ps) :
    e.turnOver .held = { e with sched := ps } := by
  simp only [turnOver, h]

/-- The turn after an accepted word: the schedule moves on and the word leaves its queue. -/
theorem Environment.turnOver_accepted {e : Environment} {p : Port} {ps : List Port} (h : e.sched = p :: ps) :
    e.turnOver .accepted = { takeWord e p with sched := ps } := by
  simp only [turnOver, h]

/-- Without a read request, the turn of the source changes nothing but the schedule. -/
theorem step_src_held {s : State} {w : BitVec 9} {ws : List (BitVec 9)} {ps : List Port} (hs : s.io.sched = .src :: ps)
    (hw : s.io.srcIn = w :: ws) (h : rxReady s.fs = false) :
    step s = .next { s with io := { s.io with sched := ps }, resp := .held, out := [] } := by
  have presents := presented_src hs hw
  have held : step s = .next (endTurn s.hold) := by
    rcases decodeSrc_cases s.fs.phase w with ⟨i, hd, event⟩ | ⟨hd, -⟩
    · rw [step_of_decode_ok presents hd, event.exec_held s h, andThen_next]
    · exact step_of_decode_error presents hd
  rw [held, endTurn_eq, State.hold_io, State.hold_resp, Environment.turnOver_held hs]
  rfl

/-- With a read request, the turn of the source takes its oldest answer. -/
theorem step_src_accepted {s : State} {w : BitVec 9} {ws : List (BitVec 9)} {ps : List Port}
    (hs : s.io.sched = .src :: ps) (hw : s.io.srcIn = w :: ws) (h : rxReady s.fs = true) (inv : s.inv) :
    ∃ t, step s = .next t ∧ t.resp = .accepted ∧ t.io = { s.io with sched := ps, srcIn := ws } := by
  rcases decodeSrc_cases s.fs.phase w with ⟨i, hd, event⟩ | ⟨-, asleep⟩
  · obtain ⟨t, ht, hr, hio⟩ := event.exec_accepted s rfl h inv.fidx_lt
    refine ⟨endTurn t, ?_, hr, ?_⟩
    · rw [step_of_decode_ok (presented_src hs hw) hd, ht, andThen_next]
    · rw [endTurn_io, hr, hio, Environment.turnOver_accepted hs, takeWord, hw, List.tail_cons]
  · rw [rxReady_of_idle_or_done asleep] at h
    cases h

/-- Settles O7: the source's turn with and without a read request, and the three commands accepted in every state. -/
theorem sourceAnswersAreAcceptedOnlyOnRequest : Obligations.SourceAnswersAreAcceptedOnlyOnRequest := by
  unfold Obligations.SourceAnswersAreAcceptedOnlyOnRequest
  refine ⟨fun s w ws ps hs hw => ⟨step_src_held hs hw, step_src_accepted hs hw⟩, fun s =>
    ⟨⟨_, exec_nop s, rfl⟩, exec_next_accepted s, fun cfg hc => ?_⟩⟩
  obtain ⟨l, hl⟩ := layoutOfCode_of_configLegal hc
  exact ⟨_, exec_start_of_legal hl hc s, rfl⟩

/-! ### IDLE and DONE -/

/-- Without a read request a whole unit is held. -/
theorem receiveUnit_held (l : Layout) (u : List Byte) (s : State) (h : rxReady s.fs = false) :
    receiveUnit l u s = .next s.hold := by
  have closed : unitAccepted l s.fs = false := by simp [unitAccepted, byteAccepted_of_not_rxReady .frame h]
  rw [receiveUnit, if_neg (by simp [closed])]

/-- In IDLE and DONE no operation but START writes any register of FS. -/
theorem exec_fs_of_idle_or_done (i : Instr) (s t : State) (hp : s.fs.phase = .idle ∨ s.fs.phase = .done)
    (hi : ∀ cfg, i ≠ .start cfg) (h : exec i s = .next t) : t.fs = s.fs := by
  have unread : rxReady s.fs = false := rxReady_of_idle_or_done hp
  have held (hx : exec i s = .next s.hold) : t.fs = s.fs := by
    rw [hx] at h
    cases h
    rfl
  cases i with
  | nop =>
    cases h
    rfl
  | next =>
    rcases hp with hp | hp
    · rw [exec_next_of_idle s hp] at h
      cases h
      rfl
    · rw [exec_next_of_done s hp] at h
      cases h
      rfl
  | start cfg => exact (hi cfg rfl).elim
  | rxHunt d => exact held ((SourceEvent.rxHunt d).exec_held s unread)
  | rxSkip d => exact held ((SourceEvent.rxSkip d).exec_held s unread)
  | rxFrame d => exact held ((SourceEvent.rxFrame d).exec_held s unread)
  | eos x => exact held ((SourceEvent.eos .idle x).exec_held s unread)
  | pad8 => exact execField_fs .pad8 s t h
  | u8eFault => exact execField_fs .u8eFault s t h
  | u8eState => exact execField_fs .u8eState s t h
  | u16 => exact execField_fs .u16 s t h
  | f32 => exact execField_fs .f32 s t h
  | kfInit dt q r p0 =>
    cases h
    rfl
  | kfStep z =>
    simp only [exec, execKfStep] at h
    split at h <;> cases h <;> rfl
  | chx c => exact execChx_fs c s t h
  | frameA f0 f1 f2 f3 f4 f5 u0 u1 => exact held (receiveUnit_held _ _ s unread)
  | frameB f0 f1 f2 f3 f4 f5 f6 u0 fault state => exact held (receiveUnit_held _ _ s unread)
  | frameC f0 f1 f2 f3 f4 f5 u0 fault pad => exact held (receiveUnit_held _ _ s unread)

/-- In IDLE and DONE, NEXT only answers: nothing in IDLE, END in DONE. -/
theorem exec_next_of_idle_or_done (s : State) (hp : s.fs.phase = .idle ∨ s.fs.phase = .done) :
    exec .next s = .next (s.accept (if s.fs.phase = .idle then [] else [.ended])) := by
  rcases hp with hp | hp
  · rw [exec_next_of_idle s hp, if_pos hp]
  · rw [exec_next_of_done s hp, if_neg (by simp [hp])]

/-- Settles O27: no source event is read, and no operation but START writes FS. -/
theorem idleAndDoneWaitForStart : Obligations.IdleAndDoneWaitForStart := by
  unfold Obligations.IdleAndDoneWaitForStart
  intro s hp
  have unread : rxReady s.fs = false := rxReady_of_idle_or_done hp
  refine ⟨exec_nop s, exec_next_of_idle_or_done s hp, fun d i hi => ?events, fun cfg l hl hc => exec_start_of_legal hl hc s,
    fun i t hi h => ?absorbing⟩
  case events =>
    simp only [List.mem_cons, List.not_mem_nil, or_false] at hi
    rcases hi with rfl | rfl | rfl | rfl
    · exact (SourceEvent.rxHunt d).exec_held s unread
    · exact (SourceEvent.rxSkip d).exec_held s unread
    · exact (SourceEvent.rxFrame d).exec_held s unread
    · exact (SourceEvent.eos .idle d).exec_held s unread
  case absorbing =>
    have kept : t.fs = s.fs := exec_fs_of_idle_or_done i s t hp hi h
    rw [kept]
    exact ⟨rfl, rfl⟩

/-! ### NOP -/

/-- Settles O16: the idle code decodes to NOP in every mode, and NOP only answers. -/
theorem nopChangesNothing : Obligations.NopChangesNothing := by
  unfold Obligations.NopChangesNothing
  exact ⟨fun _ _ => rfl, exec_nop⟩

end Sys2Proof.Machine
end

section
/-! SUPPORT. Proof of the statement of 41_field_extract.md R178: widening from binary32 preserves the value. -/

namespace Sys2Proof.Machine

/-! ### Values with at most 53 significant bits are not rounded -/

/-- The last place of a value `m * 2^k` with `m` below 2^53 is not above `k`. -/
theorem lastPlace_shifted_le (m k : Nat) (hm : m < 2 ^ 53) : lastPlace (m * 2 ^ k) ≤ k := by
  obtain ⟨-, lower⟩ := lastPlace_bounds (m * 2 ^ k)
  by_cases h0 : lastPlace (m * 2 ^ k) = 0
  · omega
  · have upper : m * 2 ^ k < 2 ^ (53 + k) := by
      rw [pow_add]
      exact Nat.mul_lt_mul_of_pos_right hm (Nat.two_pow_pos k)
    have := (Nat.pow_lt_pow_iff_right (by decide)).mp (lt_of_le_of_lt (lower h0) upper)
    omega

/-- The units of 53 bits, shifted by at most 2044, are below the overflow threshold. -/
theorem roundUnits_shifted_lt (m k : Nat) (hm : m < 2 ^ 53) (hk : k ≤ 2044) : roundUnits (m * 2 ^ k) 1 < infMag := by
  refine lt_of_le_of_ne (roundUnits_le _ _) fun overflow => ?_
  have threshold := (roundUnits_infinite _ 1 Nat.one_pos).mp overflow
  have below : m * 2 ^ k < (2 ^ 54 - 1) * 2 ^ 2044 * 1 := by
    rw [Nat.mul_one]
    exact Nat.mul_lt_mul_of_lt_of_le (hm.trans_le (by decide)) (Nat.pow_le_pow_right (by decide) hk) (Nat.two_pow_pos _)
  exact absurd threshold (Nat.not_le.mpr below)

/-- The shift is a multiple of the last place, so the magnitude stands for the value itself. -/
theorem unitsOf_roundUnits_shifted (m k : Nat) (hm : m < 2 ^ 53) (hk : k ≤ 2044) :
    unitsOf (roundUnits (m * 2 ^ k) 1) = m * 2 ^ k := by
  rw [unitsOf_roundUnits _ 1 Nat.one_pos (roundUnits_shifted_lt m k hm hk), Nat.div_one, Nat.one_mul]
  obtain ⟨c, hc⟩ := Dvd.dvd.mul_left (pow_dvd_pow 2 (lastPlace_shifted_le m k hm)) m
  generalize lastPlace (m * 2 ^ k) = e at hc ⊢
  rw [hc, Nat.mul_comm (2 ^ e) c, roundNearestEven_exact c _ (Nat.two_pow_pos e)]

/-- A magnitude below 2^52 is subnormal or zero: it stands for as many units as it says. -/
theorem unitsOf_of_lt {mag : Nat} (h : mag < 2 ^ 52) : unitsOf mag = mag := by
  rw [unitsOf, if_pos (Nat.div_eq_of_lt h), Nat.mod_eq_of_lt h]

/-- A nonzero value shifted by 52 or more is a normal one. -/
theorem roundUnits_shifted_normal (m k : Nat) (h0 : m ≠ 0) (hm : m < 2 ^ 53) (h52 : 52 ≤ k) (hk : k ≤ 2044) :
    2 ^ 52 ≤ roundUnits (m * 2 ^ k) 1 := by
  have large : 2 ^ 52 ≤ m * 2 ^ k :=
    le_trans (Nat.pow_le_pow_right (by decide) h52) (Nat.le_mul_of_pos_left _ (Nat.pos_of_ne_zero h0))
  by_contra subnormal
  rw [← unitsOf_roundUnits_shifted m k hm hk, unitsOf_of_lt (Nat.not_le.mp subnormal)] at large
  exact subnormal large

/-! ### The widening, class by class -/

/-- The exponent field of a binary32 pattern (30_encoding.md R98). -/
theorem exponent32_toNat (w : Word) : (w.extractLsb' 23 8).toNat = w.toNat / 2 ^ 23 % 256 := by
  rw [BitVec.extractLsb'_toNat, Nat.shiftRight_eq_div_pow]

/-- The fraction field of a binary32 pattern (30_encoding.md R98). -/
theorem fraction32_toNat (w : Word) : (w.extractLsb' 0 23).toNat = w.toNat % 2 ^ 23 := by
  rw [BitVec.extractLsb'_toNat, Nat.shiftRight_zero]

section
variable (nan : F64) {w : Word}

/-- Exponent 0: the fraction in units of 2^-149. -/
theorem f64OfF32_of_exponent_zero (he : w.toNat / 2 ^ 23 % 256 = 0) :
    f64OfF32 nan w = withSign (w.getLsbD 31) (roundUnits (w.toNat % 2 ^ 23 * 2 ^ 925) 1) := by
  simp only [f64OfF32, exponent32_toNat, fraction32_toNat]
  rw [if_pos he]

/-- Exponents 1 to 254: the exponent rebiased, the fraction padded. -/
theorem f64OfF32_of_normal (h1 : 1 ≤ w.toNat / 2 ^ 23 % 256) (h2 : w.toNat / 2 ^ 23 % 256 ≤ 254) :
    f64OfF32 nan w =
      withSign (w.getLsbD 31) ((w.toNat / 2 ^ 23 % 256 + 1023 - 127) * 2 ^ 52 + w.toNat % 2 ^ 23 * 2 ^ 29) := by
  simp only [f64OfF32, exponent32_toNat, fraction32_toNat]
  rw [if_neg (by omega), if_neg (by omega)]

/-- Exponent 255, fraction 0: the infinity of the same sign. -/
theorem f64OfF32_of_infinity (he : w.toNat / 2 ^ 23 % 256 = 255) (hf : w.toNat % 2 ^ 23 = 0) :
    f64OfF32 nan w = withSign (w.getLsbD 31) infMag := by
  simp only [f64OfF32, exponent32_toNat, fraction32_toNat]
  rw [if_neg (by omega), if_pos he, if_pos hf]

/-- Exponent 255, another fraction: the NaN supplied. -/
theorem f64OfF32_of_nan (he : w.toNat / 2 ^ 23 % 256 = 255) (hf : w.toNat % 2 ^ 23 ≠ 0) : f64OfF32 nan w = nan := by
  simp only [f64OfF32, exponent32_toNat, fraction32_toNat]
  rw [if_neg (by omega), if_pos he, if_neg hf]

end

/-- Settles O36: a subnormal has at most 23 significant bits, so its one rounding is exact; a normal value moves its fields. -/
theorem wideningPreservesTheValue : Obligations.WideningPreservesTheValue := by
  unfold Obligations.WideningPreservesTheValue
  intro nan w s e f x
  have hf : f < 2 ^ 23 := Nat.mod_lt _ (by decide)
  have hf53 : f < 2 ^ 53 := hf.trans (by decide)
  refine ⟨fun he h0 => ?zero, fun he h0 => ?subnormal, fun h1 h2 => ?normal, fun he h0 => ?infinity, fun he h0 hn => ?nan⟩
  case zero =>
    have hx : x = withSign s 0 := by
      rw [show x = _ from f64OfF32_of_exponent_zero nan he, show w.toNat % 2 ^ 23 = 0 from h0, Nat.zero_mul,
        roundUnits_zero 1 Nat.one_pos]
    rw [hx, isZero, magOf_withSign s 0 (by decide), signOf_withSign s 0 (by decide)]
    exact ⟨rfl, rfl⟩
  case subnormal =>
    have hx : x = withSign s (roundUnits (f * 2 ^ 925) 1) := f64OfF32_of_exponent_zero nan he
    have finite : roundUnits (f * 2 ^ 925) 1 < infMag := roundUnits_shifted_lt f 925 hf53 (by decide)
    rw [hx, isFinite, signOf_withSign _ _ (finite.trans infMag_lt), magOf_withSign _ _ (finite.trans infMag_lt)]
    exact ⟨rfl, decide_eq_true finite, unitsOf_roundUnits_shifted f 925 hf53 (by decide),
      roundUnits_shifted_normal f 925 h0 hf53 (by decide) (by decide)⟩
  case normal =>
    have hx : x = withSign s ((e + 1023 - 127) * 2 ^ 52 + f * 2 ^ 29) := f64OfF32_of_normal nan h1 h2
    have hm : (e + 1023 - 127) * 2 ^ 52 + f * 2 ^ 29 < 2 ^ 63 := by omega
    rw [hx, signOf_withSign _ _ hm, magOf_withSign _ _ hm]
    exact ⟨rfl, by omega⟩
  case infinity =>
    have hx : x = withSign s infMag := f64OfF32_of_infinity nan he h0
    rw [hx, isInf, magOf_withSign _ _ infMag_lt, signOf_withSign _ _ infMag_lt]
    exact ⟨decide_eq_true rfl, rfl⟩
  case nan =>
    have hx : x = nan := f64OfF32_of_nan nan he h0
    rwa [hx]

end Sys2Proof.Machine
end

section
/-! SUPPORT. Proof of the statement of 42_estimator.md R209: equal constructions on equal measurements, the bits of NaNs aside. -/

namespace Sys2Proof.Machine

/-! ### One measurement -/

/-- Once KF is constructed, KF.STEP runs a cycle and gives its estimate. -/
theorem exec_kfStep_of_ready {s : State} (h : s.kf.ready = true) (z : F64) :
    exec (.kfStep z) s =
      .next ((s.withKf (cycled (drawNaN s.nanSeq) s.kf z)).accept [(cycled (drawNaN s.nanSeq) s.kf z).estimate]) :=
  if_pos h

/-- A word that is sent to KF is the one presented. -/
theorem presented_kfSends (w : KcmdWord) (s : State) : presented (kfSends w s) = some (.kcmd w) := rfl

/-- The turn of a word that is KF.STEP, once KF is constructed: one cycle and its estimate. -/
theorem step_kfSends_of_ready {s : State} (h : s.kf.ready = true) {w : KcmdWord} {z : F64}
    (hw : decodeKcmd w = .ok (.kfStep z)) :
    ∃ t, step (kfSends w s) = .next t ∧ t.kf = cycled (drawNaN s.nanSeq) s.kf z ∧ t.out = [t.kf.estimate] := by
  have ready : (kfSends w s).kf.ready = true := h
  have hstep := step_of_decode_ok (presented_kfSends w s) hw
  rw [exec_kfStep_of_ready ready, andThen_next] at hstep
  exact ⟨_, hstep, rfl, rfl⟩

/-- On a constructed KF the first measurement runs one cycle, and its estimate comes before those of the rest. -/
theorem runMeasurements_cons_of_ready {s : State} (h : s.kf.ready = true) (z : F64) (zs : List F64) :
    ∃ t, t.kf = cycled (drawNaN s.nanSeq) s.kf z ∧
      runMeasurements (z :: zs) s = (runMeasurements zs t).map fun r => (t.kf.estimate :: r.1, r.2) := by
  obtain ⟨t, hstep, hkf, hout⟩ := step_kfSends_of_ready h (w := { code := 1, ops := { zeroOperands with z := z } }) rfl
  refine ⟨t, hkf, ?_⟩
  simp only [runMeasurements, hstep, hout, List.singleton_append]

/-! ### Two instances side by side -/

@[simp] theorem sameOutputs_nil : sameOutputs [] [] = true := rfl

@[simp] theorem sameOutputs_cons (a b : Output) (as bs : List Output) :
    sameOutputs (a :: as) (b :: bs) = (sameOutput a b && sameOutputs as bs) := rfl

/-- The same state of KF gives the same estimate. -/
theorem estimate_same {a b : Estimator} (h : sameEstimator a b) : sameOutput a.estimate b.estimate = true := by
  obtain ⟨-, ⟨hx0, hx1, -⟩, -⟩ := (sameEstimator_iff a b).mp h
  exact Bool.and_eq_true_iff.mpr ⟨hx0, hx1⟩

/-- Two constructed instances in the same state give the same estimates on any measurements, one for each, and end in the same
state: whatever NaNs each draws, a cycle keeps the two the same. -/
theorem runMeasurements_same (zs : List F64) {s1 s2 : State} (ready1 : s1.kf.ready = true) (ready2 : s2.kf.ready = true)
    (same : sameEstimator s1.kf s2.kf) :
    ∃ (o1 o2 : List Output) (u1 u2 : State), runMeasurements zs s1 = some (o1, u1) ∧ runMeasurements zs s2 = some (o2, u2) ∧
      sameOutputs o1 o2 = true ∧ sameEstimator u1.kf u2.kf ∧ o1.length = zs.length := by
  induction zs generalizing s1 s2 with
  | nil => exact ⟨[], [], s1, s2, rfl, rfl, rfl, same, rfl⟩
  | cons z zs ih =>
    obtain ⟨t1, hk1, run1⟩ := runMeasurements_cons_of_ready ready1 z zs
    obtain ⟨t2, hk2, run2⟩ := runMeasurements_cons_of_ready ready2 z zs
    have sameAfter : sameEstimator t1.kf t2.kf := by
      rw [hk1, hk2]
      exact cycled_same (allNaN_draw _) (allNaN_draw _) same (sameValue_refl z)
    obtain ⟨o1, o2, u1, u2, rest1, rest2, outs, sameEnd, len⟩ := ih (by simpa [hk1]) (by simpa [hk2]) sameAfter
    refine ⟨t1.kf.estimate :: o1, t2.kf.estimate :: o2, u1, u2, ?_, ?_, ?_, sameEnd, congrArg Nat.succ len⟩
    · rw [run1, rest1, Option.map_some]
    · rw [run2, rest2, Option.map_some]
    · rw [sameOutputs_cons, estimate_same sameAfter, outs, Bool.and_self]

/-- Settles O50: the two constructions are the same up to the bits of NaNs, and every measurement keeps them so. -/
theorem equalMeasurementsGiveEqualEstimates : Obligations.EqualMeasurementsGiveEqualEstimates := by
  unfold Obligations.EqualMeasurementsGiveEqualEstimates
  intro dt q r p0 s1 s2 t1 t2 zs h1 h2
  rw [exec_kfInit] at h1 h2
  cases h1
  cases h2
  exact runMeasurements_same zs rfl rfl (constructed_same (allNaN_draw _) (allNaN_draw _) dt q r p0)

end Sys2Proof.Machine
end

section
/-! SUPPORT. Proofs of the statements about steps: 10_state.md R44 and 42_estimator.md R208 (the invariant), 40_frame_sync.md R137 (no
fault), 00_scope.md section 5 and 20_memory.md section 7 (the senders), 10_state.md section 1 (the components). -/

namespace Sys2Proof.Machine

/-! ### What an operation leaves alone -/

/-- START is accepted with the registers of 10_state.md R41, or refused. -/
theorem exec_start_cases (cfg : ConfigInputs) (s : State) :
    (configLegal cfg = true ∧ ∃ l, layoutOfCode cfg.layout = some l ∧
        exec (.start cfg) s = .next ((s.withFs (s.fs.started cfg l)).accept [])) ∨
      (configLegal cfg = false ∧ exec (.start cfg) s = .next s.refuse) := by
  cases hc : configLegal cfg with
  | true =>
    obtain ⟨l, hl⟩ := layoutOfCode_of_configLegal hc
    exact .inl ⟨rfl, l, hl, exec_start_of_legal hl hc s⟩
  | false =>
    refine .inr ⟨rfl, ?_⟩
    simp only [exec, execStart, hc]
    split <;> rfl

/-- Without a KF, KF.STEP is refused. -/
theorem exec_kfStep_of_not_ready {s : State} (h : s.kf.ready = false) (z : F64) : exec (.kfStep z) s = .next s.refuse :=
  if_neg (by simp [h])

/-- KF.STEP always answers: one cycle, or a refusal. -/
theorem exec_kfStep_cases (z : F64) (s : State) :
    exec (.kfStep z) s =
        .next ((s.withKf (cycled (drawNaN s.nanSeq) s.kf z)).accept [(cycled (drawNaN s.nanSeq) s.kf z).estimate]) ∨
      exec (.kfStep z) s = .next s.refuse := by
  cases h : s.kf.ready with
  | true => exact .inl (exec_kfStep_of_ready h z)
  | false => exact .inr (exec_kfStep_of_not_ready h z)

/-- NEXT always answers, and of FS it writes at most the demand, in an active phase. -/
theorem exec_next_cases (s : State) :
    (∃ o, exec .next s = .next (s.accept o)) ∨
      ((s.fs.phase = .hunt ∨ s.fs.phase = .skip ∨ s.fs.phase = .frame) ∧
        exec .next s = .next ((s.withFs { s.fs with demand := true }).accept [])) := by
  cases h : s.fs.phase with
  | idle => exact .inl ⟨_, exec_next_of_idle s h⟩
  | hunt => exact .inr ⟨by simp, exec_next_of_active s (by simp [h])⟩
  | skip => exact .inr ⟨by simp, exec_next_of_active s (by simp [h])⟩
  | frame => exact .inr ⟨by simp, exec_next_of_active s (by simp [h])⟩
  | done => exact .inl ⟨_, exec_next_of_done s h⟩

/-- A unit received, or held, leaves the senders alone. -/
theorem receiveUnit_io (l : Layout) (u : List Byte) (s t : State) (h : receiveUnit l u s = .next t) : t.io = s.io := by
  rcases receiveUnit_frame l u s t h with ⟨-, rfl⟩ | ⟨-, frame, -⟩
  · rfl
  · exact frame.io

/-- An extraction leaves the senders alone. -/
theorem execField_io (f : FieldType) (s t : State) (h : execField f s = .next t) : t.io = s.io := by
  rw [execField_frame f s t h]

/-- No operation reaches what the senders hold. -/
theorem exec_io (i : Instr) (s t : State) (h : exec i s = .next t) : t.io = s.io := by
  cases i with
  | nop =>
    cases h
    rfl
  | next =>
    rcases exec_next_cases s with ⟨o, e⟩ | ⟨-, e⟩ <;> rw [e] at h <;> cases h <;> rfl
  | start cfg =>
    rcases exec_start_cases cfg s with ⟨-, l, -, e⟩ | ⟨-, e⟩ <;> rw [e] at h <;> cases h <;> rfl
  | rxHunt d =>
    rw [exec_rxHunt] at h
    split at h <;> cases h <;> rfl
  | rxSkip d =>
    rw [exec_rxSkip] at h
    split at h <;> cases h <;> rfl
  | rxFrame d =>
    rcases rxFrame_cases d s t h with ⟨-, rfl⟩ | ⟨-, hc⟩
    · rfl
    · obtain ⟨-, frame, -⟩ := collectByte_frame d s t hc
      exact frame.io
  | eos x =>
    rw [exec_eos] at h
    split at h <;> cases h <;> rfl
  | pad8 => exact execField_io .pad8 s t h
  | u8eFault => exact execField_io .u8eFault s t h
  | u8eState => exact execField_io .u8eState s t h
  | u16 => exact execField_io .u16 s t h
  | f32 => exact execField_io .f32 s t h
  | kfInit dt q r p0 =>
    cases h
    rfl
  | kfStep z =>
    rcases exec_kfStep_cases z s with e | e <;> rw [e] at h <;> cases h <;> rfl
  | chx c =>
    rcases execChx_cases c s with e | ⟨z, -, -, e⟩ <;> rw [exec, e] at h <;> cases h <;> rfl
  | frameA f0 f1 f2 f3 f4 f5 u0 u1 => exact receiveUnit_io _ _ s t h
  | frameB f0 f1 f2 f3 f4 f5 f6 u0 fault state => exact receiveUnit_io _ _ s t h
  | frameC f0 f1 f2 f3 f4 f5 u0 fault pad => exact receiveUnit_io _ _ s t h

/-- Settles O56: no operation reaches what the senders hold. -/
theorem operationsLeaveTheSendersAlone : Obligations.OperationsLeaveTheSendersAlone := by
  unfold Obligations.OperationsLeaveTheSendersAlone
  exact exec_io

/-- Handling a unit runs at most one cycle of KF, and only beside the Sample it emits. -/
theorem UnitFrame.kf_kept_or_routed {s t : State} (frame : UnitFrame s t) :
    t.kf = s.kf ∨ (s.kf.ready = true ∧ 16 ≤ s.fs.cfg.chsel.toNat ∧ ∃ smp v r, t.out = [.sample smp, .est v r]) := by
  rcases frame.kf with h | ⟨hk, hv, -, -, smp, v, r, -, ho⟩
  · exact .inl h
  · exact .inr ⟨hk, (chselValid_iff _).mp hv, smp, v, r, ho⟩

theorem receiveUnit_kf_kept_or_routed (l : Layout) (u : List Byte) (s t : State) (h : receiveUnit l u s = .next t) :
    t.kf = s.kf ∨ (s.kf.ready = true ∧ 16 ≤ s.fs.cfg.chsel.toNat ∧ ∃ smp v r, t.out = [.sample smp, .est v r]) := by
  rcases receiveUnit_frame l u s t h with ⟨-, rfl⟩ | ⟨-, frame, -⟩
  · exact .inl rfl
  · exact frame.kf_kept_or_routed

/-- An operation that collects no unit and is none of KF's own leaves KF alone. -/
theorem exec_kf_of_fs_operation (i : Instr) (s t : State) (hinit : ∀ dt q r p0, i ≠ .kfInit dt q r p0)
    (hstep : ∀ z, i ≠ .kfStep z) (hchx : ∀ c, i ≠ .chx c) (hi : collectsUnit i = false) (h : exec i s = .next t) :
    t.kf = s.kf := by
  rcases exec_kf_cases i s t hinit h with untouched | ⟨z, -, -, e | ⟨c, e, -⟩ | ⟨e, -⟩⟩
  · exact untouched.kf
  · exact (hstep z e).elim
  · exact (hchx c e).elim
  · rw [hi] at e
    cases e

/-- Settles O54: KF's operations leave FS alone, and FS runs KF only by the coupling. -/
theorem componentsShareNoState : Obligations.ComponentsShareNoState := by
  unfold Obligations.ComponentsShareNoState
  intro i s t h
  have kept (hinit : ∀ dt q r p0, i ≠ .kfInit dt q r p0) (hstep : ∀ z, i ≠ .kfStep z) (hchx : ∀ c, i ≠ .chx c)
      (hi : collectsUnit i = false) : t.kf = s.kf := exec_kf_of_fs_operation i s t hinit hstep hchx hi h
  cases i with
  | kfInit dt q r p0 =>
    cases h
    rfl
  | kfStep z =>
    rcases exec_kfStep_cases z s with e | e <;> rw [e] at h <;> cases h <;> rfl
  | chx c => exact execChx_fs c s t h
  | rxFrame d =>
    rcases rxFrame_cases d s t h with ⟨-, rfl⟩ | ⟨-, hc⟩
    · exact .inl rfl
    · obtain ⟨-, frame, -⟩ := collectByte_frame d s t hc
      exact frame.kf_kept_or_routed
  | frameA f0 f1 f2 f3 f4 f5 u0 u1 => exact receiveUnit_kf_kept_or_routed _ _ s t h
  | frameB f0 f1 f2 f3 f4 f5 f6 u0 fault state => exact receiveUnit_kf_kept_or_routed _ _ s t h
  | frameC f0 f1 f2 f3 f4 f5 u0 fault pad => exact receiveUnit_kf_kept_or_routed _ _ s t h
  | nop => exact kept (by simp) (by simp) (by simp) rfl
  | next => exact kept (by simp) (by simp) (by simp) rfl
  | start cfg => exact kept (by simp) (by simp) (by simp) rfl
  | rxHunt d => exact kept (by simp) (by simp) (by simp) rfl
  | rxSkip d => exact kept (by simp) (by simp) (by simp) rfl
  | eos x => exact kept (by simp) (by simp) (by simp) rfl
  | pad8 => exact kept (by simp) (by simp) (by simp) rfl
  | u8eFault => exact kept (by simp) (by simp) (by simp) rfl
  | u8eState => exact kept (by simp) (by simp) (by simp) rfl
  | u16 => exact kept (by simp) (by simp) (by simp) rfl
  | f32 => exact kept (by simp) (by simp) (by simp) rfl

/-! ### The events of the ports -/

/-- The operations that a word of a port can be in a phase (30_encoding.md R103 to R105, R108). -/
inductive PortEvent (p : Phase) : Instr → Prop where
  | nop : PortEvent p .nop
  | next : PortEvent p .next
  | start (cfg : ConfigInputs) : PortEvent p (.start cfg)
  | source {i : Instr} (e : SourceEvent p i) : PortEvent p i
  | kfInit (dt q r p0 : F64) : PortEvent p (.kfInit dt q r p0)
  | kfStep (z : F64) : PortEvent p (.kfStep z)

/-- What is presented and decodes is the event of a port. -/
theorem portEvent_of_presented {s : State} {p : PlacedWord} {i : Instr} (hp : presented s = some p)
    (hd : decode (decodeMode s) p = .ok i) : PortEvent s.fs.phase i := by
  rcases presented_cases s p hp with ⟨w, rfl, -⟩ | ⟨w, rfl, -⟩ | ⟨w, rfl, -⟩
  · simp only [decode, decodeCmd] at hd
    split_ifs at hd <;> cases hd
    · exact .nop
    · exact .next
    · exact .start _
  · rcases decodeSrc_cases s.fs.phase w with ⟨j, hj, event⟩ | ⟨hj, -⟩
    · have hij : j = i := Except.ok.inj (hj.symm.trans hd)
      exact .source (hij ▸ event)
    · cases hj.symm.trans hd
  · simp only [decode, decodeKcmd] at hd
    split_ifs at hd <;> cases hd
    · exact .kfStep _
    · exact .kfInit _ _ _ _

/-- Under the invariant the event of a port is never stopped. -/
theorem PortEvent.exec_next {s : State} {i : Instr} (e : PortEvent s.fs.phase i) (inv : s.inv) :
    ∃ t, exec i s = .next t := by
  cases e with
  | nop => exact ⟨_, rfl⟩
  | next => exact (exec_next_accepted s).imp fun t h => h.1
  | start cfg => rcases exec_start_cases cfg s with ⟨-, l, -, h⟩ | ⟨-, h⟩ <;> exact ⟨_, h⟩
  | source e =>
    cases hr : rxReady s.fs with
    | true => exact (e.exec_accepted s rfl hr inv.fidx_lt).imp fun t h => h.1
    | false => exact ⟨_, e.exec_held s hr⟩
  | kfInit dt q r p0 => exact ⟨_, rfl⟩
  | kfStep z => rcases exec_kfStep_cases z s with h | h <;> exact ⟨_, h⟩

/-- Settles O4: a word is rejected by name or is the event of a port, and neither stops under the invariant. -/
theorem stepAlwaysAnswersUnderTheInvariant : Obligations.StepAlwaysAnswersUnderTheInvariant := by
  unfold Obligations.StepAlwaysAnswersUnderTheInvariant
  intro s inv
  cases hp : presented s with
  | none => exact ⟨endTurn (s.accept []), by simp only [step, runPresented, hp]; rfl⟩
  | some p =>
    cases hd : decode (decodeMode s) p with
    | error r => exact ⟨_, step_of_decode_error hp hd⟩
    | ok i =>
      obtain ⟨t, ht⟩ := (portEvent_of_presented hp hd).exec_next inv
      exact ⟨endTurn t, by rw [step_of_decode_ok hp hd, ht, andThen_next]⟩

/-! ### The invariant of KF -/

/-- Every operation but KF.INIT keeps the covariance symmetric. -/
theorem exec_symmetric_of_ne_kfInit (i : Instr) (s t : State) (hi : ∀ dt q r p0, i ≠ .kfInit dt q r p0)
    (h : exec i s = .next t) (sym : s.kf.symmetric) : t.kf.symmetric := by
  rcases exec_kf_cases i s t hi h with untouched | ⟨z, -, ⟨n, hk⟩, -⟩
  · rwa [untouched.kf]
  · rw [hk]
    exact cycled_symmetric (allNaN_draw n) s.kf z sym

/-- The covariance of a construction is diagonal, so symmetric. -/
theorem constructed_symmetric (nan : Nat → F64) (dt q r p0 : F64) : (constructed nan dt q r p0).symmetric :=
  sameValue_refl 0

/-- Every operation keeps a constructed KF symmetric. -/
theorem exec_symmetric (i : Instr) (s t : State) (h : exec i s = .next t) (sym : s.kf.ready = true → s.kf.symmetric)
    (ready : t.kf.ready = true) : t.kf.symmetric := by
  by_cases hi : ∀ dt q r p0, i ≠ .kfInit dt q r p0
  · obtain ⟨-, -, -, -, -, -, -, hr⟩ := exec_sameConstruction_of_ne_kfInit i s t hi h
    exact exec_symmetric_of_ne_kfInit i s t hi h (sym (hr ▸ ready))
  · push Not at hi
    obtain ⟨dt, q, r, p0, rfl⟩ := hi
    cases h
    exact constructed_symmetric _ dt q r p0

/-! ### The invariant of FS -/

section
variable {f : FrameSync} (inv : f.inv)
include inv

/-- START begins a session whose channel the layout has. -/
theorem FrameSync.inv.started {cfg : ConfigInputs} {l : Layout} (hl : layoutOfCode cfg.layout = some l)
    (hc : configLegal cfg = true) : (f.started cfg l).inv := by
  obtain ⟨-, -, -, -, -, hfb, -⟩ := inv
  have channel : chselValid cfg.chsel = true → (chselIndex cfg.chsel).toNat < numCount l := by
    intro hv
    simpa [configLegal, hl, hv] using hc
  exact ⟨by simp, by simp, by simp, by simp, by simp, hfb, fun _ => channel⟩

/-- A demand in an active phase. -/
theorem FrameSync.inv.demanded (hp : f.phase = .hunt ∨ f.phase = .skip ∨ f.phase = .frame) :
    ({ f with demand := true } : FrameSync).inv := by
  obtain ⟨hw, hs, hi, -, hc, hfb, hch⟩ := inv
  exact ⟨hw, hs, hi, fun h => by rcases hp with hp | hp | hp <;> simp [hp] at h, hc, hfb, hch⟩

/-- An end, with its cause. -/
theorem FrameSync.inv.ended {c : Cause} (hp : f.phase ≠ .idle) (hc : c ≠ .none) : (f.ended c).inv := by
  obtain ⟨hw, -, -, -, -, hfb, hch⟩ := inv
  exact ⟨hw, by simp, by simp, by simp, by simp [hc], hfb, fun _ => hch hp⟩

/-- A byte hunted, whether FS locks or not. -/
theorem FrameSync.inv.hunted (hp : f.phase = .hunt) (d : Byte) : (f.hunted d).inv := by
  obtain ⟨-, -, -, -, hc, hfb, hch⟩ := inv
  have count : (countWindow f.wcnt).toNat ≤ 4 := by
    rw [countWindow_toNat]
    exact min_le_right _ _
  have uncaused : f.cause = .none := by simpa [hp] using hc
  have channel := hch (by simp [hp])
  by_cases lock : countWindow f.wcnt = 4 ∧ shiftWindow f.w d = f.cfg.magic
  · by_cases hb : hdrBytes f.cfg = 0
    · rw [f.hunted_lock_frame d lock hb]
      have := four_le_frameLen f.cfg.layout
      exact ⟨count, by simp, fun _ => by simpa using by omega, by simp, by simp [uncaused], hfb, fun _ => channel⟩
    · rw [f.hunted_lock_skip d lock hb]
      have positive : f.cfg.hdrWords.toNat ≠ 0 := fun h => hb ((hdrBytes_eq_zero f.cfg).mpr h)
      refine ⟨count, fun _ => ?_, by simp, by simp, by simp [uncaused], hfb, fun _ => channel⟩
      simp only [hdrBytes_toNat]
      omega
  · rw [f.hunted_search d lock]
    exact ⟨count, by simp [hp], by simp [hp], by simp [hp], by simp [hp, uncaused], hfb, fun _ => channel⟩

/-- A byte skipped: the header counted down, or its end. -/
theorem FrameSync.inv.skipped (hp : f.phase = .skip) : f.skipped.inv := by
  obtain ⟨hw, hs, -, -, hc, hfb, hch⟩ := inv
  obtain ⟨low, high⟩ := hs hp
  have uncaused : f.cause = .none := by simpa [hp] using hc
  have channel := hch (by simp [hp])
  have := four_le_frameLen f.cfg.layout
  have less : (f.skipcnt - 1).toNat = f.skipcnt.toNat - 1 := by bv_omega
  unfold FrameSync.skipped
  simp only
  split
  · exact ⟨hw, by simp, fun _ => by simpa using by omega, by simp, by simp [uncaused], hfb, fun _ => channel⟩
  · rename_i more
    have : (f.skipcnt - 1).toNat ≠ 0 := fun h => more (BitVec.eq_of_toNat_eq h)
    refine ⟨hw, fun _ => ?_, by simp [hp], by simp [hp], by simp [hp, uncaused], hfb, fun _ => channel⟩
    simp only
    omega

end

/-- A byte collected, whether it completes the unit or not. -/
theorem collectByte_inv (d : Byte) (s t : State) (hp : s.fs.phase = .frame) (inv : s.fs.inv) (hx : s.xt = Extraction.start)
    (h : collectByte d s = .next t) : t.fs.inv ∧ t.xt = Extraction.start := by
  obtain ⟨hw, -, -, -, hc, hfb, hch⟩ := inv
  obtain ⟨fits, frame, fb, stored | ⟨-, fidx, demand, ended | emitted⟩⟩ := collectByte_frame d s t h
  all_goals
    have buffer : Memory.wf t.fs.fb = true := fb ▸ Memory.wf_write _ hfb _ fits d
    have count : t.fs.wcnt.toNat ≤ 4 := frame.wcnt ▸ hw
    have channel := hch (by simp [hp])
    rw [← frame.cfg] at channel
  · obtain ⟨more, phase, cause, -, fidx, xt⟩ := stored
    rw [hp] at phase
    have next : t.fs.fidx.toNat = s.fs.fidx.toNat + 1 := by
      have := frameLen_le s.fs.cfg.layout
      rw [fidx]
      bv_omega
    exact ⟨⟨count, by simp [phase], fun _ => by rw [next, frame.cfg]; exact more, by simp [phase],
      by simpa [phase, cause, hp] using hc, buffer, fun _ => channel⟩, xt.trans hx⟩
  · obtain ⟨-, phase, cause, xt⟩ := ended
    exact ⟨⟨count, by simp [phase], by simp [phase], fun _ => demand, by simp [phase, cause], buffer, fun _ => channel⟩,
      xt.trans hx⟩
  · obtain ⟨-, phase, cause, xt⟩ := emitted
    rw [hp] at phase
    have := four_le_frameLen t.fs.cfg.layout
    exact ⟨⟨count, by simp [phase], fun _ => by rw [fidx]; simpa using by omega, fun _ => demand,
      by simpa [phase, cause, hp] using hc, buffer, fun _ => channel⟩, xt⟩

/-- The event of a port keeps the invariant of FS and leaves the extraction loop at rest. -/
theorem PortEvent.exec_inv {s t : State} {i : Instr} (e : PortEvent s.fs.phase i) (inv : s.fs.inv)
    (hx : s.xt = Extraction.start) (h : exec i s = .next t) : t.fs.inv ∧ t.xt = Extraction.start := by
  cases e with
  | nop =>
    cases h
    exact ⟨inv, hx⟩
  | next =>
    rcases exec_next_cases s with ⟨o, e⟩ | ⟨active, e⟩ <;> rw [e] at h <;> cases h
    · exact ⟨inv, hx⟩
    · exact ⟨inv.demanded active, hx⟩
  | start cfg =>
    rcases exec_start_cases cfg s with ⟨legal, l, hl, e⟩ | ⟨-, e⟩ <;> rw [e] at h <;> cases h
    · exact ⟨inv.started hl legal, hx⟩
    · exact ⟨inv, hx⟩
  | source e =>
    cases hr : rxReady s.fs with
    | false =>
      rw [e.exec_held s hr] at h
      cases h
      exact ⟨inv, hx⟩
    | true =>
      obtain ⟨active, -⟩ := (rxReady_iff s.fs).mp hr
      generalize hp : s.fs.phase = p at e
      have taken : byteAccepted p s.fs = true := byteAccepted_of_rxReady hr hp
      cases e with
      | eos p x =>
        rw [exec_eos, if_pos hr] at h
        cases h
        refine ⟨inv.ended ?_ (by simp), hx⟩
        rcases active with a | a | a <;> simp [a]
      | rxHunt d =>
        rw [exec_rxHunt, if_pos taken] at h
        cases h
        exact ⟨inv.hunted hp d, hx⟩
      | rxSkip d =>
        rw [exec_rxSkip, if_pos taken] at h
        cases h
        exact ⟨inv.skipped hp, hx⟩
      | rxFrame d =>
        rw [exec_rxFrame, if_pos taken] at h
        exact collectByte_inv d s t hp inv hx h
  | kfInit dt q r p0 =>
    cases h
    exact ⟨inv, hx⟩
  | kfStep z =>
    rcases exec_kfStep_cases z s with e | e <;> rw [e] at h <;> cases h <;> exact ⟨inv, hx⟩

/-! ### The whole step -/

/-- A rejected word changes the answer alone. -/
theorem rejectWord_eq (r : Reject) (s : State) : ∃ a, rejectWord r s = s.answer a [] := by
  cases r <;> exact ⟨_, rfl⟩

/-- A step changes the senders only by the end of the turn. -/
theorem step_io (s t : State) (h : step s = .next t) : t.io = s.io.turnOver t.resp := by
  rcases step_cases s t h with ⟨-, rfl⟩ | ⟨p, i, u, -, -, hu, rfl⟩ | ⟨p, r, -, -, rfl⟩
  · rfl
  · rw [endTurn_io, exec_io i s u hu, endTurn_resp]
  · obtain ⟨a, e⟩ := rejectWord_eq r s
    rw [endTurn_io, e]
    rfl

/-- Settles O3: FS and KF each keep their part, operation by operation; a rejected word and the end of the turn touch
neither. -/
theorem stepKeepsTheInvariant : Obligations.StepKeepsTheInvariant := by
  unfold Obligations.StepKeepsTheInvariant
  intro s t inv h
  obtain ⟨fsInv, sym, rest⟩ := inv
  rcases step_cases s t h with ⟨-, rfl⟩ | ⟨p, i, u, hp, hd, hu, rfl⟩ | ⟨p, r, -, -, rfl⟩
  · exact ⟨fsInv, sym, rest⟩
  · obtain ⟨fsInv', rest'⟩ := (portEvent_of_presented hp hd).exec_inv fsInv rest hu
    exact ⟨fsInv', exec_symmetric i s u hu sym, rest'⟩
  · obtain ⟨a, e⟩ := rejectWord_eq r s
    rw [e]
    exact ⟨fsInv, sym, rest⟩

/-- The end of a turn takes nothing from the source, or its oldest answer in its own turn. -/
theorem Environment.turnOver_srcIn (e : Environment) (r : Response) :
    (e.turnOver r).srcIn = e.srcIn ∨ ∃ ps, e.sched = .src :: ps ∧ r ≠ .held ∧ (e.turnOver r).srcIn = e.srcIn.tail := by
  unfold Environment.turnOver
  split
  · exact .inl rfl
  · rename_i p ps hs
    cases r with
    | held => exact .inl rfl
    | accepted =>
      cases p with
      | cmd => exact .inl rfl
      | src => exact .inr ⟨ps, hs, by simp, rfl⟩
      | kcmd => exact .inl rfl
    | refused =>
      cases p with
      | cmd => exact .inl rfl
      | src => exact .inr ⟨ps, hs, by simp, rfl⟩
      | kcmd => exact .inl rfl

/-- Settles O8: only an accepted answer in the source's own turn leaves its queue, and none is accepted without a read
request. -/
theorem bytesAreTakenOnlyOnDemand : Obligations.BytesAreTakenOnlyOnDemand := by
  unfold Obligations.BytesAreTakenOnlyOnDemand
  intro s t h
  rw [step_io s t h]
  rcases s.io.turnOver_srcIn t.resp with kept | ⟨ps, hs, answered, taken⟩
  · exact .inl kept
  · cases hq : s.io.srcIn with
    | nil => exact .inl (by rw [taken, hq]; rfl)
    | cons w ws =>
      cases hr : rxReady s.fs with
      | true => exact .inr ⟨rfl, w, by rw [taken, hq]; rfl⟩
      | false =>
        rw [step_src_held hs hq hr] at h
        cases h
        exact (answered rfl).elim

/-! ### Reset, one step, one turn -/

/-- Settles O1: the reset values are those of 10_state.md R40. -/
theorem resetIsIdleUndemandedAndUnready : Obligations.ResetIsIdleUndemandedAndUnready := by
  unfold Obligations.ResetIsIdleUndemandedAndUnready
  exact ⟨rfl, rfl, rfl, rfl, rfl, rfl⟩

/-- Settles O2: in IDLE, with an empty buffer and no KF, every clause is one of the reset values. -/
theorem resetMeetsTheInvariant : Obligations.ResetMeetsTheInvariant := by
  unfold Obligations.ResetMeetsTheInvariant
  have idle : State.reset.fs.phase = .idle := rfl
  have unready : State.reset.kf.ready = false := rfl
  exact ⟨⟨Nat.zero_le _, by simp [idle], by simp [idle], fun _ => rfl, by simp [idle], rfl, by simp [idle]⟩,
    by simp [unready], rfl⟩

/-- Settles O5: what a step is on a word that decodes. -/
theorem stepRunsTheDecodedOperation : Obligations.StepRunsTheDecodedOperation := by
  unfold Obligations.StepRunsTheDecodedOperation
  exact fun s p i hp hd => step_of_decode_ok hp hd

/-- The turn after a refused word: the schedule moves on and the word leaves its queue. -/
theorem Environment.turnOver_refused {e : Environment} {p : Port} {ps : List Port} (h : e.sched = p :: ps) :
    e.turnOver .refused = { takeWord e p with sched := ps } := by
  simp only [turnOver, h]

/-- Settles O6: a held word stays, an accepted or refused one leaves its own queue alone. -/
theorem turnTakesAtMostThePresentedWord : Obligations.TurnTakesAtMostThePresentedWord := by
  unfold Obligations.TurnTakesAtMostThePresentedWord
  intro e p ps hs
  refine ⟨Environment.turnOver_held hs, fun r hr => ?_⟩
  have taken : e.turnOver r = { takeWord e p with sched := ps } := by
    cases r with
    | accepted => exact Environment.turnOver_accepted hs
    | held => exact (hr rfl).elim
    | refused => exact Environment.turnOver_refused hs
  rw [taken]
  cases p <;> exact ⟨rfl, rfl, rfl, rfl⟩

/-- The turn of the command port presents the host's oldest word. -/
theorem presented_cmd {s : State} {w : CmdWord} {ws : List CmdWord} {ps : List Port} (hs : s.io.sched = .cmd :: ps)
    (hw : s.io.cmdIn = w :: ws) : presented s = some (.cmd w) := by
  simp [presented, hs, portWord, hw]

/-- The turn of the KF port presents the host's oldest KF word. -/
theorem presented_kcmd {s : State} {w : KcmdWord} {ws : List KcmdWord} {ps : List Port} (hs : s.io.sched = .kcmd :: ps)
    (hw : s.io.kcmdIn = w :: ws) : presented s = some (.kcmd w) := by
  simp [presented, hs, portWord, hw]

/-- The command code 11 is no operation. -/
theorem decodeCmd_reserved {w : CmdWord} (h : w.code = 3) : decodeCmd w = .error .reservedCmd := by
  simp [decodeCmd, h]

/-- The KF code 11 is no operation. -/
theorem decodeKcmd_reserved {w : KcmdWord} (h : w.code = 3) : decodeKcmd w = .error .reservedKcmd := by
  simp [decodeKcmd, h]

/-- The KF code 00 is no command. -/
theorem decodeKcmd_idle {w : KcmdWord} (h : w.code = 0) : decodeKcmd w = .error .noKcmd := by
  simp [decodeKcmd, h]

/-- With nothing presented a step is NOP and the end of the turn. -/
theorem step_of_not_presented {s : State} (h : presented s = none) : step s = .next (endTurn (s.accept [])) := by
  simp only [step, runPresented, h]
  rfl

/-- A turn in which nothing is presented: the schedule moves on, and no queue has anything to lose. -/
theorem turnOver_of_not_presented {s : State} (h : presented s = none) :
    s.io.turnOver .accepted = { s.io with sched := s.io.sched.tail } := by
  cases hs : s.io.sched with
  | nil =>
    simp only [Environment.turnOver, hs, List.tail_nil]
    rw [← hs]
  | cons p ps =>
    rw [Environment.turnOver_accepted hs]
    cases p <;> simp only [presented, hs, portWord, Option.map_eq_none_iff, List.head?_eq_none_iff] at h <;>
      simp [takeWord, h]

/-- Settles O9: each of the words is rejected by its own name, which changes the answer alone, and leaves its queue. -/
theorem reservedCommandCodesAreRefused : Obligations.ReservedCommandCodesAreRefused := by
  unfold Obligations.ReservedCommandCodesAreRefused
  refine fun s ps => ⟨fun w ws hs hw hc => ?cmd, fun w ws hs hw hc => ?kcmd, fun w ws hs hw hc => ?idle, fun h => ?silent⟩
  case cmd =>
    rw [step_of_decode_error (presented_cmd hs hw) (decodeCmd_reserved hc), endTurn_eq, rejectWord, State.refuse_io,
      State.refuse_resp, Environment.turnOver_refused hs, takeWord, hw]
    rfl
  case kcmd =>
    rw [step_of_decode_error (presented_kcmd hs hw) (decodeKcmd_reserved hc), endTurn_eq, rejectWord, State.refuse_io,
      State.refuse_resp, Environment.turnOver_refused hs, takeWord, hw]
    rfl
  case idle =>
    rw [step_of_decode_error (presented_kcmd hs hw) (decodeKcmd_idle hc), endTurn_eq, rejectWord, State.accept_io,
      State.accept_resp, Environment.turnOver_accepted hs, takeWord, hw]
    rfl
  case silent =>
    rw [step_of_not_presented h, endTurn_eq, State.accept_io, State.accept_resp, turnOver_of_not_presented h]
    rfl

end Sys2Proof.Machine
end

section
/-! SUPPORT. Proofs of the statements of 30_encoding.md section 8 and section 5: decoder and encoder are inverse to each other, and the
reserved codes are no operation. -/

namespace Sys2Proof.Machine

/-! ### Words of the source -/

/-- A byte's word has bit 8 clear and the byte below it. -/
theorem srcByte_fields : ∀ d : Byte, (srcByte d).getLsbD 8 = false ∧ (srcByte d).extractLsb' 0 8 = d := by decide

/-- The word of "closed" has bit 8 set and the data bits below it. -/
theorem srcClosed_fields : ∀ x : Byte, (srcClosed x).getLsbD 8 = true ∧ (srcClosed x).extractLsb' 0 8 = x := by decide

/-- A byte's word is the event of the phase that reads it (30_encoding.md R103). -/
theorem decodeSrc_hunt_byte (d : Byte) : decodeSrc .hunt (srcByte d) = .ok (.rxHunt d) := by
  obtain ⟨bit, byte⟩ := srcByte_fields d
  simp only [decodeSrc, bit, byte, Bool.false_eq_true, if_false]

theorem decodeSrc_skip_byte (d : Byte) : decodeSrc .skip (srcByte d) = .ok (.rxSkip d) := by
  obtain ⟨bit, byte⟩ := srcByte_fields d
  simp only [decodeSrc, bit, byte, Bool.false_eq_true, if_false]

theorem decodeSrc_frame_byte (d : Byte) : decodeSrc .frame (srcByte d) = .ok (.rxFrame d) := by
  obtain ⟨bit, byte⟩ := srcByte_fields d
  simp only [decodeSrc, bit, byte, Bool.false_eq_true, if_false]

/-- "Closed" is EOS in every phase. -/
theorem decodeSrc_srcClosed (p : Phase) (x : Byte) : decodeSrc p (srcClosed x) = .ok (.eos x) := by
  obtain ⟨bit, data⟩ := srcClosed_fields x
  simp only [decodeSrc, bit, data, if_true]

/-- A word with bit 8 clear is that of its byte. -/
theorem srcByte_of_word : ∀ w : BitVec 9, w.getLsbD 8 = false → srcByte (w.extractLsb' 0 8) = w := by decide

/-- A word with bit 8 set is that of "closed" with its data bits. -/
theorem srcClosed_of_word : ∀ w : BitVec 9, w.getLsbD 8 = true → srcClosed (w.extractLsb' 0 8) = w := by decide

/-- A source word is the encoding of what it decodes to. -/
theorem encode_of_decodeSrc {p : Phase} {w : BitVec 9} {i : Instr} (h : decodeSrc p w = .ok i) : encode i = .src w := by
  cases hc : w.getLsbD 8 with
  | true =>
    simp only [decodeSrc, hc, if_true] at h
    cases h
    exact congrArg PlacedWord.src (srcClosed_of_word w hc)
  | false =>
    have byte := congrArg PlacedWord.src (srcByte_of_word w hc)
    cases p <;> simp only [decodeSrc, hc] at h <;> cases h <;> exact byte

/-! ### Descriptors and channels -/

/-- A descriptor byte with a field type is that type's code. -/
theorem fieldCode_of_fieldOfCode {d : Byte} {f : FieldType} (h : fieldOfCode d = some f) : fieldCode f = d := by
  unfold fieldOfCode at h
  split_ifs at h with h0 h1 h2 h3 h4 <;> cases h
  · exact h0.symm
  · exact h1.symm
  · exact h2.symm
  · exact h3.symm
  · exact h4.symm

/-- The descriptor of a field type is what its extraction operation encodes to. -/
theorem encode_instrOfField (f : FieldType) : encode (instrOfField f) = .desc (fieldCode f) := by cases f <;> rfl

/-- A descriptor above 4 names no field type. -/
theorem fieldOfCode_reserved {d : Byte} (h : 4 < d.toNat) : fieldOfCode d = none := by
  have ne (c : Byte) (hc : c.toNat ≤ 4) : ¬ d = c := fun e => by rw [e] at h; omega
  unfold fieldOfCode
  rw [if_neg (ne 0 (by decide)), if_neg (ne 1 (by decide)), if_neg (ne 2 (by decide)), if_neg (ne 3 (by decide)),
    if_neg (ne 4 (by decide))]

/-- The channel word of an index: the valid bit, and the index below it. -/
theorem chsel_fields : ∀ i : BitVec 4, chselValid (1#1 ++ i : BitVec 5) = true ∧ chselIndex (1#1 ++ i : BitVec 5) = i := by
  decide

/-- A valid channel word is its bit and its index. -/
theorem chsel_of_valid : ∀ c : BitVec 5, chselValid c = true → (1#1 ++ chselIndex c : BitVec 5) = c := by decide

/-! ### Units -/

/-- A unit of the layout's length whose head is the marker is read as its wire frame. -/
theorem decodeUnit_of_marker {l : Layout} {u : List Byte} (hl : u.length = frameLen l) (hm : unitWord u 0 = magic) :
    decodeUnit l u = .ok (frameOfUnit l u) := by
  rw [decodeUnit, if_neg (not_not.mpr hl), if_neg (not_not.mpr hm)]

/-- A unit that decodes has the layout's length and the marker, and is read as its wire frame. -/
theorem of_decodeUnit_ok {l : Layout} {u : List Byte} {i : Instr} (h : decodeUnit l u = .ok i) :
    u.length = frameLen l ∧ unitWord u 0 = magic ∧ i = frameOfUnit l u := by
  unfold decodeUnit at h
  split_ifs at h with hl hm
  cases h
  exact ⟨not_not.mp hl, not_not.mp hm, rfl⟩

/-! ### The statements -/

/-- Settles O10: place by place, the decoder finds the bits the encoder put there. -/
theorem encodedOperationDecodesToItself : Obligations.EncodedOperationDecodesToItself := by
  unfold Obligations.EncodedOperationDecodesToItself
  intro i m _ hm
  have event {q : Phase} (h : (m.phase == q) = true) : m.phase = q := by simpa using h
  have unit {q : Layout} (h : (m.layout == q) = true) : m.layout = q := by simpa using h
  cases i with
  | nop => rfl
  | next => rfl
  | start cfg => rfl
  | rxHunt d => rw [encode, decode, event hm, decodeSrc_hunt_byte]
  | rxSkip d => rw [encode, decode, event hm, decodeSrc_skip_byte]
  | rxFrame d => rw [encode, decode, event hm, decodeSrc_frame_byte]
  | eos x => exact decodeSrc_srcClosed m.phase x
  | pad8 => rfl
  | u8eFault => rfl
  | u8eState => rfl
  | u16 => rfl
  | f32 => rfl
  | kfInit dt q r p0 => rfl
  | kfStep z => rfl
  | chx i =>
    obtain ⟨valid, index⟩ := chsel_fields i
    rw [encode, decode, decodeChsel, if_pos valid, index]
  | frameA f0 f1 f2 f3 f4 f5 u0 u1 =>
    rw [encode, decode, unit hm, decodeUnit_of_marker (unitA_length ..) (unitWord_of_bytes _ _ _ rfl), frameOfUnit_unitA]
  | frameB f0 f1 f2 f3 f4 f5 f6 u0 fault state =>
    rw [encode, decode, unit hm, decodeUnit_of_marker (unitB_length ..) (unitWord_of_bytes _ _ _ rfl), frameOfUnit_unitB]
  | frameC f0 f1 f2 f3 f4 f5 u0 fault pad =>
    rw [encode, decode, unit hm, decodeUnit_of_marker (unitC_length ..) (unitWord_of_bytes _ _ _ rfl), frameOfUnit_unitC]

/-- Settles O11: at these four places no bit of the word is dropped. -/
theorem decodedWordEncodesToItself : Obligations.DecodedWordEncodesToItself := by
  unfold Obligations.DecodedWordEncodesToItself
  refine fun m i => ⟨fun w h => encode_of_decodeSrc h, fun d h => ?desc, fun c h => ?chsel, fun u h => ?unit⟩
  case desc =>
    simp only [decode, decodeDesc] at h
    split at h
    · rename_i f hf
      cases h
      rw [encode_instrOfField, fieldCode_of_fieldOfCode hf]
    · cases h
  case chsel =>
    simp only [decode, decodeChsel] at h
    split at h
    · rename_i valid
      cases h
      rw [encode, chsel_of_valid c valid]
    · cases h
  case unit =>
    obtain ⟨hl, marker, rfl⟩ := of_decodeUnit_ok h
    exact encode_frameOfUnit m.layout u hl marker

/-- Settles O12: each word is read by the decoder of its place. -/
theorem writtenOutWordsDecode : Obligations.WrittenOutWordsDecode := by
  unfold Obligations.WrittenOutWordsDecode
  exact ⟨rfl, rfl, rfl, rfl, rfl, rfl, rfl, rfl, rfl, rfl, rfl, rfl, rfl, rfl, rfl⟩

/-- Settles O13: each reserved code falls through every test of its decoder. -/
theorem reservedEncodingsAreNoOperation : Obligations.ReservedEncodingsAreNoOperation := by
  unfold Obligations.ReservedEncodingsAreNoOperation
  refine fun m => ⟨fun cfg => decodeCmd_reserved rfl, fun ops => decodeKcmd_reserved rfl, fun d hd => ?desc, fun c hc => ?chsel⟩
  case desc => rw [decode, decodeDesc, fieldOfCode_reserved hd]
  case chsel =>
    have invalid : ¬ chselValid c = true := fun h => by
      have := (chselValid_iff c).mp h
      omega
    rw [decode, decodeChsel, if_neg invalid]

end Sys2Proof.Machine
end

section
/-! SUPPORT. Proofs of the statements of 40_frame_sync.md R136 and 41_field_extract.md section 1: the bytes of a unit one by one, the
byte that completes it, and the wire frames. -/

namespace Sys2Proof.Machine

/-! ### A complete unit in the frame buffer -/

/-- The state in which a complete unit is judged: its bytes in the frame buffer, FIDX back at 0 (40_frame_sync.md R136). -/
def State.unitStored (s : State) (fb : Memory) : State := s.withFs { s.fs with fb := fb, fidx := 0 }

/-- The state after a byte that leaves the unit incomplete: stored at FIDX, and FIDX one on (40_frame_sync.md R136). -/
def State.byteStored (s : State) (d : Byte) : State :=
  (s.withFs { s.fs with fb := s.fs.fb.write s.fs.fidx.toNat d, fidx := s.fs.fidx + 1 }).accept []

theorem completeUnit_unitStored_desync {s : State} {fb : Memory} (marker : wordAt fb.read 0 ≠ s.fs.cfg.magic) :
    completeUnit (s.unitStored fb) = .next
      { s with
        fs := { s.fs with fb := fb, fidx := 0, phase := .done, cause := .desync, demand := false }
        resp := .accepted, out := [.ended] } :=
  completeUnit_desync (s.unitStored fb) marker

theorem completeUnit_unitStored_sample {s : State} {fb : Memory} (marker : wordAt fb.read 0 = s.fs.cfg.magic)
    (h : chselValid s.fs.cfg.chsel = false ∨ s.kf.ready = false) :
    completeUnit (s.unitStored fb) = .next
      { s with
        fs := { s.fs with fb := fb, fidx := 0, demand := false }, xt := Extraction.start
        nanSeq := s.nanSeq + numCount s.fs.cfg.layout, resp := .accepted
        out := [.sample (tableSample s.fs.cfg s.nanSeq fb.read)] } :=
  completeUnit_sample (s.unitStored fb) marker h

theorem completeUnit_unitStored_routed {s : State} {fb : Memory} (marker : wordAt fb.read 0 = s.fs.cfg.magic)
    (valid : chselValid s.fs.cfg.chsel = true) (ready : s.kf.ready = true) {z : F64}
    (hz : (tableSample s.fs.cfg s.nanSeq fb.read).num[(chselIndex s.fs.cfg.chsel).toNat]? = some z) :
    completeUnit (s.unitStored fb) = .next
      { s with
        fs := { s.fs with fb := fb, fidx := 0, demand := false }, xt := Extraction.start
        kf := cycled (drawNaN (s.nanSeq + numCount s.fs.cfg.layout)) s.kf z
        nanSeq := s.nanSeq + numCount s.fs.cfg.layout + 1, resp := .accepted
        out := [.sample (tableSample s.fs.cfg s.nanSeq fb.read),
          (cycled (drawNaN (s.nanSeq + numCount s.fs.cfg.layout)) s.kf z).estimate] } :=
  completeUnit_routed (s.unitStored fb) z marker valid ready hz

/-- A byte accepted while collecting. -/
theorem exec_rxFrame_of_accepted {s : State} (hp : s.fs.phase = .frame) (hd : s.fs.demand = true) (d : Byte) :
    exec (.rxFrame d) s = collectByte d s := by
  rw [exec_rxFrame, if_pos ((byteAccepted_iff .frame s.fs (by simp)).mpr ⟨hp, hd⟩)]

/-- A byte that leaves the unit incomplete. -/
theorem exec_rxFrame_storing {s : State} (hp : s.fs.phase = .frame) (hd : s.fs.demand = true)
    (hl : s.fs.fidx.toNat + 1 < frameLen s.fs.cfg.layout) (d : Byte) :
    exec (.rxFrame d) s = .next (s.byteStored d) := by
  have bound := frameLen_le s.fs.cfg.layout
  rw [exec_rxFrame_of_accepted hp hd, collectByte_eq d s (by unfold fbSize; omega), if_pos hl]
  rfl

/-- The byte that completes the unit. -/
theorem exec_rxFrame_completing {s : State} (hp : s.fs.phase = .frame) (hd : s.fs.demand = true)
    (hl : s.fs.fidx.toNat + 1 = frameLen s.fs.cfg.layout) (d : Byte) :
    exec (.rxFrame d) s = completeUnit (s.unitStored (s.fs.fb.write s.fs.fidx.toNat d)) := by
  have bound := frameLen_le s.fs.cfg.layout
  rw [exec_rxFrame_of_accepted hp hd, collectByte_eq d s (by unfold fbSize; omega), if_neg (by omega)]
  rfl

/-- A whole unit that is accepted. -/
theorem receiveUnit_of_accepted {l : Layout} {s : State} (h : unitAccepted l s.fs = true) (u : List Byte) :
    receiveUnit l u s = completeUnit (s.unitStored (storeBytes s.fs.fb 0 u)) := by
  obtain ⟨-, -, -, h0⟩ := (unitAccepted_iff l s.fs).mp h
  rw [receiveUnit, if_pos h, State.unitStored, ← h0]

/-- The position in a unit, one byte on. -/
theorem fidx_succ_toNat {f : FrameSync} (h : f.fidx.toNat + 1 < frameLen f.cfg.layout) :
    (f.fidx + 1).toNat = f.fidx.toNat + 1 := by
  have bound := frameLen_le f.cfg.layout
  bv_omega

/-! ### The bytes of a unit in turn -/

/-- Bytes that complete the unit begun: stored from FIDX on, then the unit is complete. -/
theorem collectBytes_completing (bs : List Byte) (hne : bs ≠ []) (s : State) (hp : s.fs.phase = .frame)
    (hd : s.fs.demand = true) (hl : s.fs.fidx.toNat + bs.length = frameLen s.fs.cfg.layout) :
    collectBytes bs s = completeUnit (s.unitStored (storeBytes s.fs.fb s.fs.fidx.toNat bs)) := by
  induction bs generalizing s with
  | nil => exact (hne rfl).elim
  | cons b bs ih =>
    cases bs with
    | nil =>
      obtain ⟨t, ht⟩ := completeUnit_next (s.unitStored (s.fs.fb.write s.fs.fidx.toNat b))
      rw [collectBytes, exec_rxFrame_completing hp hd hl, storeBytes, storeBytes, ht, andThen_next, collectBytes]
    | cons b' bs =>
      simp only [List.length_cons] at hl ih
      have more : s.fs.fidx.toNat + 1 < frameLen s.fs.cfg.layout := by omega
      have next : (s.byteStored b).fs.fidx.toNat = s.fs.fidx.toNat + 1 := fidx_succ_toNat more
      rw [collectBytes, exec_rxFrame_storing hp hd more, andThen_next,
        ih (by simp) (s.byteStored b) hp hd (by
          rw [next, Nat.add_assoc, Nat.add_comm 1]
          exact hl), next]
      exact completeUnit_answer (s.unitStored (storeBytes s.fs.fb s.fs.fidx.toNat (b :: b' :: bs))) .accepted []

/-- The bytes of a unit in turn, from between two units on, are the unit received. -/
theorem collectBytes_unit {l : Layout} {u : List Byte} (hu : u.length = frameLen l) (s : State)
    (h : unitAccepted l s.fs = true) : collectBytes u s = receiveUnit l u s := by
  obtain ⟨hp, hd, hl, h0⟩ := (unitAccepted_iff l s.fs).mp h
  have start : s.fs.fidx.toNat = 0 := by rw [h0]; rfl
  have nonempty : u ≠ [] := by
    rintro rfl
    have := four_le_frameLen l
    rw [List.length_nil] at hu
    omega
  rw [collectBytes_completing u nonempty s hp hd (by rw [start, hl, hu, Nat.zero_add]), receiveUnit_of_accepted h, start]

/-- Settles O42: each wire frame is the reception of its bytes, which are as many as its layout's units have. -/
theorem wireFrameIsItsBytesInTurn : Obligations.WireFrameIsItsBytesInTurn := by
  unfold Obligations.WireFrameIsItsBytesInTurn
  exact fun s => ⟨fun _ _ _ _ _ _ _ _ h => collectBytes_unit (unitA_length ..) s h,
    fun _ _ _ _ _ _ _ _ _ _ h => collectBytes_unit (unitB_length ..) s h,
    fun _ _ _ _ _ _ _ _ _ h => collectBytes_unit (unitC_length ..) s h⟩

/-! ### One byte -/

/-- The frame buffer as a function once a byte is stored at an offset. -/
theorem read_write_eq {m : Memory} (hm : Memory.wf m = true) (o : Nat) (d : Byte) :
    (m.write o d).read = fun a => if a = o then d else m.read a :=
  funext fun a => Memory.read_write_wf m hm o d a

/-- A byte within a unit is stored within the frame buffer. -/
theorem fidx_lt_of_le_frameLen {f : FrameSync} (h : f.fidx.toNat + 1 ≤ frameLen f.cfg.layout) : f.fidx.toNat < fbSize :=
  lt_of_lt_of_le (Nat.lt_of_succ_le h) (frameLen_le f.cfg.layout)

/-- Settles O22: the byte is stored at FIDX, which is within the buffer. -/
theorem collectingStoresOneByte : Obligations.CollectingStoresOneByte := by
  unfold Obligations.CollectingStoresOneByte
  intro d s hp hd hm hl
  have next : s.fs.fidx + 1 = BitVec.ofNat 6 (s.fs.fidx.toNat + 1) :=
    BitVec.eq_of_toNat_eq (by rw [fidx_succ_toNat hl, BitVec.toNat_ofNat]; have := frameLen_le s.fs.cfg.layout; omega)
  refine ⟨s.fs.fb.write s.fs.fidx.toNat d, ?_, Memory.wf_write _ hm _ (fidx_lt_of_le_frameLen hl.le) d,
    Memory.read_write_wf _ hm _ d⟩
  rw [exec_rxFrame_storing hp hd hl, State.byteStored, next]
  rfl

/-- A channel word without its valid bit routes nothing. -/
theorem chselValid_of_lt {c : BitVec 5} (h : c.toNat < 16) : chselValid c = false :=
  Bool.eq_false_iff.mpr fun valid => absurd ((chselValid_iff c).mp valid) (by omega)

/-- A channel word with its valid bit is that bit and the index. -/
theorem chselIndex_of_toNat {c : BitVec 5} {i : Nat} (hi : i < 16) (h : c.toNat = 16 + i) :
    chselValid c = true ∧ (chselIndex c).toNat = i :=
  ⟨(chselValid_iff c).mpr (by omega), by rw [chselIndex_toNat]; omega⟩

theorem numCount_le (l : Layout) : numCount l ≤ 8 := by cases l <;> decide

/-- Settles O23: the unit is complete with the byte stored, and no channel is routed. -/
theorem completedUnitEmitsItsSample : Obligations.CompletedUnitEmitsItsSample := by
  unfold Obligations.CompletedUnitEmitsItsSample
  intro d s hp hd hm hl hc u marker
  have stored : (s.fs.fb.write s.fs.fidx.toNat d).read = u := read_write_eq hm s.fs.fidx.toNat d
  rw [← stored] at marker ⊢
  exact ⟨s.fs.fb.write s.fs.fidx.toNat d,
    (exec_rxFrame_completing hp hd hl d).trans (completeUnit_unitStored_sample marker (.inl (chselValid_of_lt hc))),
    Memory.wf_write _ hm _ (fidx_lt_of_le_frameLen hl.le) d, fun _ => rfl⟩

/-- Settles O24: the channel is one of the Sample's, and KF runs a cycle on it or is not constructed. -/
theorem selectedChannelIsRoutedToTheEstimator : Obligations.SelectedChannelIsRoutedToTheEstimator := by
  unfold Obligations.SelectedChannelIsRoutedToTheEstimator
  intro d s hp hd hm hl u smp n marker i hi hc
  obtain ⟨valid, index⟩ := chselIndex_of_toNat (by have := numCount_le s.fs.cfg.layout; omega) hc
  have inside : i < smp.num.length := (tableSample_length s.fs.cfg s.nanSeq u).symm ▸ hi
  have stored : (s.fs.fb.write s.fs.fidx.toNat d).read = u := read_write_eq hm s.fs.fidx.toNat d
  have head : wordAt (s.fs.fb.write s.fs.fidx.toNat d).read 0 = s.fs.cfg.magic := stored.symm ▸ marker
  have completing := exec_rxFrame_completing hp hd hl d
  refine ⟨s.fs.fb.write s.fs.fidx.toNat d, smp.num[i], List.getElem?_eq_getElem inside, congrFun stored, fun ready => ?_,
    fun unready => ?_⟩
  · rw [completing, completeUnit_unitStored_routed head valid ready (z := smp.num[i])
      (by rw [stored, index]; exact List.getElem?_eq_getElem inside), stored]
    rfl
  · rw [completing, completeUnit_unitStored_sample head (.inr unready), stored]

/-- Settles O25: the marker is tested with the last byte stored. -/
theorem wrongMarkerEndsTheSequence : Obligations.WrongMarkerEndsTheSequence := by
  unfold Obligations.WrongMarkerEndsTheSequence
  intro d s hp hd hm hl u marker
  have stored : (s.fs.fb.write s.fs.fidx.toNat d).read = u := read_write_eq hm s.fs.fidx.toNat d
  rw [← stored] at marker ⊢
  exact ⟨s.fs.fb.write s.fs.fidx.toNat d,
    (exec_rxFrame_completing hp hd hl d).trans (completeUnit_unitStored_desync marker), fun _ => rfl⟩

/-! ### Wire frames -/

/-- The bytes of a unit once it is stored: its own below its length, the old ones above. -/
theorem read_storeBytes_of_unit {l : Layout} {u : List Byte} (hu : u.length = frameLen l) {m : Memory}
    (hm : Memory.wf m = true) :
    (∀ a, a < frameLen l → (storeBytes m 0 u).read a = u.getD a 0) ∧
      ∀ a, frameLen l ≤ a → (storeBytes m 0 u).read a = m.read a := by
  have bound := frameLen_le l
  obtain ⟨-, reads⟩ := Memory.storeBytes_spec u m 0 hm (by unfold fbSize; omega)
  refine ⟨fun a ha => ?_, fun a ha => ?_⟩
  · rw [reads a, if_pos (by omega), Nat.sub_zero]
  · rw [reads a, if_neg (by omega)]

/-- A whole unit with the session's marker and no channel routed gives the Sample of its bytes. -/
theorem receiveUnit_sample {l : Layout} {u : List Byte} (hu : u.length = frameLen l) {s : State}
    (h : unitAccepted l s.fs = true) (hm : Memory.wf s.fs.fb = true) (hc : s.fs.cfg.chsel.toNat < 16)
    (marker : unitWord u 0 = s.fs.cfg.magic) :
    receiveUnit l u s = .next
      { s with
        fs := { s.fs with fb := storeBytes s.fs.fb 0 u, demand := false }, xt := Extraction.start
        nanSeq := s.nanSeq + numCount l, resp := .accepted
        out := [.sample (tableSample s.fs.cfg s.nanSeq (storeBytes s.fs.fb 0 u).read)] } := by
  obtain ⟨-, -, hl, h0⟩ := (unitAccepted_iff l s.fs).mp h
  have bound := frameLen_le l
  have atLeast := four_le_frameLen l
  have head : wordAt (storeBytes s.fs.fb 0 u).read 0 = s.fs.cfg.magic :=
    (wordAt_storeBytes s.fs.fb hm u (by omega) 0 (by omega)).trans marker
  rw [receiveUnit_of_accepted h, completeUnit_unitStored_sample head (.inl (chselValid_of_lt hc)), ← h0, hl]

/-- A Sample is made of the payload bytes of its layout; the marker and the pad byte of layout C are not among them. -/
theorem tableSample_congr (c : FsConfig) (seq : Nat) {u v : Nat → Byte}
    (h : ∀ a, 4 ≤ a → a < frameLen c.layout → ¬(c.layout = .c ∧ a = 31) → u a = v a) :
    tableSample c seq u = tableSample c seq v := by
  obtain ⟨lenA, lenB, lenC⟩ := frameLen_eq
  unfold tableSample
  cases hl : c.layout with
  | a =>
    have agree (a : Nat) (h4 : 4 ≤ a) (ha : a < 32) : u a = v a := h a h4 (by rwa [hl, lenA]) (by simp [hl])
    simp (disch := decide) only [wordAt_eq, halfAt_eq, agree]
  | b =>
    have agree (a : Nat) (h4 : 4 ≤ a) (ha : a < 36) : u a = v a := h a h4 (by rwa [hl, lenB]) (by simp [hl])
    simp (disch := decide) only [wordAt_eq, halfAt_eq, agree]
  | c =>
    have agree (a : Nat) (h4 : 4 ≤ a) (ha : a < 31) : u a = v a := h a h4 (by rw [hl, lenC]; omega) (by omega)
    simp (disch := decide) only [wordAt_eq, halfAt_eq, agree]

/-- The Sample of a stored unit is that of its bytes. -/
theorem tableSample_storeBytes (c : FsConfig) (seq : Nat) {u : List Byte} (hu : u.length = frameLen c.layout) {m : Memory}
    (hm : Memory.wf m = true) : tableSample c seq (storeBytes m 0 u).read = tableSample c seq (unitByte u) :=
  tableSample_congr c seq fun a _ ha _ => (read_storeBytes_of_unit hu hm).1 a ha

theorem wordAt_unitByte (u : List Byte) (o : Nat) : wordAt (unitByte u) o = unitWord u o := wordAt_eq _ o

theorem halfAt_unitByte (u : List Byte) (o : Nat) : halfAt (unitByte u) o = unitHalf u o := halfAt_eq _ o

/-- Settles O39: the fields of the stored unit are those of the frame. -/
theorem layoutAFrameEmitsItsFields : Obligations.LayoutAFrameEmitsItsFields := by
  unfold Obligations.LayoutAFrameEmitsItsFields
  intro f0 f1 f2 f3 f4 f5 u0 u1 s h hm hmagic hc c n
  obtain ⟨-, -, hl, -⟩ := (unitAccepted_iff _ s.fs).mp h
  have hu := unitA_length f0 f1 f2 f3 f4 f5 u0 u1
  have fields := frameOfUnit_unitA f0 f1 f2 f3 f4 f5 u0 u1
  rw [frameOfUnit, Instr.frameA.injEq] at fields
  obtain ⟨inside, outside⟩ := read_storeBytes_of_unit (l := .a) hu hm
  refine ⟨_, (receiveUnit_sample hu h hm hc ((unitWord_of_bytes _ _ _ rfl).trans hmagic.symm)).trans ?_, inside, outside⟩
  rw [tableSample_storeBytes _ _ (by rw [hl, hu]; rfl) hm]
  simp only [tableSample, hl, wordAt_unitByte, halfAt_unitByte, fields]
  rfl

/-- Settles O40: as layout A, with the fault code before the state code. -/
theorem layoutBFrameEmitsItsFields : Obligations.LayoutBFrameEmitsItsFields := by
  unfold Obligations.LayoutBFrameEmitsItsFields
  intro f0 f1 f2 f3 f4 f5 f6 u0 fault state s h hm hmagic hc c n
  obtain ⟨-, -, hl, -⟩ := (unitAccepted_iff _ s.fs).mp h
  have hu := unitB_length f0 f1 f2 f3 f4 f5 f6 u0 fault state
  have fields := frameOfUnit_unitB f0 f1 f2 f3 f4 f5 f6 u0 fault state
  rw [frameOfUnit, Instr.frameB.injEq] at fields
  obtain ⟨inside, outside⟩ := read_storeBytes_of_unit (l := .b) hu hm
  refine ⟨_, (receiveUnit_sample hu h hm hc ((unitWord_of_bytes _ _ _ rfl).trans hmagic.symm)).trans ?_, inside, outside⟩
  rw [tableSample_storeBytes _ _ (by rw [hl, hu]; rfl) hm]
  simp only [tableSample, hl, wordAt_unitByte, halfAt_unitByte, fields]
  rfl

/-- Settles O41: as layout A, with the fault code; the pad byte is stored and not read. -/
theorem layoutCFrameEmitsItsFields : Obligations.LayoutCFrameEmitsItsFields := by
  unfold Obligations.LayoutCFrameEmitsItsFields
  intro f0 f1 f2 f3 f4 f5 u0 fault pad s h hm hmagic hc c n
  obtain ⟨-, -, hl, -⟩ := (unitAccepted_iff _ s.fs).mp h
  have hu := unitC_length f0 f1 f2 f3 f4 f5 u0 fault pad
  have fields := frameOfUnit_unitC f0 f1 f2 f3 f4 f5 u0 fault pad
  rw [frameOfUnit, Instr.frameC.injEq] at fields
  obtain ⟨inside, outside⟩ := read_storeBytes_of_unit (l := .c) hu hm
  refine ⟨_, (receiveUnit_sample hu h hm hc ((unitWord_of_bytes _ _ _ rfl).trans hmagic.symm)).trans ?_, inside, outside⟩
  rw [tableSample_storeBytes _ _ (by rw [hl, hu]; rfl) hm]
  simp only [tableSample, hl, wordAt_unitByte, halfAt_unitByte, fields]
  rfl

/-! ### The frame buffer -/

/-- Settles O31: reads and writes within 36 offsets, and none beyond. -/
theorem frameBufferReadsWhatWasStored : Obligations.FrameBufferReadsWhatWasStored := by
  unfold Obligations.FrameBufferReadsWhatWasStored
  intro m off b hm
  have size : fbSize = 36 := rfl
  refine ⟨fun h => ⟨_, (memWrite1_eq_some m off b _).mpr ⟨h, rfl⟩, Memory.wf_write m hm off h b, Memory.read_write_wf m hm off b⟩,
    fun h => if_neg (by omega), fun h => ⟨_, memRead1_of_le m off h, rfl⟩,
    fun h => ⟨_, memRead2_of_le m off h, le16_toNat _ _⟩, fun h => ⟨_, memRead4_of_le m off h, le32_toNat _ _ _ _⟩,
    fun h => if_neg (by omega), fun h => if_neg (by omega), fun h => if_neg (by omega)⟩

/-- Hunting leaves the frame buffer alone. -/
@[simp] theorem FrameSync.hunted_fb (f : FrameSync) (d : Byte) : (f.hunted d).fb = f.fb := by
  rw [FrameSync.hunted_frame]

/-- Skipping leaves the frame buffer alone. -/
@[simp] theorem FrameSync.skipped_fb (f : FrameSync) : f.skipped.fb = f.fb := by
  rw [FrameSync.skipped_frame]

/-- Storing a unit writes no byte beyond its length, whether the unit is accepted or held. -/
theorem receiveUnit_read_beyond {l : Layout} {u : List Byte} (hu : u.length = frameLen l) (s t : State)
    (hm : Memory.wf s.fs.fb = true) (h : receiveUnit l u s = .next t) (a : Nat) (ha : frameLen l ≤ a) :
    t.fs.fb.read a = s.fs.fb.read a := by
  rcases receiveUnit_frame l u s t h with ⟨-, rfl⟩ | ⟨-, -, fb, -⟩
  · rfl
  · rw [fb, (read_storeBytes_of_unit hu hm).2 a ha]

/-- Settles O32: a collected byte is written at FIDX, a unit below its length; every other operation leaves the frame buffer
as it is. -/
theorem onlyUnitBytesReachTheFrameBuffer : Obligations.OnlyUnitBytesReachTheFrameBuffer := by
  unfold Obligations.OnlyUnitBytesReachTheFrameBuffer
  intro i s t hm h
  have kept (e : t.fs = s.fs) : t.fs.fb = s.fs.fb := congrArg FrameSync.fb e
  cases i with
  | nop =>
    cases h
    rfl
  | next =>
    rcases exec_next_cases s with ⟨o, e⟩ | ⟨-, e⟩ <;> rw [e] at h <;> cases h <;> rfl
  | start cfg =>
    rcases exec_start_cases cfg s with ⟨-, l, -, e⟩ | ⟨-, e⟩ <;> rw [e] at h <;> cases h <;> rfl
  | rxHunt d =>
    rw [exec_rxHunt] at h
    split at h <;> cases h
    · exact s.fs.hunted_fb d
    · rfl
  | rxSkip d =>
    rw [exec_rxSkip] at h
    split at h <;> cases h
    · exact s.fs.skipped_fb
    · rfl
  | rxFrame d =>
    intro a ha
    rcases rxFrame_cases d s t h with ⟨-, rfl⟩ | ⟨-, hc⟩
    · rfl
    · obtain ⟨-, -, fb, -⟩ := collectByte_frame d s t hc
      rw [fb, Memory.read_write_wf _ hm, if_neg ha]
  | eos x =>
    rw [exec_eos] at h
    split at h <;> cases h <;> rfl
  | pad8 => exact kept (execField_fs .pad8 s t h)
  | u8eFault => exact kept (execField_fs .u8eFault s t h)
  | u8eState => exact kept (execField_fs .u8eState s t h)
  | u16 => exact kept (execField_fs .u16 s t h)
  | f32 => exact kept (execField_fs .f32 s t h)
  | kfInit dt q r p0 =>
    cases h
    rfl
  | kfStep z =>
    rcases exec_kfStep_cases z s with e | e <;> rw [e] at h <;> cases h <;> rfl
  | chx c => exact kept (execChx_fs c s t h)
  | frameA f0 f1 f2 f3 f4 f5 u0 u1 => exact receiveUnit_read_beyond (l := .a) (unitA_length ..) s t hm h
  | frameB f0 f1 f2 f3 f4 f5 f6 u0 fault state => exact receiveUnit_read_beyond (l := .b) (unitB_length ..) s t hm h
  | frameC f0 f1 f2 f3 f4 f5 u0 fault pad => exact receiveUnit_read_beyond (l := .c) (unitC_length ..) s t hm h

end Sys2Proof.Machine
end

section
/-! SUPPORT. Proofs of the statements of 40_frame_sync.md sections 1 to 3 and 10_state.md R28: the control operations of FS, the events
it does not accept, the phase transition table and the status outputs. -/

namespace Sys2Proof.Machine

/-! ### START and NEXT -/

/-- The layout code 11 is reserved, and a valid channel beyond the layout's fields is illegal (30_encoding.md R107). -/
theorem configLegal_of_illegal {cfg : ConfigInputs}
    (h : cfg.layout = 3 ∨
      ∃ l, layoutOfCode cfg.layout = some l ∧ 16 ≤ cfg.chsel.toNat ∧ numCount l ≤ cfg.chsel.toNat - 16) :
    configLegal cfg = false := by
  rcases h with h | ⟨l, hl, valid, beyond⟩
  · have none : layoutOfCode cfg.layout = none := by rw [h]; rfl
    simp only [configLegal, none]
  · have index : ¬ (chselIndex cfg.chsel).toNat < numCount l := by
      have := cfg.chsel.isLt
      rw [chselIndex_toNat]
      omega
    simp only [configLegal, hl, (chselValid_iff _).mpr valid, index]
    rfl

/-- Settles O19: neither configuration is legal, and START refuses every one that is not. -/
theorem illegalStartIsRefused : Obligations.IllegalStartIsRefused := by
  unfold Obligations.IllegalStartIsRefused
  intro cfg s h
  have illegal := configLegal_of_illegal h
  rcases exec_start_cases cfg s with ⟨legal, -⟩ | ⟨-, refused⟩
  · rw [illegal] at legal
    cases legal
  · exact refused

/-- Settles O17: NEXT in IDLE, in the active phases and in DONE. -/
theorem nextDemandsOrRepeatsTheEnd : Obligations.NextDemandsOrRepeatsTheEnd := by
  unfold Obligations.NextDemandsOrRepeatsTheEnd
  exact fun s => ⟨exec_next_of_idle s, exec_next_of_active s, exec_next_of_done s⟩

/-! ### Hunting and skipping -/

/-- A byte accepted while hunting. -/
theorem exec_rxHunt_of_accepted {s : State} (hp : s.fs.phase = .hunt) (hd : s.fs.demand = true) (d : Byte) :
    exec (.rxHunt d) s = .next ((s.withFs (s.fs.hunted d)).accept []) := by
  rw [exec_rxHunt, if_pos ((byteAccepted_iff .hunt s.fs (by simp)).mpr ⟨hp, hd⟩)]

/-- A byte accepted while skipping. -/
theorem exec_rxSkip_of_accepted {s : State} (hp : s.fs.phase = .skip) (hd : s.fs.demand = true) (d : Byte) :
    exec (.rxSkip d) s = .next ((s.withFs s.fs.skipped).accept []) := by
  rw [exec_rxSkip, if_pos ((byteAccepted_iff .skip s.fs (by simp)).mpr ⟨hp, hd⟩)]

/-- The count of the window as the number that 40_frame_sync.md R134 gives. -/
theorem countWindow_eq (c : BitVec 3) : countWindow c = BitVec.ofNat 3 (min (c.toNat + 1) 4) := by
  revert c
  decide

/-- Hunting locks exactly when the window is full and equals the marker. -/
theorem lock_iff (f : FrameSync) (d : Byte) :
    (countWindow f.wcnt = 4 ∧ shiftWindow f.w d = f.cfg.magic) ↔
      (min (f.wcnt.toNat + 1) 4 = 4 ∧ BitVec.ofNat 32 (f.w.toNat / 256 + 16777216 * d.toNat) = f.cfg.magic) := by
  rw [countWindow_eq_four, shiftWindow_eq, min_eq_right_iff]

/-- Settles O20: no lock, a lock with a header, a lock without one. -/
theorem huntingShiftsTheWindowAndLocks : Obligations.HuntingShiftsTheWindowAndLocks := by
  unfold Obligations.HuntingShiftsTheWindowAndLocks
  intro d s hp hd w c hb
  have hunts := exec_rxHunt_of_accepted hp hd d
  have full (h : c = 4) : countWindow s.fs.wcnt = 4 := by rw [countWindow_eq, show min _ 4 = 4 from h]; rfl
  refine ⟨fun search => ?_, fun lock header => ?_, fun lock none => ?_⟩
  · rw [hunts, s.fs.hunted_search d (mt (lock_iff s.fs d).mp search), shiftWindow_eq, countWindow_eq]
    rfl
  · have positive : hdrBytes s.fs.cfg ≠ 0 := by
      rw [ne_eq, hdrBytes_eq_zero]
      omega
    rw [hunts, s.fs.hunted_lock_skip d ((lock_iff s.fs d).mpr lock) positive, shiftWindow_eq, full lock.1]
    rfl
  · have zero : hdrBytes s.fs.cfg = 0 := by
      rw [hdrBytes_eq_zero]
      omega
    rw [hunts, s.fs.hunted_lock_frame d ((lock_iff s.fs d).mpr lock) zero, shiftWindow_eq, full lock.1]
    rfl

/-- The last byte of the header: FS collects units from the next byte on. -/
theorem FrameSync.skipped_last {f : FrameSync} (h : f.skipcnt.toNat = 1) :
    f.skipped = { f with skipcnt := 0, phase := .frame, fidx := 0 } := by
  have last : f.skipcnt = 1 := BitVec.eq_of_toNat_eq h
  have zero : f.skipcnt - 1 = 0 := by rw [last]; rfl
  simp only [FrameSync.skipped, zero, if_true]

/-- A byte of the header before its last: one less to come. -/
theorem FrameSync.skipped_more {f : FrameSync} (h : f.skipcnt.toNat ≠ 1) : f.skipped = { f with skipcnt := f.skipcnt - 1 } := by
  have more : f.skipcnt - 1 ≠ 0 := by bv_omega
  simp only [FrameSync.skipped, if_neg more]

/-- Settles O21: the count goes down to 0, where FS collects. -/
theorem skippingCountsTheHeaderDown : Obligations.SkippingCountsTheHeaderDown := by
  unfold Obligations.SkippingCountsTheHeaderDown
  intro d s hp hd positive
  have skips := exec_rxSkip_of_accepted hp hd d
  refine ⟨fun last => ?_, fun more => ?_⟩
  · rw [skips, FrameSync.skipped_last last]
    rfl
  · have less : s.fs.skipcnt - 1 = BitVec.ofNat 6 (s.fs.skipcnt.toNat - 1) := by bv_omega
    rw [skips, FrameSync.skipped_more (by omega), less]
    rfl

/-! ### EOS, and the events that are not accepted -/

/-- Settles O26: EOS is read in every mode, ends the active phases on demand, and is held elsewhere. -/
theorem closedSourceEndsTheSequence : Obligations.ClosedSourceEndsTheSequence := by
  unfold Obligations.ClosedSourceEndsTheSequence
  refine fun x s => ⟨fun m => decodeSrc_srcClosed m.phase x, fun active demand => ?_, fun inactive => ?_⟩
  · rw [exec_eos, if_pos ((rxReady_iff s.fs).mpr ⟨active, demand⟩)]
    rfl
  · rw [exec_eos, if_neg (mt (rxReady_iff s.fs).mp inactive)]
    rfl

/-- A unit is held outside FRAME, without a demand, under another layout, or within a unit. -/
theorem receiveUnit_held_of {l : Layout} {s : State} (u : List Byte)
    (h : s.fs.phase ≠ .frame ∨ s.fs.demand = false ∨ s.fs.cfg.layout ≠ l ∨ s.fs.fidx ≠ 0) :
    receiveUnit l u s = .next s.hold := by
  have closed : ¬ unitAccepted l s.fs = true := by
    rw [unitAccepted_iff]
    rintro ⟨hp, hd, hl, h0⟩
    simp [hp, hd, hl, h0] at h
  rw [receiveUnit, if_neg closed]

/-- A byte event is held outside its phase or without a demand. -/
theorem byteAccepted_of_outside {p : Phase} {f : FrameSync} (hp : p = .hunt ∨ p = .skip ∨ p = .frame)
    (h : f.phase ≠ p ∨ f.demand = false) : ¬ byteAccepted p f = true := by
  rw [byteAccepted_iff p f hp]
  rintro ⟨phase, demand⟩
  simp [phase, demand] at h

/-- Settles O28: outside its condition no event is accepted. -/
theorem eventsOutsideTheirPhaseAreHeld : Obligations.EventsOutsideTheirPhaseAreHeld := by
  unfold Obligations.EventsOutsideTheirPhaseAreHeld
  intro i s h
  cases i with
  | rxHunt d => exact (exec_rxHunt d s).trans (if_neg (byteAccepted_of_outside (by simp) h))
  | rxSkip d => exact (exec_rxSkip d s).trans (if_neg (byteAccepted_of_outside (by simp) h))
  | rxFrame d => exact (exec_rxFrame d s).trans (if_neg (byteAccepted_of_outside (by simp) h))
  | eos x =>
    refine (exec_eos x s).trans (if_neg ?_)
    rw [rxReady_iff]
    rintro ⟨active, demand⟩
    rcases active with a | a | a <;> simp [a, demand] at h
  | frameA f0 f1 f2 f3 f4 f5 u0 u1 => exact receiveUnit_held_of _ h
  | frameB f0 f1 f2 f3 f4 f5 f6 u0 fault state => exact receiveUnit_held_of _ h
  | frameC f0 f1 f2 f3 f4 f5 u0 fault pad => exact receiveUnit_held_of _ h
  | nop => exact h.elim
  | next => exact h.elim
  | start cfg => exact h.elim
  | pad8 => exact h.elim
  | u8eFault => exact h.elim
  | u8eState => exact h.elim
  | u16 => exact h.elim
  | f32 => exact h.elim
  | kfInit dt q r p0 => exact h.elim
  | kfStep z => exact h.elim
  | chx c => exact h.elim

/-! ### The phase transition table -/

/-- The phase after a byte hunted. -/
theorem FrameSync.hunted_phase (f : FrameSync) (d : Byte) :
    (f.hunted d).phase =
      if countWindow f.wcnt = 4 ∧ shiftWindow f.w d = f.cfg.magic then
        (if 0 < f.cfg.hdrWords.toNat then .skip else .frame)
      else f.phase := by
  by_cases lock : countWindow f.wcnt = 4 ∧ shiftWindow f.w d = f.cfg.magic
  · rw [if_pos lock]
    by_cases hb : hdrBytes f.cfg = 0
    · rw [f.hunted_lock_frame d lock hb, if_neg (by have := (hdrBytes_eq_zero f.cfg).mp hb; omega)]
    · rw [f.hunted_lock_skip d lock hb, if_pos (Nat.pos_of_ne_zero (mt (hdrBytes_eq_zero f.cfg).mpr hb))]
  · rw [if_neg lock, f.hunted_search d lock]

/-- The phase after a byte skipped. -/
theorem FrameSync.skipped_phase (f : FrameSync) : f.skipped.phase = if f.skipcnt.toNat = 1 then .frame else f.phase := by
  by_cases last : f.skipcnt.toNat = 1
  · rw [FrameSync.skipped_last last, if_pos last]
  · rw [FrameSync.skipped_more last, if_neg last]

/-- The phase after RX.HUNT, which never ends a sequence. -/
theorem exec_rxHunt_phase (d : Byte) (s t : State) (h : exec (.rxHunt d) s = .next t) :
    (t.fs.phase =
        if s.fs.phase = .hunt ∧ s.fs.demand = true ∧ 4 ≤ s.fs.wcnt.toNat + 1 ∧
            BitVec.ofNat 32 (s.fs.w.toNat / 256 + 16777216 * d.toNat) = s.fs.cfg.magic then
          (if 0 < s.fs.cfg.hdrWords.toNat then .skip else .frame)
        else s.fs.phase) ∧
      (s.fs.phase ≠ .done → t.fs.phase = .done → t.fs.cause = .desync) := by
  rw [exec_rxHunt] at h
  split at h <;> cases h
  · rename_i taken
    obtain ⟨hp, hd⟩ := (byteAccepted_iff .hunt s.fs (by simp)).mp taken
    have table := s.fs.hunted_phase d
    simp only [countWindow_eq_four, shiftWindow_eq] at table
    simp only [State.accept_fs, State.withFs_fs, hp, hd, true_and]
    rw [hp] at table
    refine ⟨table, fun _ done => ?_⟩
    rw [table] at done
    split_ifs at done
  · rename_i closed
    rw [byteAccepted_iff .hunt s.fs (by simp)] at closed
    exact ⟨(if_neg fun c => closed ⟨c.1, c.2.1⟩).symm, fun n d => (n d).elim⟩

/-- The phase after RX.SKIP, which never ends a sequence. -/
theorem exec_rxSkip_phase (d : Byte) (s t : State) (h : exec (.rxSkip d) s = .next t) :
    (t.fs.phase =
        if s.fs.phase = .skip ∧ s.fs.demand = true ∧ s.fs.skipcnt.toNat = 1 then .frame else s.fs.phase) ∧
      (s.fs.phase ≠ .done → t.fs.phase = .done → t.fs.cause = .desync) := by
  rw [exec_rxSkip] at h
  split at h <;> cases h
  · rename_i taken
    obtain ⟨hp, hd⟩ := (byteAccepted_iff .skip s.fs (by simp)).mp taken
    have table := s.fs.skipped_phase
    simp only [State.accept_fs, State.withFs_fs, hp, hd, true_and]
    rw [hp] at table
    refine ⟨table, fun _ done => ?_⟩
    rw [table] at done
    split_ifs at done
  · rename_i closed
    rw [byteAccepted_iff .skip s.fs (by simp)] at closed
    exact ⟨(if_neg fun c => closed ⟨c.1, c.2.1⟩).symm, fun n d => (n d).elim⟩

/-- The phase after RX.FRAME, and the cause where it is DONE. -/
theorem exec_rxFrame_phase (d : Byte) (s t : State) (hm : Memory.wf s.fs.fb = true) (h : exec (.rxFrame d) s = .next t) :
    (t.fs.phase =
        if s.fs.phase = .frame ∧ s.fs.demand = true ∧ frameLen s.fs.cfg.layout ≤ s.fs.fidx.toNat + 1 ∧
            wordAt (fun a => if a = s.fs.fidx.toNat then d else s.fs.fb.read a) 0 ≠ s.fs.cfg.magic then .done
        else s.fs.phase) ∧
      (s.fs.phase ≠ .done → t.fs.phase = .done → t.fs.cause = .desync) := by
  rcases rxFrame_cases d s t h with ⟨closed, rfl⟩ | ⟨⟨hp, hd⟩, hc⟩
  · exact ⟨(if_neg fun c => closed ⟨c.1, c.2.1⟩).symm, fun h c => (h c).elim⟩
  · obtain ⟨-, -, -, ⟨more, phase, -⟩ | ⟨full, -, -, ⟨marker, phase, cause, -⟩ | ⟨marker, phase, -⟩⟩⟩ := collectByte_frame d s t hc
    · exact ⟨phase.trans (if_neg fun c => absurd c.2.2.1 (by omega)).symm, fun h c => (h (phase.symm.trans c)).elim⟩
    · rw [read_write_eq hm] at marker
      exact ⟨phase.trans (if_pos ⟨hp, hd, full, marker⟩).symm, fun _ _ => cause⟩
    · rw [read_write_eq hm] at marker
      exact ⟨phase.trans (if_neg fun c => c.2.2.2 marker).symm, fun h c => (h (phase.symm.trans c)).elim⟩

/-- The phase after a whole unit that begins with the marker constant, and the cause where it is DONE. -/
theorem receiveUnit_phase {l : Layout} {u : List Byte} (s t : State)
    (head : wordAt (storeBytes s.fs.fb 0 u).read 0 = magic) (h : receiveUnit l u s = .next t) :
    (t.fs.phase = if unitAccepted l s.fs = true ∧ s.fs.cfg.magic ≠ magic then .done else s.fs.phase) ∧
      (s.fs.phase ≠ .done → t.fs.phase = .done → t.fs.cause = .desync) := by
  rcases receiveUnit_frame l u s t h with
    ⟨closed, rfl⟩ | ⟨accepted, -, -, -, -, ⟨marker, phase, cause, -⟩ | ⟨marker, phase, -⟩⟩
  · exact ⟨(if_neg fun c => by simp [closed] at c).symm, fun h c => (h c).elim⟩
  · exact ⟨phase.trans (if_pos ⟨accepted, fun e => marker (head.trans e.symm)⟩).symm, fun _ _ => cause⟩
  · exact ⟨phase.trans (if_neg fun c => c.2 (marker.symm.trans head)).symm, fun h c => (h (phase.symm.trans c)).elim⟩

/-- Settles O29: START and the source's events move the phase as their own lemmas say; no other operation does. -/
theorem phaseFollowsTheTransitionTable : Obligations.PhaseFollowsTheTransitionTable := by
  unfold Obligations.PhaseFollowsTheTransitionTable
  intro i s t hm h
  have kept {c : Cause} (e : t.fs.phase = s.fs.phase) :
      t.fs.phase = s.fs.phase ∧ (s.fs.phase ≠ .done → t.fs.phase = .done → t.fs.cause = c) :=
    ⟨e, fun n d => (n (e.symm.trans d)).elim⟩
  cases i with
  | nop =>
    cases h
    exact kept rfl
  | next =>
    rcases exec_next_cases s with ⟨o, e⟩ | ⟨-, e⟩ <;> rw [e] at h <;> cases h <;> exact kept rfl
  | start cfg =>
    rcases exec_start_cases cfg s with ⟨legal, l, -, e⟩ | ⟨illegal, e⟩ <;> rw [e] at h <;> cases h
    · exact ⟨(if_pos legal).symm, fun _ c => by cases c⟩
    · exact ⟨(if_neg (by simp [illegal])).symm, fun n d => (n d).elim⟩
  | rxHunt d => exact exec_rxHunt_phase d s t h
  | rxSkip d => exact exec_rxSkip_phase d s t h
  | rxFrame d => exact exec_rxFrame_phase d s t hm h
  | eos x =>
    rw [exec_eos] at h
    split at h <;> cases h
    · rename_i ready
      exact ⟨(if_pos ready).symm, fun _ _ => rfl⟩
    · rename_i closed
      exact ⟨(if_neg closed).symm, fun n d => (n d).elim⟩
  | pad8 => exact kept (congrArg FrameSync.phase (execField_fs .pad8 s t h))
  | u8eFault => exact kept (congrArg FrameSync.phase (execField_fs .u8eFault s t h))
  | u8eState => exact kept (congrArg FrameSync.phase (execField_fs .u8eState s t h))
  | u16 => exact kept (congrArg FrameSync.phase (execField_fs .u16 s t h))
  | f32 => exact kept (congrArg FrameSync.phase (execField_fs .f32 s t h))
  | kfInit dt q r p0 =>
    cases h
    exact kept rfl
  | kfStep z =>
    rcases exec_kfStep_cases z s with e | e <;> rw [e] at h <;> cases h <;> exact kept rfl
  | chx c => exact kept (congrArg FrameSync.phase (execChx_fs c s t h))
  | frameA f0 f1 f2 f3 f4 f5 u0 u1 => exact receiveUnit_phase s t (wordAt_unitA _ hm ..) h
  | frameB f0 f1 f2 f3 f4 f5 f6 u0 fault state => exact receiveUnit_phase s t (wordAt_unitB _ hm ..) h
  | frameC f0 f1 f2 f3 f4 f5 u0 fault pad => exact receiveUnit_phase s t (wordAt_unitC _ hm ..) h

/-! ### The status outputs -/

/-- Each cause has a code of its own. -/
theorem causeFlag_iff (f : FrameSync) :
    (causeFlag f = 0 ↔ f.cause = .none) ∧ (causeFlag f = 1 ↔ f.cause = .eos) ∧ (causeFlag f = 2 ↔ f.cause = .desync) := by
  unfold causeFlag
  cases f.cause <;> decide

/-- Settles O30: the read request, the two phases shown, and the code of the cause. -/
theorem statusOutputsAreFunctionsOfTheState : Obligations.StatusOutputsAreFunctionsOfTheState := by
  unfold Obligations.StatusOutputsAreFunctionsOfTheState
  exact fun f => ⟨rxReady_iff f, by simp [hunting], by simp [doneFlag], causeFlag_iff f⟩

end Sys2Proof.Machine
end

section
/-! SUPPORT. Proofs of the statements of 41_field_extract.md sections 2 to 5: the extraction operations, the integer conversion, and
what a Sample depends on. -/

namespace Sys2Proof.Machine

/-! ### Numeric fields -/

/-- The scaling of a field by its own entry; above index 7 by none (log 17). -/
theorem scaleField_eq (c : FsConfig) (seq i : Nat) (r : F64) (e : Scaling) (low : ∀ h : i < 8, e = c.scaling[i])
    (high : 8 ≤ i → e.en = false) :
    scaleField c seq i r =
      if e.en = true then fadd (drawNaN seq 2) (fmul (drawNaN seq 1) e.scale r) e.offset else r := by
  by_cases h : i < 8
  · have entry : scalingOf c i = e := by
      rw [low h, scalingOf, List.getElem?_eq_getElem (by simpa using h)]
      simp
    rw [scaleField, entry]
  · have entry : scalingOf c i = noScaling := by
      rw [scalingOf, List.getElem?_eq_none (by simpa using h), Option.getD_none]
    simp only [scaleField, entry, high (by omega), noScaling, Bool.false_eq_true, if_false]

/-- F32 within the frame buffer. -/
theorem exec_f32_of_le {s : State} (h : s.xt.off + 4 ≤ 36) :
    exec .f32 s = .next (s.pushNum 4 (f32Channel s.fs.cfg s.nanSeq s.xt.num.length (wordAt s.fs.fb.read s.xt.off))) := by
  rw [wordAt_eq]
  simp only [exec, execF32, memRead4_of_le _ _ h]

/-- U16 within the frame buffer. -/
theorem exec_u16_of_le {s : State} (h : s.xt.off + 2 ≤ 36) :
    exec .u16 s = .next (s.pushNum 2 (u16Channel s.fs.cfg s.nanSeq s.xt.num.length (halfAt s.fs.fb.read s.xt.off))) := by
  rw [halfAt_eq]
  simp only [exec, execU16, memRead2_of_le _ _ h]

/-- Settles O33: the operand is read, converted, and scaled by its own entry. -/
theorem numericFieldsAreReadConvertedAndScaled : Obligations.NumericFieldsAreReadConvertedAndScaled := by
  unfold Obligations.NumericFieldsAreReadConvertedAndScaled
  intro s e low high scaled
  have scale (r : F64) : scaleField s.fs.cfg s.nanSeq s.xt.num.length r = scaled r := scaleField_eq _ _ _ r e low high
  refine ⟨fun h => ?_, fun h => ?_⟩
  · rw [exec_f32_of_le h, f32Channel, scale]
    rfl
  · rw [exec_u16_of_le h, u16Channel, scale]
    rfl

/-! ### Enumerated codes -/

/-- A table of rising codes has at most one entry for a code, and it is the one found. -/
theorem tableEntry_of_mem {t : LabelTable} (h : LabelTable.wf t = true) {c : Byte} {l : Label} (hl : (c, l) ∈ t) :
    tableEntry t c = some l := by
  have rising : t.Pairwise fun p q => p.1.toNat < q.1.toNat := by simpa [LabelTable.wf] using h
  clear h
  induction t with
  | nil => cases hl
  | cons p t ih =>
    obtain ⟨k, m⟩ := p
    obtain ⟨below, rising⟩ := List.pairwise_cons.mp rising
    rcases List.mem_cons.mp hl with here | later
    · cases here
      exact if_pos rfl
    · have ne : c ≠ k := by
        rintro rfl
        exact lt_irrefl _ (below (c, l) later)
      rw [tableEntry, if_neg ne]
      exact ih later rising

/-- A code without an entry is not found. -/
theorem tableEntry_of_not_mem {t : LabelTable} {c : Byte} (h : ∀ l, (c, l) ∉ t) : tableEntry t c = none := by
  induction t with
  | nil => rfl
  | cons p t ih =>
    obtain ⟨k, m⟩ := p
    have ne : c ≠ k := by
      rintro rfl
      exact h m List.mem_cons_self
    rw [tableEntry, if_neg ne]
    exact ih fun l hl => h l (List.mem_cons_of_mem _ hl)

/-- The resolution of a code by its table: the label of its entry, or Unknown. -/
theorem resolve_spec {t : LabelTable} (h : LabelTable.wf t = true) (c : Byte) :
    (resolve t c).code = c ∧ (∀ l, (c, l) ∈ t → (resolve t c).res = .known l) ∧
      ((∀ l, (c, l) ∉ t) → (resolve t c).res = .unknown) := by
  refine ⟨?_, fun l hl => ?_, fun none => ?_⟩
  · unfold resolve
    split <;> rfl
  · simp only [resolve, tableEntry_of_mem h hl]
  · simp only [resolve, tableEntry_of_not_mem none]

/-- U8E.FAULT within the frame buffer. -/
theorem exec_u8eFault_of_le {s : State} (h : s.xt.off + 1 ≤ 36) :
    exec .u8eFault s = .next
      { s with xt := { s.xt with
          off := s.xt.off + 1, fault := some (resolve s.fs.cfg.faultTable (s.fs.fb.read s.xt.off)) } } := by
  simp only [exec, execU8eFault, memRead1_of_le _ _ h]

/-- U8E.STATE within the frame buffer. -/
theorem exec_u8eState_of_le {s : State} (h : s.xt.off + 1 ≤ 36) :
    exec .u8eState s = .next
      { s with xt := { s.xt with
          off := s.xt.off + 1, state := some (resolve s.fs.cfg.stateTable (s.fs.fb.read s.xt.off)) } } := by
  simp only [exec, execU8eState, memRead1_of_le _ _ h]

/-- Settles O34: each code is resolved in its own table; the pad byte is passed over. -/
theorem codesAreResolvedAndPadIsSkipped : Obligations.CodesAreResolvedAndPadIsSkipped := by
  unfold Obligations.CodesAreResolvedAndPadIsSkipped
  exact ⟨fun _ => rfl, fun s h => ⟨fun wf => ⟨_, resolve_spec wf _, exec_u8eFault_of_le h⟩,
    fun wf => ⟨_, resolve_spec wf _, exec_u8eState_of_le h⟩⟩⟩

/-- Settles O35: a read that does not fit the frame buffer gives no operand. -/
theorem readingBeyondTheFrameBufferFaults : Obligations.ReadingBeyondTheFrameBufferFaults := by
  unfold Obligations.ReadingBeyondTheFrameBufferFaults
  intro s
  refine ⟨fun h => ?f32, fun h => ?u16, fun h => ?codes⟩
  case f32 =>
    have beyond : memRead4 s.fs.fb s.xt.off = none := if_neg (Nat.not_le.mpr h)
    simp only [exec, execF32, beyond]
  case u16 =>
    have beyond : memRead2 s.fs.fb s.xt.off = none := if_neg (Nat.not_le.mpr h)
    simp only [exec, execU16, beyond]
  case codes =>
    have beyond : memRead1 s.fs.fb s.xt.off = none := if_neg (Nat.not_le.mpr h)
    simp only [exec, execU8eFault, execU8eState, beyond, and_self]

/-- Settles O37: 16 significant bits at 2^1074 units are not rounded. -/
theorem unsignedIntegersConvertExactly : Obligations.UnsignedIntegersConvertExactly := by
  unfold Obligations.UnsignedIntegersConvertExactly
  intro n
  have few : n.toNat < 2 ^ 53 := n.isLt.trans (by decide)
  have finite : roundUnits (n.toNat * 2 ^ 1074) 1 < infMag := roundUnits_shifted_lt n.toNat 1074 few (by decide)
  rw [f64OfU16, isFinite, magOf_withSign _ _ (finite.trans infMag_lt), signOf_withSign _ _ (finite.trans infMag_lt)]
  exact ⟨decide_eq_true finite, rfl, unitsOf_roundUnits_shifted n.toNat 1074 few (by decide)⟩

/-! ### What a Sample depends on -/

/-- The scaling of a value, whichever NaNs are drawn. -/
theorem scaleField_same (c : FsConfig) (seq seq' i : Nat) {r r' : F64} (h : sameValue r r' = true) :
    sameValue (scaleField c seq i r) (scaleField c seq' i r') = true := by
  simp only [scaleField]
  split
  · exact fadd_same (isNaN_drawNaN _ _) (isNaN_drawNaN _ _)
      (fmul_same (isNaN_drawNaN _ _) (isNaN_drawNaN _ _) (sameValue_refl _) h) (sameValue_refl _)
  · exact h

theorem f32Channel_same (c : FsConfig) (seq seq' i : Nat) (w : Word) :
    sameValue (f32Channel c seq i w) (f32Channel c seq' i w) = true :=
  scaleField_same c seq seq' i (f64OfF32_same (isNaN_drawNaN _ _) (isNaN_drawNaN _ _) w)

theorem u16Channel_same (c : FsConfig) (seq seq' i : Nat) (n : Half) :
    sameValue (u16Channel c seq i n) (u16Channel c seq' i n) = true :=
  scaleField_same c seq seq' i (sameValue_refl _)

/-- The Sample of a unit, whichever NaNs are drawn. -/
theorem tableSample_same (c : FsConfig) (seq seq' : Nat) (u : Nat → Byte) :
    sameSample (tableSample c seq u) (tableSample c seq' u) = true := by
  unfold tableSample sameSample
  cases c.layout <;>
    simp only [sameValues_cons, sameValues_nil, f32Channel_same, u16Channel_same, Bool.and_true, beq_self_eq_true]

/-- The loop over a layout, from its start, ends with the Sample of the field tables. -/
theorem sample_of_extractFields {s t : State} (hx : s.xt = Extraction.start)
    (h : extractFields (fieldsOf s.fs.cfg.layout) s = .next t) :
    t.xt.sample = tableSample s.fs.cfg s.nanSeq s.fs.fb.read := by
  obtain ⟨x, run, sample⟩ := extractFields_layout s hx
  rw [run] at h
  cases h
  exact sample

/-- Settles O38: both Samples are those of the field tables, which read the payload alone. -/
theorem sampleDependsOnThePayloadAlone : Obligations.SampleDependsOnThePayloadAlone := by
  unfold Obligations.SampleDependsOnThePayloadAlone
  intro s1 s2 t1 t2 hcfg hx1 hx2 payload h1 h2
  rw [hcfg] at payload
  rw [sample_of_extractFields hx1 h1, sample_of_extractFields hx2 h2, hcfg, tableSample_congr s2.fs.cfg s1.nanSeq payload]
  exact tableSample_same _ _ _ _

end Sys2Proof.Machine
end

section
/-! SUPPORT. Proofs of the statements of 42_estimator.md R201 (b) and (d): every result is the exact one rounded once, to nearest, to
even at ties, and to an infinity exactly on overflow. -/

namespace Sys2Proof.Machine

/-! ### Rounding a quotient of naturals -/

/-- Every magnitude is below the binade of a rounded quotient, or a multiple of its last place. -/
theorem below_or_multiple (n d m : Nat) :
    (unitsOf m < 2 ^ (52 + lastPlace (n / d)) ∧ lastPlace (n / d) ≠ 0) ∨ ∃ k, unitsOf m = k * 2 ^ lastPlace (n / d) := by
  by_cases hp : lastPlace (n / d) = 0
  · exact .inr ⟨unitsOf m, by rw [hp, pow_zero, Nat.mul_one]⟩
  · rcases unitsOf_multiple m (lastPlace (n / d)) with low | ⟨k, hk⟩
    · exact .inl ⟨low, hp⟩
    · exact .inr ⟨k, hk.trans (Nat.mul_comm _ _)⟩

/-- The distance of a multiple of the last place, as that of its significand. -/
theorem distance_of_multiple (n d k e : Nat) : ((k * 2 ^ e : Nat) : Int) * d - n = (k : Int) * (d * 2 ^ e : Nat) - n := by
  push_cast
  ring

section
variable {n d : Nat} (hd : 0 < d) (finite : roundUnits n d < infMag) (m : Nat)
include hd finite

/-- A magnitude below the binade of a rounded quotient is farther from the quotient than the binade's lower end, which is a
multiple of the last place. -/
theorem below_binade_farther (low : unitsOf m < 2 ^ (52 + lastPlace (n / d))) (hp : lastPlace (n / d) ≠ 0) :
    |(unitsOf (roundUnits n d) : Int) * d - n| < |(unitsOf m : Int) * d - n| := by
  obtain ⟨-, lower⟩ := lastPlace_bounds (n / d)
  have atLeast : 2 ^ (52 + lastPlace (n / d)) * d ≤ n := (Nat.le_div_iff_mul_le hd).mp (lower hp)
  rw [unitsOf_roundUnits n d hd finite]
  generalize lastPlace (n / d) = e at *
  have near := roundNearestEven_nearest n (d * 2 ^ e) (2 ^ 52) (Nat.mul_pos hd (Nat.two_pow_pos e))
  generalize roundNearestEven n (d * 2 ^ e) = r at *
  have less : (unitsOf m : Int) * d < 2 ^ (52 + e) * d := by
    exact_mod_cast Nat.mul_lt_mul_of_pos_right low hd
  have atLeast' : (2 ^ (52 + e) * d : Int) ≤ n := by exact_mod_cast atLeast
  calc |((r * 2 ^ e : Nat) : Int) * d - n|
      = |(r : Int) * (d * 2 ^ e : Nat) - n| := by push_cast; ring_nf
    _ ≤ |((2 ^ 52 : Nat) : Int) * (d * 2 ^ e : Nat) - n| := near
    _ = n - 2 ^ (52 + e) * d := by
      rw [abs_sub_comm, abs_of_nonneg] <;> push_cast <;> rw [pow_add] at * <;> linarith
    _ < n - (unitsOf m : Int) * d := by linarith
    _ = |(unitsOf m : Int) * d - n| := by rw [abs_sub_comm, abs_of_nonneg]; linarith

/-- No magnitude is nearer to a quotient than the rounded one. -/
theorem roundUnits_nearest : |(unitsOf (roundUnits n d) : Int) * d - n| ≤ |(unitsOf m : Int) * d - n| := by
  rcases below_or_multiple n d m with ⟨low, hp⟩ | ⟨k, hk⟩
  · exact (below_binade_farther hd finite m low hp).le
  · rw [hk, unitsOf_roundUnits n d hd finite, distance_of_multiple, distance_of_multiple]
    exact roundNearestEven_nearest n _ k (Nat.mul_pos hd (Nat.two_pow_pos _))

/-- Where another magnitude is as near to a quotient as the rounded one, the rounded one is even. -/
theorem roundUnits_even_at_tie (other : m ≠ roundUnits n d)
    (tie : |(unitsOf m : Int) * d - n| = |(unitsOf (roundUnits n d) : Int) * d - n|) : roundUnits n d % 2 = 0 := by
  rcases below_or_multiple n d m with ⟨low, hp⟩ | ⟨k, hk⟩
  · exact absurd tie (below_binade_farther hd finite m low hp).ne'
  · have units := unitsOf_roundUnits n d hd finite
    have significand : k ≠ roundNearestEven n (d * 2 ^ lastPlace (n / d)) := by
      intro e
      have same : unitsOf m = unitsOf (roundUnits n d) := by rw [hk, units, e]
      rcases Nat.lt_or_gt_of_ne other with less | greater
      · exact absurd same (unitsOf_mono_lt _ _ less).ne
      · exact absurd same (unitsOf_mono_lt _ _ greater).ne'
    rw [hk, units, distance_of_multiple, distance_of_multiple] at tie
    have even := roundNearestEven_even n _ k (Nat.mul_pos hd (Nat.two_pow_pos _)) significand tie.symm
    rw [roundUnits_eq n d finite]
    omega

end

/-! ### Signed values -/

theorem signedUnits_withSign (neg : Bool) {mag : Nat} (h : mag < 2 ^ 63) :
    signedUnits (withSign neg mag) = if neg then -(unitsOf mag : Int) else unitsOf mag := by
  rw [signedUnits, signOf_withSign neg mag h, magOf_withSign neg mag h]

theorem abs_signedUnits (x : F64) : |signedUnits x| = unitsOf (magOf x) := by
  unfold signedUnits
  cases signOf x <;> simp

theorem natAbs_signedUnits (x : F64) : (signedUnits x).natAbs = unitsOf (magOf x) := by
  have := abs_signedUnits x
  rw [Int.abs_eq_natAbs] at this
  exact_mod_cast this

/-- Only a zero has no units. -/
theorem signedUnits_ne_zero {x : F64} (h : isZero x = false) : signedUnits x ≠ 0 := by
  rw [← Int.natAbs_ne_zero, natAbs_signedUnits, ne_eq, unitsOf_eq_zero]
  exact of_decide_eq_false h

/-- The sign of a value that has units. -/
theorem signedUnits_neg_iff {x : F64} (h : signedUnits x ≠ 0) : signedUnits x < 0 ↔ signOf x = true := by
  cases sign : signOf x with
  | false => simp [signedUnits, sign]
  | true =>
    simp only [signedUnits, sign, if_true, iff_true] at h ⊢
    omega

theorem signedUnits_pos_iff {x : F64} (h : signedUnits x ≠ 0) : 0 < signedUnits x ↔ signOf x = false := by
  rw [← Bool.not_eq_true, ← signedUnits_neg_iff h]
  omega

/-- The sign of a product of values that have units. -/
theorem signedUnits_mul_neg {a b : F64} (ha : signedUnits a ≠ 0) (hb : signedUnits b ≠ 0) :
    decide (signedUnits a * signedUnits b < 0) = (signOf a ^^ signOf b) := by
  rw [Bool.eq_iff_iff, decide_eq_true_iff, mul_neg_iff, signedUnits_pos_iff ha, signedUnits_neg_iff hb, signedUnits_neg_iff ha,
    signedUnits_pos_iff hb]
  cases signOf a <;> cases signOf b <;> decide

/-- A factor 2^k keeps the sign. -/
theorem mul_pow_neg_iff (v : Int) (k : Nat) : v * 2 ^ k < 0 ↔ v < 0 :=
  ⟨fun h => neg_of_mul_neg_left h (by positivity), fun h => mul_neg_of_neg_of_pos h (by positivity)⟩

/-- Whatever the signs, the distance is at least that of the magnitudes. -/
theorem distance_of_magnitudes_le (x : F64) (n d : Int) :
    |(unitsOf (magOf x) : Int) * d.natAbs - n.natAbs| ≤ |signedUnits x * d - n| := by
  rw [← abs_signedUnits, Int.natCast_natAbs, Int.natCast_natAbs, ← abs_mul]
  exact abs_abs_sub_abs_le _ _

/-- `r` is the exact result `n / d`, in units, rounded once: its sign and its rounded magnitude. The sign of an exact zero is
left open. -/
def IsRounded (r : F64) (n d : Int) : Prop :=
  d ≠ 0 ∧ ∃ neg : Bool, r = withSign neg (roundUnits n.natAbs d.natAbs) ∧ (n ≠ 0 → neg = decide (n * d < 0))

section
variable {r : F64} {n d : Int} (h : IsRounded r n d)
include h

/-- The magnitude of a rounded result. -/
theorem IsRounded.magOf_eq : magOf r = roundUnits n.natAbs d.natAbs := by
  obtain ⟨-, neg, rfl, -⟩ := h
  exact magOf_withSign neg _ ((roundUnits_le _ _).trans_lt infMag_lt)

theorem IsRounded.finite (hf : isFinite r = true) : roundUnits n.natAbs d.natAbs < infMag := by
  rw [← h.magOf_eq]
  exact of_decide_eq_true hf

/-- With the sign of the exact result, the distance to it is that of the magnitudes. -/
theorem IsRounded.distance :
    |signedUnits r * d - n| = |(unitsOf (roundUnits n.natAbs d.natAbs) : Int) * d.natAbs - n.natAbs| := by
  obtain ⟨hd, neg, rfl, sign⟩ := h
  rw [signedUnits_withSign neg ((roundUnits_le _ _).trans_lt infMag_lt)]
  by_cases hn : n = 0
  · subst hn
    rw [Int.natAbs_zero, roundUnits_zero _ (Int.natAbs_pos.mpr hd), unitsOf_zero]
    simp
  · rw [sign hn]
    generalize unitsOf _ = u
    rcases lt_or_gt_of_ne hd with d0 | d0 <;> rcases lt_or_gt_of_ne hn with n0 | n0
    · rw [decide_eq_false (by nlinarith), Int.ofNat_natAbs_of_nonpos d0.le, Int.ofNat_natAbs_of_nonpos n0.le, ← abs_neg]
      exact congrArg _ (by rw [if_neg Bool.false_ne_true]; ring)
    · rw [decide_eq_true (by nlinarith), Int.ofNat_natAbs_of_nonpos d0.le, Int.natAbs_of_nonneg n0.le]
      exact congrArg _ (by rw [if_pos rfl]; ring)
    · rw [decide_eq_true (by nlinarith), Int.natAbs_of_nonneg d0.le, Int.ofNat_natAbs_of_nonpos n0.le, ← abs_neg]
      exact congrArg _ (by rw [if_pos rfl]; ring)
    · rw [decide_eq_false (by nlinarith), Int.natAbs_of_nonneg d0.le, Int.natAbs_of_nonneg n0.le]
      exact congrArg _ (by rw [if_neg Bool.false_ne_true])

theorem IsRounded.nearest : nearest r n d := by
  intro hf x _
  rw [h.distance]
  exact (roundUnits_nearest (Int.natAbs_pos.mpr h.1) (h.finite hf) (magOf x)).trans (distance_of_magnitudes_le x n d)

/-- A value of the same magnitude and another sign is not as near, unless both are zero. -/
theorem IsRounded.magOf_ne_of_tie {x : F64} (other : signedUnits x ≠ signedUnits r)
    (tie : |signedUnits x * d - n| = |signedUnits r * d - n|) : magOf x ≠ roundUnits n.natAbs d.natAbs := by
  intro same
  have opposite : signedUnits x = -signedUnits r := by
    have e : |signedUnits x| = |signedUnits r| := by rw [abs_signedUnits, abs_signedUnits, same, h.magOf_eq]
    exact (abs_eq_abs.mp e).resolve_left other
  have zero : signedUnits r = 0 := by
    rw [opposite] at tie
    rcases abs_eq_abs.mp tie with e | e
    · have product : signedUnits r * d = 0 := by linarith
      exact (mul_eq_zero.mp product).resolve_right h.1
    · have hn : n = 0 := by linarith
      rw [← abs_eq_zero, abs_signedUnits, h.magOf_eq, hn, Int.natAbs_zero, roundUnits_zero _ (Int.natAbs_pos.mpr h.1),
        unitsOf_zero, Nat.cast_zero]
  exact other (by rw [opposite, zero, neg_zero])

theorem IsRounded.evenAtTies : evenAtTies r n d := by
  intro hf x _ other tie
  have finite := h.finite hf
  have positive := Int.natAbs_pos.mpr h.1
  have near := roundUnits_nearest positive finite (magOf x)
  have far := distance_of_magnitudes_le x n d
  rw [tie, h.distance] at far
  rw [h.magOf_eq]
  exact roundUnits_even_at_tie positive finite (magOf x) (h.magOf_ne_of_tie other tie) (le_antisymm far near)

theorem IsRounded.overflowsTo : overflowsTo r n d := by
  have atMost : magOf r ≤ infMag := h.magOf_eq ▸ roundUnits_le _ _
  have threshold : isInf r = true ↔ overflowBound * |d| ≤ |n| := by
    have bound : overflowBound = (((2 ^ 54 - 1) * 2 ^ 2044 : Nat) : Int) := by
      rw [overflowBound, show (2 : Int) ^ 2098 = 2 ^ 54 * 2 ^ 2044 from pow_add 2 54 2044, Nat.cast_mul, Nat.cast_pow, Nat.cast_ofNat]
      generalize (2 : Int) ^ 2044 = p
      norm_num
      ring
    rw [isInf, decide_eq_true_iff, h.magOf_eq, roundUnits_infinite _ _ (Int.natAbs_pos.mpr h.1), bound, Int.abs_eq_natAbs,
      Int.abs_eq_natAbs]
    exact_mod_cast Iff.rfl
  refine ⟨decide_eq_false (by omega), threshold, fun infinite => ?_⟩
  have hn : n ≠ 0 := by
    rintro rfl
    have zero : magOf r = 0 := by rw [h.magOf_eq, Int.natAbs_zero, roundUnits_zero _ (Int.natAbs_pos.mpr h.1)]
    exact absurd (zero.symm.trans (of_decide_eq_true infinite)) (by decide)
  obtain ⟨-, neg, rfl, sign⟩ := h
  rw [signOf_withSign neg _ ((roundUnits_le _ _).trans_lt infMag_lt), sign hn]

end

/-! ### The four operations on finite operands -/

section
variable {a b : F64} (ha : isFinite a = true) (hb : isFinite b = true)
include ha hb

theorem fadd_isRounded (n : F64) : IsRounded (fadd n a b) (signedUnits a + signedUnits b) 1 := by
  refine ⟨one_ne_zero, ?_⟩
  rw [fadd_finite n a b ha hb, Int.natAbs_one, Int.mul_one]
  simp only [addFinite]
  split
  · rename_i zero
    exact ⟨_, by rw [zero, Int.natAbs_zero, roundUnits_zero 1 one_pos], fun h => (h zero).elim⟩
  · exact ⟨_, rfl, fun _ => rfl⟩

theorem fsub_isRounded (n : F64) : IsRounded (fsub n a b) (signedUnits a - signedUnits b) 1 := by
  rw [sub_eq_add_neg, ← signedUnits_fneg]
  exact fadd_isRounded ha (by rwa [isFinite_fneg]) n

theorem fmul_isRounded (n : F64) : IsRounded (fmul n a b) (signedUnits a * signedUnits b) (2 ^ 1074) := by
  refine ⟨pow_ne_zero _ two_ne_zero, signOf a ^^ signOf b, ?_, fun h => ?_⟩
  · rw [fmul_finite n a b ha hb, Int.natAbs_mul, natAbs_signedUnits, natAbs_signedUnits, Int.natAbs_pow, show (2 : Int).natAbs = 2 from rfl]
  · obtain ⟨h1, h2⟩ := mul_ne_zero_iff.mp h
    rw [← signedUnits_mul_neg h1 h2, decide_eq_decide]
    exact (mul_pow_neg_iff _ 1074).symm

theorem fdiv_isRounded (n : F64) (h0 : isZero b = false) :
    IsRounded (fdiv n a b) (signedUnits a * 2 ^ 1074) (signedUnits b) := by
  have divisor := signedUnits_ne_zero h0
  refine ⟨divisor, signOf a ^^ signOf b, ?_, fun h => ?_⟩
  · rw [fdiv_finite n a b ha hb h0, Int.natAbs_mul, natAbs_signedUnits, natAbs_signedUnits, Int.natAbs_pow, show (2 : Int).natAbs = 2 from rfl]
  · rw [← signedUnits_mul_neg (left_ne_zero_of_mul h) divisor, decide_eq_decide, mul_right_comm]
    exact (mul_pow_neg_iff _ 1074).symm

end

/-- Settles O43: each operation is the exact result rounded once. -/
theorem finiteResultsAreNearest : Obligations.FiniteResultsAreNearest := by
  unfold Obligations.FiniteResultsAreNearest
  intro n a b ha hb va vb
  have sum := fadd_isRounded ha hb n
  have difference := fsub_isRounded ha hb n
  have product := fmul_isRounded ha hb n
  exact ⟨⟨sum.nearest, sum.overflowsTo⟩, ⟨difference.nearest, difference.overflowsTo⟩, ⟨product.nearest, product.overflowsTo⟩,
    fun h0 => ⟨(fdiv_isRounded ha hb n h0).nearest, (fdiv_isRounded ha hb n h0).overflowsTo⟩⟩

/-- Settles O44: a tie of values is a tie of magnitudes, which the rounded quotient breaks to even. -/
theorem tiesGoToEven : Obligations.TiesGoToEven := by
  unfold Obligations.TiesGoToEven
  exact ⟨fun n a b ha hb => ⟨(fadd_isRounded ha hb n).evenAtTies, (fsub_isRounded ha hb n).evenAtTies,
      (fmul_isRounded ha hb n).evenAtTies, fun h0 => (fdiv_isRounded ha hb n h0).evenAtTies⟩,
    fun n d m hd finite _ other tie => roundUnits_even_at_tie hd finite m other tie⟩

end Sys2Proof.Machine
end

section
/-! SUPPORT. Proof of the statement of 42_estimator.md R201 (e), (f) and (i): zero, infinite and NaN operands. -/

namespace Sys2Proof.Machine

/-! ### Classes of results -/

@[simp] theorem isInf_withSign_infMag (neg : Bool) : isInf (withSign neg infMag) = true := by
  rw [isInf, magOf_withSign neg _ infMag_lt]
  rfl

@[simp] theorem isZero_withSign_zero (neg : Bool) : isZero (withSign neg 0) = true := by
  rw [isZero, magOf_withSign neg 0 (by decide)]
  rfl

/-- Every value is a NaN, an infinity or finite. -/
theorem isNaN_or_isInf_or_isFinite (x : F64) : isNaN x = true ∨ isInf x = true ∨ isFinite x = true := by
  cases h : isFinite x with
  | true => exact .inr (.inr rfl)
  | false => exact (nonfinite_class x h).imp id .inl

/-- A zero is its sign. -/
theorem withSign_zero_of_isZero {x : F64} (h : isZero x = true) : withSign (signOf x) 0 = x := by
  obtain ⟨mag, -⟩ := zero_class x h
  rw [← mag, withSign_sign_mag]

/-- Infinities of one sign are the same. -/
theorem eq_of_isInf {a b : F64} (ha : isInf a = true) (hb : isInf b = true) (hs : signOf a = signOf b) : a = b :=
  eq_of_sign_mag a b hs ((of_decide_eq_true ha).trans (of_decide_eq_true hb).symm)

/-- A zero has no units. -/
theorem signedUnits_of_isZero {x : F64} (h : isZero x = true) : signedUnits x = 0 := by
  obtain ⟨mag, -⟩ := zero_class x h
  rw [← abs_eq_zero, abs_signedUnits, mag, unitsOf_zero, Nat.cast_zero]

/-! ### Sums -/

/-- An infinity beside a finite value. -/
theorem fadd_inf_left (n : F64) {a b : F64} (ha : isInf a = true) (hb : isFinite b = true) : fadd n a b = a := by
  simp [fadd, ha, infinite_class a ha, finite_class b hb]

theorem fadd_inf_right (n : F64) {a b : F64} (ha : isFinite a = true) (hb : isInf b = true) : fadd n a b = b := by
  simp [fadd, hb, infinite_class b hb, finite_class a ha]

/-- Two infinities of one sign. -/
theorem fadd_inf_same (n : F64) {a b : F64} (ha : isInf a = true) (hb : isInf b = true) (hs : signOf a = signOf b) :
    fadd n a b = a := by
  simp [fadd, ha, hb, infinite_class a ha, infinite_class b hb, hs]

/-- Two infinities of opposite signs. -/
theorem fadd_inf_opposite (n : F64) {a b : F64} (ha : isInf a = true) (hb : isInf b = true) (hs : signOf a ≠ signOf b) :
    fadd n a b = n := by
  simp [fadd, ha, hb, infinite_class a ha, infinite_class b hb, hs]

theorem addFinite_comm (a b : F64) : addFinite a b = addFinite b a := by
  unfold addFinite
  rw [add_comm (signedUnits a), Bool.and_comm]

/-- An exact zero has the sign that both operands share, or none. -/
theorem addFinite_of_cancel {a b : F64} (h : signedUnits a + signedUnits b = 0) :
    addFinite a b = withSign (signOf a && signOf b) 0 := by
  unfold addFinite
  simp only [h, if_true]

theorem fadd_comm (n a b : F64) : fadd n a b = fadd n b a := by
  rcases isNaN_or_isInf_or_isFinite a with ha | ha | ha
  · rw [fadd_nan_left n a b ha, fadd_nan_right n b a ha]
  · rcases isNaN_or_isInf_or_isFinite b with hb | hb | hb
    · rw [fadd_nan_right n a b hb, fadd_nan_left n b a hb]
    · by_cases hs : signOf a = signOf b
      · rw [eq_of_isInf ha hb hs]
      · rw [fadd_inf_opposite n ha hb hs, fadd_inf_opposite n hb ha (Ne.symm hs)]
    · rw [fadd_inf_left n ha hb, fadd_inf_right n hb ha]
  · rcases isNaN_or_isInf_or_isFinite b with hb | hb | hb
    · rw [fadd_nan_right n a b hb, fadd_nan_left n b a hb]
    · rw [fadd_inf_right n ha hb, fadd_inf_left n hb ha]
    · rw [fadd_finite n a b ha hb, fadd_finite n b a hb ha, addFinite_comm]

/-- A value less itself is +0. -/
theorem fsub_self (n : F64) {a : F64} (ha : isFinite a = true) : fsub n a a = 0 := by
  rw [fsub, fadd_finite n a _ ha (by rwa [isFinite_fneg]), addFinite_of_cancel (by rw [signedUnits_fneg, add_neg_cancel]),
    signOf_fneg, Bool.and_not_self]
  rfl

/-- The sum of two zeros. -/
theorem fadd_zeros (n : F64) {a b : F64} (ha : isZero a = true) (hb : isZero b = true) :
    fadd n a b = withSign (signOf a && signOf b) 0 := by
  obtain ⟨-, fa⟩ := zero_class a ha
  obtain ⟨-, fb⟩ := zero_class b hb
  rw [fadd_finite n a b fa fb, addFinite_of_cancel (by rw [signedUnits_of_isZero ha, signedUnits_of_isZero hb, add_zero])]

/-- Zeros of one sign add to that zero. -/
theorem fadd_zeros_same (n : F64) {a b : F64} (ha : isZero a = true) (hb : isZero b = true) (hs : signOf a = signOf b) :
    fadd n a b = a := by
  rw [fadd_zeros n ha hb, ← hs, Bool.and_self, withSign_zero_of_isZero ha]

/-- Zeros of opposite signs add to +0. -/
theorem fadd_zeros_opposite (n : F64) {a b : F64} (ha : isZero a = true) (hb : isZero b = true) (hs : signOf a ≠ signOf b) :
    fadd n a b = 0 := by
  have opposite : (signOf a && signOf b) = false := by
    cases h : signOf a
    · rfl
    · cases h' : signOf b
      · rfl
      · exact (hs (h.trans h'.symm)).elim
  rw [fadd_zeros n ha hb, opposite]
  rfl

/-- The sign changed decides whether two signs agree. -/
theorem signOf_fneg_eq_iff (a b : F64) : signOf a = signOf (fneg b) ↔ signOf a ≠ signOf b := by
  rw [signOf_fneg]
  cases signOf a <;> cases signOf b <;> decide

/-! ### Products and quotients -/

/-- A product of values that are not NaNs, and not a zero and an infinity, has the exclusive-or of their signs. -/
theorem fmul_sign (n : F64) {a b : F64} (ha : isNaN a = false) (hb : isNaN b = false)
    (h1 : ¬(isZero a = true ∧ isInf b = true)) (h2 : ¬(isInf a = true ∧ isZero b = true)) :
    signOf (fmul n a b) = (signOf a ^^ signOf b) := by
  unfold fmul
  rw [if_neg (by simp [ha, hb])]
  split
  · rename_i infinite
    have nonzero : ¬(isZero a || isZero b) = true := by
      intro zero
      rcases Bool.or_eq_true_iff.mp infinite with i | i <;> rcases Bool.or_eq_true_iff.mp zero with z | z
      · simp [infinite_class a i] at z
      · exact h2 ⟨i, z⟩
      · exact h1 ⟨z, i⟩
      · simp [infinite_class b i] at z
    rw [if_neg nonzero, signOf_withSign _ _ infMag_lt]
  · exact signOf_withSign _ _ ((roundUnits_le _ _).trans_lt infMag_lt)

/-- A quotient of values that are not NaNs, not two zeros and not two infinities, has the exclusive-or of their signs. -/
theorem fdiv_sign (n : F64) {a b : F64} (ha : isNaN a = false) (hb : isNaN b = false)
    (h1 : ¬(isZero a = true ∧ isZero b = true)) (h2 : ¬(isInf a = true ∧ isInf b = true)) :
    signOf (fdiv n a b) = (signOf a ^^ signOf b) := by
  unfold fdiv
  rw [if_neg (by simp [ha, hb])]
  split
  · rename_i ia
    rw [if_neg fun ib => h2 ⟨ia, ib⟩, signOf_withSign _ _ infMag_lt]
  · split
    · exact signOf_withSign _ 0 (by decide)
    · split
      · rename_i zb
        rw [if_neg fun za => h1 ⟨za, zb⟩, signOf_withSign _ _ infMag_lt]
      · exact signOf_withSign _ _ ((roundUnits_le _ _).trans_lt infMag_lt)

/-- A zero times an infinity. -/
theorem fmul_zero_inf (n : F64) {a b : F64} (ha : isZero a = true) (hb : isInf b = true) : fmul n a b = n := by
  obtain ⟨-, fa⟩ := zero_class a ha
  simp [fmul, ha, hb, finite_class a fa, infinite_class b hb]

/-- An infinity times a value that is neither a NaN nor zero. -/
theorem fmul_inf (n : F64) {a b : F64} (ha : isInf a = true) (hb : isNaN b = false) (h0 : isZero b = false) :
    isInf (fmul n a b) = true := by
  simp [fmul, ha, hb, h0, infinite_class a ha]

/-- A zero times a finite value. -/
theorem fmul_zero (n : F64) {a b : F64} (ha : isZero a = true) (hb : isFinite b = true) : isZero (fmul n a b) = true := by
  obtain ⟨mag, fa⟩ := zero_class a ha
  rw [fmul_finite n a b fa hb, mag, unitsOf_zero, Nat.zero_mul, roundUnits_zero _ (Nat.two_pow_pos _), isZero_withSign_zero]

/-- A finite value that is not zero, by zero. -/
theorem fdiv_by_zero (n : F64) {a b : F64} (ha : isFinite a = true) (h0 : isZero a = false) (hb : isZero b = true) :
    isInf (fdiv n a b) = true := by
  obtain ⟨-, fb⟩ := zero_class b hb
  simp [fdiv, finite_class a ha, finite_class b fb, h0, hb]

theorem fdiv_zeros (n : F64) {a b : F64} (ha : isZero a = true) (hb : isZero b = true) : fdiv n a b = n := by
  obtain ⟨-, fa⟩ := zero_class a ha
  obtain ⟨-, fb⟩ := zero_class b hb
  simp [fdiv, finite_class a fa, finite_class b fb, ha, hb]

theorem fdiv_infs (n : F64) {a b : F64} (ha : isInf a = true) (hb : isInf b = true) : fdiv n a b = n := by
  simp [fdiv, infinite_class a ha, infinite_class b hb, ha, hb]

/-- An infinity by a finite value. -/
theorem fdiv_inf_left (n : F64) {a b : F64} (ha : isInf a = true) (hb : isFinite b = true) : isInf (fdiv n a b) = true := by
  simp [fdiv, infinite_class a ha, finite_class b hb, ha]

/-- A finite value by an infinity. -/
theorem fdiv_inf_right (n : F64) {a b : F64} (ha : isFinite a = true) (hb : isInf b = true) : isZero (fdiv n a b) = true := by
  simp [fdiv, finite_class a ha, infinite_class b hb, hb]

/-- A zero by a finite value that is not zero. -/
theorem fdiv_zero_left (n : F64) {a b : F64} (ha : isZero a = true) (hb : isFinite b = true) (h0 : isZero b = false) :
    isZero (fdiv n a b) = true := by
  obtain ⟨mag, fa⟩ := zero_class a ha
  have divisor : 0 < unitsOf (magOf b) := Nat.pos_of_ne_zero fun h => of_decide_eq_false h0 ((unitsOf_eq_zero _).mp h)
  rw [fdiv_finite n a b fa hb h0, mag, unitsOf_zero, Nat.zero_mul, roundUnits_zero _ divisor, isZero_withSign_zero]

/-- Settles O45: clause by clause the class of each operand decides the result. -/
theorem specialOperandsGiveTheirResults : Obligations.SpecialOperandsGiveTheirResults := by
  unfold Obligations.SpecialOperandsGiveTheirResults
  intro n a b
  have flip := signOf_fneg_eq_iff a b
  refine ⟨⟨fadd_comm n a b, fmul_comm n a b⟩, fun ha h0 hb => ⟨fdiv_by_zero n ha h0 hb, ?divisionByZero⟩, fdiv_zeros n,
    fdiv_infs n, fun ha hb hs => ⟨?infLessInf, fadd_inf_same n ha hb hs⟩,
    fun ha hb hs => ⟨fadd_inf_opposite n ha hb hs, ?infPlusInf⟩,
    fun ha hb => ⟨fmul_zero_inf n ha hb, (fmul_comm n b a).trans (fmul_zero_inf n ha hb)⟩, fun h => ?nan,
    fun ha hb => ⟨fadd_inf_left n ha hb, fadd_inf_left n ha (by rwa [isFinite_fneg]), fadd_inf_right n hb (by rwa [isInf_fneg]),
      fdiv_inf_left n ha hb, fdiv_inf_right n hb ha⟩, fmul_inf n, fun ha => ⟨fsub_self n ha, fsub_self n ha⟩,
    fun ha hb => ⟨fun hs => ⟨fadd_zeros_opposite n ha hb hs, ?zeroLessOther⟩, fun hs => ⟨fadd_zeros_same n ha hb hs, ?zeroLessSame⟩⟩,
    fun ha hb => ⟨fmul_zero n ha hb, fdiv_zero_left n ha hb⟩, fun ha hb => ⟨fmul_sign n ha hb, fdiv_sign n ha hb⟩⟩
  case divisionByZero =>
    obtain ⟨-, fb⟩ := zero_class b hb
    exact fdiv_sign n (finite_class a ha).1 (finite_class b fb).1 (by simp [h0]) (by simp [finite_class a ha])
  case infLessInf => exact fadd_inf_opposite n ha (by rwa [isInf_fneg]) (mt flip.mp (not_not.mpr hs))
  case infPlusInf => exact fadd_inf_same n ha (by rwa [isInf_fneg]) (flip.mpr hs)
  case nan =>
    rcases h with h | h
    · exact ⟨fadd_nan_left n a b h, fsub_nan_left n a b h, fmul_nan_left n a b h, fdiv_nan_left n a b h⟩
    · exact ⟨fadd_nan_right n a b h, fsub_nan_right n a b h, fmul_nan_right n a b h, fdiv_nan_right n a b h⟩
  case zeroLessOther => exact fadd_zeros_same n ha (by rwa [isZero_fneg]) (flip.mpr hs)
  case zeroLessSame => exact fadd_zeros_opposite n ha (by rwa [isZero_fneg]) (mt flip.mp (not_not.mpr hs))

end Sys2Proof.Machine
end

section
/-! SUPPORT. Proofs of the statements of 42_estimator.md sections 2 to 4: one cycle of KF, the examples, the covariance, bad estimates
and the coupling. -/

namespace Sys2Proof.Machine

/-! ### One cycle -/

/-- Settles O47: the cycle is the formulas of 42_estimator.md R205 in their order, and KF.STEP writes nothing else. -/
theorem stepPredictsThenUpdates : Obligations.StepPredictsThenUpdates := by
  unfold Obligations.StepPredictsThenUpdates
  exact fun z s => ⟨fun ready => exec_kfStep_of_ready ready z, fun unready => exec_kfStep_of_not_ready unready z⟩

/-- CHX on a Sample that has the channel, with a KF: one cycle, its estimate after the Sample. -/
theorem execChx_of_ready {i : BitVec 4} {smp : Sample} {z : F64} {s : State} (ho : s.out = [.sample smp])
    (hz : smp.num[i.toNat]? = some z) (ready : s.kf.ready = true) :
    execChx i s = .next { s with
      kf := cycled (drawNaN s.nanSeq) s.kf z, nanSeq := s.nanSeq + 1
      out := [.sample smp, (cycled (drawNaN s.nanSeq) s.kf z).estimate] } := by
  have routed : routedValue i s.out = some z := by rw [ho]; exact hz
  simp only [execChx, routed, ready, if_true]
  rw [ho]
  rfl

/-- CHX without a KF. -/
theorem execChx_of_not_ready (i : BitVec 4) {s : State} (unready : s.kf.ready = false) : execChx i s = .next s := by
  rcases execChx_cases i s with h | ⟨z, -, ready, -⟩
  · exact h
  · rw [unready] at ready
    cases ready

/-- Settles O53: the channel of the emitted Sample is routed, if there is a KF. -/
theorem routingRunsOneCycle : Obligations.RoutingRunsOneCycle := by
  unfold Obligations.RoutingRunsOneCycle
  exact fun i smp z s ho hz => ⟨fun ready => execChx_of_ready ho hz ready, fun unready => execChx_of_not_ready i unready⟩

/-! ### The examples -/

/-- KF after a construction and one measurement, with the NaN 7FF8_0000_0000_0000 in every place, so that it evaluates. -/
def firstCycle (dt q r p0 z : F64) : Estimator :=
  cycled (fun _ => 0x7FF8000000000000) (constructed (fun _ => 0x7FF8000000000000) dt q r p0) z

/-- The first cycle, whichever NaNs are drawn. -/
theorem firstCycle_same (n m : Nat) (dt q r p0 z : F64) :
    sameEstimator (cycled (drawNaN n) (constructed (drawNaN m) dt q r p0) z) (firstCycle dt q r p0 z) := by
  have quiet : AllNaN fun _ => 0x7FF8000000000000 := fun _ => (by decide : isNaN 0x7FF8000000000000 = true)
  exact cycled_same (allNaN_draw n) quiet (constructed_same (allNaN_draw m) quiet dt q r p0) (sameValue_refl z)

/-- A value that is not a NaN is the same as itself alone. -/
theorem eq_of_sameValue {a b : F64} (h : sameValue a b = true) (hb : isNaN b = false) : a = b := by
  rcases (sameValue_iff a b).mp h with e | ⟨-, nan⟩
  · exact e
  · rw [hb] at nan
    cases nan

/-- The exact example of 42_estimator.md R205. -/
theorem firstCycle_exact :
    let k := firstCycle 0x3FF0000000000000 0x4010000000000000 0x3FF0000000000000 0x3FF0000000000000 0x4018000000000000
    k.x0 = 0x4012000000000000 ∧ k.x1 = 0x4012000000000000 ∧ k.p00 = 0x3FE8000000000000 ∧ k.p01 = 0x3FE8000000000000 ∧
      k.p10 = 0x3FE8000000000000 ∧ k.p11 = 0x4006000000000000 := by decide +kernel

/-- The scenario of 42_estimator.md R210. -/
theorem firstCycle_scenario :
    let k := firstCycle 0x3EE4F8B588E368F1 0x412E848000000000 0x3FF0000000000000 0x3F50624DD2F1A9FC 0x4014000000000000
    k.x0 = 0x3F7475A47195E9C0 ∧ k.x1 = 0x3E6C285633518B84 := by decide +kernel

/-- KF.INIT and the first KF.STEP on any state: the first cycle's estimate. -/
theorem exec_first_estimate (dt q r p0 z : F64) (s : State) :
    ∃ t u : State, exec (.kfInit dt q r p0) s = .next t ∧ exec (.kfStep z) t = .next u ∧
      u.out = [.est u.kf.x0 u.kf.x1] ∧ sameEstimator u.kf (firstCycle dt q r p0 z) :=
  ⟨_, _, exec_kfInit dt q r p0 s, exec_kfStep_of_ready rfl z, rfl, firstCycle_same _ _ dt q r p0 z⟩

/-- Settles O48: no register of either example is a NaN, so each has the bits of the evaluated cycle. -/
theorem firstEstimatesOfTheExamples : Obligations.FirstEstimatesOfTheExamples := by
  unfold Obligations.FirstEstimatesOfTheExamples
  have same {a b c : F64} (h : sameValue a b = true) (e : b = c) (hc : isNaN c = false) : a = c :=
    eq_of_sameValue (e ▸ h) hc
  refine fun s => ⟨?exact, ?scenario⟩
  case exact =>
    obtain ⟨t, u, init, step, out, kf⟩ :=
      exec_first_estimate 0x3FF0000000000000 0x4010000000000000 0x3FF0000000000000 0x3FF0000000000000 0x4018000000000000 s
    obtain ⟨x0, x1, p00, p01, p10, p11⟩ := firstCycle_exact
    obtain ⟨-, ⟨s0, s1, s00, s01, s10, s11⟩, -⟩ := (sameEstimator_iff _ _).mp kf
    refine ⟨t, u, init, step, ?_, same s00 p00 (by decide), same s01 p01 (by decide), same s10 p10 (by decide),
      same s11 p11 (by decide)⟩
    rw [out, same s0 x0 (by decide), same s1 x1 (by decide)]
  case scenario =>
    obtain ⟨t, u, init, step, out, kf⟩ :=
      exec_first_estimate 0x3EE4F8B588E368F1 0x412E848000000000 0x3FF0000000000000 0x3F50624DD2F1A9FC 0x4014000000000000 s
    obtain ⟨x0, x1⟩ := firstCycle_scenario
    obtain ⟨-, ⟨s0, s1, -⟩, -⟩ := (sameEstimator_iff _ _).mp kf
    exact ⟨t, u, init, step, by rw [out, same s0 x0 (by decide), same s1 x1 (by decide)]⟩

/-! ### The covariance -/

/-- Settles O49: a cycle keeps the symmetry, a construction is diagonal. -/
theorem covarianceStaysSymmetric : Obligations.CovarianceStaysSymmetric := by
  unfold Obligations.CovarianceStaysSymmetric
  refine ⟨fun z s t sym h => exec_symmetric_of_ne_kfInit (.kfStep z) s t (by simp) h sym,
    fun i s t sym h => exec_symmetric_of_ne_kfInit (.chx i) s t (by simp) h sym, fun dt q r p0 s t h => ?_,
    fun k => sameValue_iff k.p01 k.p10⟩
  rw [exec_kfInit] at h
  cases h
  exact ⟨rfl, rfl⟩

/-- The turn of a word that is KF.STEP, without a KF: refused. -/
theorem step_kfSends_of_not_ready {s : State} (h : s.kf.ready = false) {w : KcmdWord} {z : F64}
    (hw : decodeKcmd w = .ok (.kfStep z)) : ∃ t, step (kfSends w s) = .next t ∧ t.kf = s.kf := by
  have unready : (kfSends w s).kf.ready = false := h
  have refused := step_of_decode_ok (presented_kfSends w s) hw
  rw [exec_kfStep_of_not_ready unready, andThen_next] at refused
  exact ⟨_, refused, rfl⟩

/-- The turn of a measurement: one cycle if there is a KF, nothing of KF if not; then the rest. -/
theorem runMeasurements_cons (z : F64) (zs : List F64) (s : State) :
    ∃ t, (s.kf.ready = true ∧ t.kf = cycled (drawNaN s.nanSeq) s.kf z ∨ s.kf.ready = false ∧ t.kf = s.kf) ∧
      ∃ f : List Output → List Output,
        runMeasurements (z :: zs) s = (runMeasurements zs t).map fun r => (f r.1, r.2) := by
  cases ready : s.kf.ready with
  | true =>
    obtain ⟨t, hk, run⟩ := runMeasurements_cons_of_ready ready z zs
    exact ⟨t, .inl ⟨rfl, hk⟩, _, run⟩
  | false =>
    obtain ⟨t, refused, hk⟩ :=
      step_kfSends_of_not_ready ready (w := { code := 1, ops := { zeroOperands with z := z } }) rfl
    exact ⟨t, .inr ⟨rfl, hk⟩, (t.out ++ ·), by simp only [runMeasurements, refused]⟩

/-- Equally many measurements keep two estimators alike in the covariance. -/
theorem runMeasurements_sameCovariance (zs ws : List F64) {s1 s2 t1 t2 : State} {o1 o2 : List Output}
    (hl : zs.length = ws.length) (same : sameCovariance s1.kf s2.kf) (h1 : runMeasurements zs s1 = some (o1, t1))
    (h2 : runMeasurements ws s2 = some (o2, t2)) : sameCovariance t1.kf t2.kf := by
  induction zs generalizing ws s1 s2 o1 o2 with
  | nil =>
    cases List.length_eq_zero_iff.mp hl.symm
    cases h1
    cases h2
    exact same
  | cons z zs ih =>
    obtain ⟨w, ws, rfl⟩ := List.exists_cons_of_length_eq_add_one hl.symm
    obtain ⟨u1, kf1, f1, run1⟩ := runMeasurements_cons z zs s1
    obtain ⟨u2, kf2, f2, run2⟩ := runMeasurements_cons w ws s2
    rw [run1, Option.map_eq_some_iff] at h1
    rw [run2, Option.map_eq_some_iff] at h2
    obtain ⟨⟨p1, v1⟩, rest1, e1⟩ := h1
    obtain ⟨⟨p2, v2⟩, rest2, e2⟩ := h2
    cases e1
    cases e2
    refine ih ws (Nat.succ.inj hl) ?_ rest1 rest2
    have ready : s1.kf.ready = s2.kf.ready := same.2.2
    rcases kf1 with ⟨r1, k1⟩ | ⟨r1, k1⟩ <;> rcases kf2 with ⟨r2, k2⟩ | ⟨r2, k2⟩
    · rw [k1, k2]
      exact cycled_sameCovariance (allNaN_draw _) (allNaN_draw _) same z w
    · simp [ready, r2] at r1
    · simp [ready, r2] at r1
    · rwa [k1, k2]

/-- Settles O51: neither a construction nor a cycle lets the covariance see a measurement. -/
theorem covarianceNeverSeesAMeasurement : Obligations.CovarianceNeverSeesAMeasurement := by
  unfold Obligations.CovarianceNeverSeesAMeasurement
  refine ⟨fun dt q r p0 s1 s2 t1 t2 h1 h2 => ?_, fun s1 s2 t1 t2 zs ws o1 o2 hl same h1 h2 =>
    runMeasurements_sameCovariance zs ws hl same h1 h2⟩
  rw [exec_kfInit] at h1 h2
  cases h1
  cases h2
  exact sameCovariance_of_same (constructed_same (allNaN_draw _) (allNaN_draw _) dt q r p0)

/-! ### Bad estimates -/

/-- The value that the coupling routes is that of the one Sample emitted. -/
theorem routedValue_sample (c : BitVec 4) (smp : Sample) : routedValue c [.sample smp] = smp.num[c.toNat]? := rfl

/-- The cycle an operation ran was on the measurement, the routed value or the selected channel, whichever the operation has. -/
theorem KfCycled.measured {i : Instr} {s t : State} {z : F64} (h : KfCycled i s t z) :
    (∀ w, i = .kfStep w → w = z) ∧
      (∀ c smp w, i = .chx c → s.out = [.sample smp] → smp.num[c.toNat]? = some w → w = z) ∧
      (∀ smp v r w, collectsUnit i = true → t.out = [.sample smp, .est v r] →
        smp.num[(chselIndex s.fs.cfg.chsel).toNat]? = some w → w = z) := by
  obtain ⟨-, -, rfl | ⟨c, rfl, hr⟩ | ⟨hi, smp, v, r, ho, hz⟩⟩ := h
  · exact ⟨fun w e => (Instr.kfStep.inj e).symm, fun _ _ _ e => (by cases e), fun _ _ _ _ e => by cases e⟩
  · refine ⟨fun _ e => (by cases e), fun c' smp w e ho hw => ?_, fun _ _ _ _ e => by cases e⟩
    cases e
    rw [ho, routedValue_sample, hw] at hr
    exact Option.some.inj hr
  · refine ⟨fun _ e => (by subst e; cases hi), fun _ _ _ e => (by subst e; cases hi), fun smp' v' r' w _ ho' hw => ?_⟩
    rw [ho] at ho'
    cases ho'
    exact Option.some.inj (hw.symm.trans hz)

/-- Settles O52: an operation leaves KF alone, and then none of the ways to run a cycle applies, or it runs one cycle, which
spreads what is bad. -/
theorem naNEstimateStaysUntilInit : Obligations.NaNEstimateStaysUntilInit := by
  unfold Obligations.NaNEstimateStaysUntilInit
  intro bad hbad i s t hi h
  have spreads : Spreads bad := by
    rcases hbad with rfl | rfl
    · exact spreads_isNaN
    · exact spreads_nonfinite
  rcases exec_kf_cases i s t hi h with untouched | ⟨z, run⟩
  · obtain ⟨kept, notStep, notChx, notCollect⟩ := untouched
    rw [kept]
    refine ⟨id, id, fun changed => (changed rfl).elim, fun z e ready => ?_, fun c smp z e ready ho hz => ?_,
      fun smp v r z collects ho => (notCollect collects smp v r ho).elim⟩
    · simp [notStep z e] at ready
    · rcases notChx c e with unready | unrouted
      · simp [unready] at ready
      · rw [ho, routedValue_sample, hz] at unrouted
        cases unrouted
  · obtain ⟨kfStep, chx, collect⟩ := run.measured
    obtain ⟨-, ⟨n, kf⟩, -⟩ := run
    have spread (b : bad z = true ∨ bad s.kf.x0 = true ∨ bad s.kf.x1 = true) : bad t.kf.x0 = true ∧ bad t.kf.x1 = true := by
      rw [kf]
      exact cycled_spreads spreads (allNaN_draw n) s.kf z b
    refine ⟨fun b => (spread (.inr (.inl b))).1, fun b => (spread (.inr (.inr b))).2, fun _ b => spread (.inr b),
      fun w e _ b => spread ?_, fun c smp w e _ ho hw b => spread ?_, fun smp v r w e ho hw b => spread ?_⟩
    · rwa [← kfStep w e]
    · rwa [← chx c smp w e ho hw]
    · rwa [← collect smp v r w e ho hw]

end Sys2Proof.Machine
end

section
/-! SUPPORT. Proofs of the statements of 40_frame_sync.md section 4 (R140, R141): a session on a finite stream is the reference
function. What a session does depends on FS alone, so it is followed from register state to register state of FS. -/

namespace Sys2Proof.Machine

/-! ### Samples side by side -/

theorem sameValues_iff (as bs : List F64) :
    sameValues as bs = true ↔ List.Forall₂ (fun a b => sameValue a b = true) as bs := by
  induction as generalizing bs with
  | nil => cases bs <;> simp [sameValues]
  | cons a as ih => cases bs <;> simp [sameValues, ih]

theorem sameSamples_iff (as bs : List Sample) :
    sameSamples as bs = true ↔ List.Forall₂ (fun a b => sameSample a b = true) as bs := by
  induction as generalizing bs with
  | nil => cases bs <;> simp [sameSamples]
  | cons a as ih => cases bs <;> simp [sameSamples, ih]

/-- Lists that are both related to a third, element by element, are related to each other. -/
theorem forall₂_of_both {α : Type} {R : α → α → Prop} (hR : ∀ a b c, R a c → R b c → R a b) {as bs cs : List α}
    (h : List.Forall₂ R as cs) (g : List.Forall₂ R bs cs) : List.Forall₂ R as bs := by
  induction h generalizing bs with
  | nil =>
    cases g
    exact .nil
  | cons head _ ih =>
    cases g with
    | cons head' tail' => exact .cons (hR _ _ _ head head') (ih tail')

theorem sameSample_of_both {a b c : Sample} (h : sameSample a c = true) (g : sameSample b c = true) : sameSample a b = true := by
  simp only [sameSample, Bool.and_eq_true, beq_iff_eq, sameValues_iff] at h g ⊢
  obtain ⟨⟨numA, faultA⟩, stateA⟩ := h
  obtain ⟨⟨numB, faultB⟩, stateB⟩ := g
  exact ⟨⟨forall₂_of_both (R := fun a b => sameValue a b = true) (fun _ _ _ x y => sameValue_trans x (sameValue_symm y)) numA numB, faultA.trans faultB.symm⟩,
    stateA.trans stateB.symm⟩

/-- Samples that are the same as others are the same as each other. -/
theorem sameSamples_of_both {as bs cs : List Sample} (h : sameSamples as cs = true) (g : sameSamples bs cs = true) :
    sameSamples as bs = true := by
  rw [sameSamples_iff] at h g ⊢
  exact forall₂_of_both (R := fun a b => sameSample a b = true) (fun _ _ _ => sameSample_of_both) h g

theorem sameSamples_append {as bs cs ds : List Sample} (h : sameSamples as bs = true) (g : sameSamples cs ds = true) :
    sameSamples (as ++ cs) (bs ++ ds) = true := by
  rw [sameSamples_iff] at h g ⊢
  exact List.rel_append h g

/-! ### One byte asked for and delivered -/

/-- FS in a phase that reads bytes. -/
def FrameSync.active (f : FrameSync) : Prop := f.phase = .hunt ∨ f.phase = .skip ∨ f.phase = .frame

/-- FS with a demand. -/
def FrameSync.asked (f : FrameSync) : FrameSync := { f with demand := true }

/-- In an active phase the consumer's turn leaves FS with a demand. -/
theorem askNext_active {s : State} (h : s.fs.active) : ∃ t, askNext s = .next t ∧ t.fs = s.fs.asked := by
  cases demand : s.fs.demand with
  | true => exact ⟨s, if_pos demand, by rw [FrameSync.asked, ← demand]⟩
  | false =>
    let sent := hostSends { code := 1, cfg := zeroConfig } s
    have turn : step sent = andThen (exec .next sent) fun t => .next (endTurn t) := step_of_decode_ok rfl rfl
    exact ⟨endTurn ((sent.withFs { sent.fs with demand := true }).accept []),
      by rw [askNext, if_neg (by simp [demand]), turn, exec_next_of_active sent h, andThen_next], rfl⟩

/-- An answer of the source that is an event of the phase. -/
theorem step_sourceSends {s : State} {w : BitVec 9} {i : Instr} (h : decodeSrc s.fs.phase w = .ok i) :
    step (sourceSends w s) = andThen (exec i (sourceSends w s)) fun t => .next (endTurn t) :=
  step_of_decode_ok (s := sourceSends w s) rfl h

/-- What a byte does to a session: FS afterwards, and the units, none or one, whose Samples are emitted. -/
def ReadsByte (s : State) (b : Byte) (f : FrameSync) (us : List (List Byte)) : Prop :=
  ∃ t, andThen (askNext s) (deliver b) = .next t ∧ t.fs = f ∧ sameSamples (samplesOf t.out) (refSamples s.fs.cfg us) = true

/-- A byte asked for and delivered, by the event it is, on FS with a demand. -/
theorem readsByte_of_exec {s : State} {b : Byte} {i : Instr} {f : FrameSync} {us : List (List Byte)} (h : s.fs.active)
    (event : decodeSrc s.fs.phase (srcByte b) = .ok i)
    (run : ∀ u : State, u.fs = s.fs.asked →
      ∃ t, exec i u = .next t ∧ t.fs = f ∧ sameSamples (samplesOf t.out) (refSamples s.fs.cfg us) = true) :
    ReadsByte s b f us := by
  obtain ⟨u, ask, hu⟩ := askNext_active h
  have phase : s.fs.phase = u.fs.phase := by rw [hu]; rfl
  obtain ⟨t, ht, hf, ho⟩ := run (sourceSends (srcByte b) u) hu
  exact ⟨endTurn t, by rw [ask, andThen_next, deliver, step_sourceSends (phase ▸ event), ht, andThen_next], hf, ho⟩

theorem readsByte_hunt {s : State} (hp : s.fs.phase = .hunt) (b : Byte) : ReadsByte s b (s.fs.asked.hunted b) [] := by
  refine readsByte_of_exec (.inl hp) (hp ▸ decodeSrc_hunt_byte b) fun u hu => ?_
  rw [exec_rxHunt_of_accepted (by rw [hu]; exact hp) (by rw [hu]; rfl), hu]
  exact ⟨_, rfl, rfl, rfl⟩

theorem readsByte_skip {s : State} (hp : s.fs.phase = .skip) (b : Byte) : ReadsByte s b s.fs.asked.skipped [] := by
  refine readsByte_of_exec (.inr (.inl hp)) (hp ▸ decodeSrc_skip_byte b) fun u hu => ?_
  rw [exec_rxSkip_of_accepted (by rw [hu]; exact hp) (by rw [hu]; rfl), hu]
  exact ⟨_, rfl, rfl, rfl⟩

/-- The frame buffer with a byte stored at FIDX. -/
def FrameSync.stored (f : FrameSync) (b : Byte) : Memory := f.fb.write f.fidx.toNat b

/-- FS after a byte that leaves the unit incomplete. -/
def FrameSync.byteTaken (f : FrameSync) (b : Byte) : FrameSync := { f with fb := f.stored b, fidx := f.fidx + 1, demand := true }

/-- FS after a unit that gave its Sample. -/
def FrameSync.unitTaken (f : FrameSync) (b : Byte) : FrameSync := { f with fb := f.stored b, fidx := 0, demand := false }

/-- FS after a unit with a wrong marker. -/
def FrameSync.desynced (f : FrameSync) (b : Byte) : FrameSync :=
  { f with fb := f.stored b, fidx := 0, phase := .done, cause := .desync, demand := false }

/-- A byte that leaves the unit incomplete. -/
theorem readsByte_store {s : State} (hp : s.fs.phase = .frame) (hl : s.fs.fidx.toNat + 1 < frameLen s.fs.cfg.layout) (b : Byte) :
    ReadsByte s b (s.fs.byteTaken b) [] := by
  refine readsByte_of_exec (.inr (.inr hp)) (hp ▸ decodeSrc_frame_byte b) fun u hu => ?_
  rw [exec_rxFrame_storing (by rw [hu]; exact hp) (by rw [hu]; rfl) (by rw [hu]; exact hl), State.byteStored, hu]
  exact ⟨_, rfl, rfl, rfl⟩

/-- The byte that completes a unit with a wrong marker. -/
theorem readsByte_desync {s : State} (hp : s.fs.phase = .frame) (hl : s.fs.fidx.toNat + 1 = frameLen s.fs.cfg.layout) (b : Byte)
    (marker : wordAt (s.fs.stored b).read 0 ≠ s.fs.cfg.magic) :
    ReadsByte s b (s.fs.desynced b) [] := by
  refine readsByte_of_exec (.inr (.inr hp)) (hp ▸ decodeSrc_frame_byte b) fun u hu => ?_
  rw [exec_rxFrame_completing (by rw [hu]; exact hp) (by rw [hu]; rfl) (by rw [hu]; exact hl),
    completeUnit_unitStored_desync (by rw [hu]; exact marker), hu]
  exact ⟨_, rfl, rfl, rfl⟩

/-- The byte that completes a unit with the right marker, whether its channel is routed or not. -/
theorem readsByte_sample {s : State} (hp : s.fs.phase = .frame) (hl : s.fs.fidx.toNat + 1 = frameLen s.fs.cfg.layout) (b : Byte)
    (marker : wordAt (s.fs.stored b).read 0 = s.fs.cfg.magic) {u : List Byte}
    (bytes : ∀ a, a < frameLen s.fs.cfg.layout → (s.fs.stored b).read a = u.getD a 0) :
    ReadsByte s b (s.fs.unitTaken b) [u] := by
  refine readsByte_of_exec (.inr (.inr hp)) (hp ▸ decodeSrc_frame_byte b) fun v hv => ?_
  rw [exec_rxFrame_completing (by rw [hv]; exact hp) (by rw [hv]; rfl) (by rw [hv]; exact hl)]
  have same (n : Nat) : sameSamples [tableSample s.fs.cfg n (s.fs.stored b).read] (refSamples s.fs.cfg [u]) = true := by
    rw [tableSample_congr s.fs.cfg n fun a _ ha _ => bytes a ha]
    exact Bool.and_eq_true_iff.mpr ⟨tableSample_same _ _ _ _, rfl⟩
  have buffer : v.fs.fb.write v.fs.fidx.toNat b = s.fs.stored b := by rw [hv]; rfl
  rw [buffer]
  rcases completeUnit_cases (v.unitStored (s.fs.stored b)) with ⟨wrong, -⟩ | ⟨-, run | ⟨z, -, -, -, run⟩⟩
  · exact (wrong (by rw [State.unitStored, hv]; exact marker)).elim
  all_goals
    rw [run, State.unitStored, hv]
    exact ⟨_, rfl, rfl, same _⟩

/-! ### What a session gives, from a register state of FS on -/

/-- A session on `bytes`, from every state whose FS is `f`, ends and gives what `r` says. -/
def Gives (f : FrameSync) (bytes : List Byte) (r : RefRun) : Prop :=
  ∀ s : State, s.fs = f → ∃ q, runSession bytes s = some q ∧ sameSamples q.samples (refSamples f.cfg r.units) = true ∧
    q.final.fs.phase = .done ∧ q.final.fs.cause = r.cause ∧ q.consumed = r.consumed

/-- A run with more bytes consumed before it. -/
def RefRun.later (r : RefRun) (n : Nat) : RefRun := { r with consumed := r.consumed + n }

theorem RefRun.later_later (r : RefRun) (m n : Nat) : (r.later m).later n = r.later (m + n) :=
  congrArg (RefRun.mk r.units r.cause) (Nat.add_assoc r.consumed m n)

/-- In DONE a session is over. -/
theorem gives_done {f : FrameSync} (hp : f.phase = .done) (bytes : List Byte) :
    Gives f bytes { units := [], cause := f.cause, consumed := 0 } := by
  rintro s rfl
  have ended : runSession bytes s = some { samples := [], consumed := 0, final := s } := by
    cases bytes <;> simp only [runSession, hp, if_true]
  exact ⟨_, ended, rfl, hp, rfl, rfl⟩

theorem FrameSync.active.ne_done {f : FrameSync} (h : f.active) : f.phase ≠ .done := by
  rcases h with h | h | h <;> simp [h]

/-- At the end of the stream an active phase ends with EOS. -/
theorem gives_closed {f : FrameSync} (h : f.active) : Gives f [] { units := [], cause := .eos, consumed := 0 } := by
  rintro s rfl
  obtain ⟨u, ask, hu⟩ := askNext_active h
  have ready : rxReady (sourceSends (srcClosed 0) u).fs = true :=
    (rxReady_iff _).mpr (by rw [sourceSends_fs, hu]; exact ⟨h, rfl⟩)
  have close : closeSource u = .next (endTurn (raiseEnd .eos (sourceSends (srcClosed 0) u))) := by
    rw [closeSource, step_sourceSends (decodeSrc_srcClosed _ 0), exec_eos, if_pos ready, andThen_next]
  refine ⟨{ samples := [], consumed := 0, final := endTurn (raiseEnd .eos (sourceSends (srcClosed 0) u)) }, ?_, rfl, rfl, rfl, rfl⟩
  simp only [runSession, if_neg h.ne_done, ask, andThen_next, close]
  rfl

/-- A byte, and then the rest of the stream. -/
theorem gives_cons {f g : FrameSync} {b : Byte} {bs : List Byte} {us : List (List Byte)} {r : RefRun} (h : f.active)
    (reads : ∀ s : State, s.fs = f → ReadsByte s b g us) (cfg : g.cfg = f.cfg) (rest : Gives g bs r) :
    Gives f (b :: bs) { units := us ++ r.units, cause := r.cause, consumed := r.consumed + 1 } := by
  rintro s rfl
  obtain ⟨t, read, rfl, smps⟩ := reads s rfl
  obtain ⟨q, run, samples, phase, cause, consumed⟩ := rest t rfl
  refine ⟨{ samples := samplesOf t.out ++ q.samples, consumed := q.consumed + 1, final := q.final }, ?_, ?_, phase, cause,
    congrArg Nat.succ consumed⟩
  · simp only [runSession, if_neg h.ne_done, read, run, Option.map_some]
  · rw [refSamples, List.map_append]
    rw [cfg] at samples
    exact sameSamples_append smps samples

/-- A byte that emits nothing. -/
theorem gives_cons_silent {f g : FrameSync} {b : Byte} {bs : List Byte} {r : RefRun} (h : f.active)
    (reads : ∀ s : State, s.fs = f → ReadsByte s b g []) (cfg : g.cfg = f.cfg) (rest : Gives g bs r) :
    Gives f (b :: bs) (r.later 1) := gives_cons h reads cfg rest

end Sys2Proof.Machine
end

section
/-! SUPPORT. Proofs of the statements of 40_frame_sync.md section 4 (R140, R141), continued: units, header and hunt against the reference
function, and what it gives on streams of complete frames. -/

namespace Sys2Proof.Machine

/-! ### Units -/

/-- FS within a unit whose first bytes are `pre`, under the configuration `c`. -/
structure Collecting (c : FsConfig) (pre : List Byte) (f : FrameSync) : Prop where
  phase : f.phase = .frame
  cfg   : f.cfg = c
  wf    : Memory.wf f.fb = true
  fidx  : f.fidx.toNat = pre.length
  bytes : ∀ a, a < pre.length → f.fb.read a = pre.getD a 0

section
variable {c : FsConfig} {pre : List Byte} {f : FrameSync} (h : Collecting c pre f)
include h

theorem Collecting.active : f.active := .inr (.inr h.phase)

/-- The frame buffer with one more byte of the unit. -/
theorem Collecting.stored (b : Byte) (hl : pre.length + 1 ≤ frameLen c.layout) :
    Memory.wf (f.stored b) = true ∧ ∀ a, a < (pre ++ [b]).length → (f.stored b).read a = (pre ++ [b]).getD a 0 := by
  have bound := frameLen_le c.layout
  rw [FrameSync.stored, h.fidx]
  refine ⟨Memory.wf_write _ h.wf _ (by unfold fbSize; omega) b, fun a ha => ?_⟩
  rw [Memory.read_write_wf _ h.wf]
  by_cases last : a = pre.length
  · subst last
    simp
  · rw [List.length_append, List.length_singleton] at ha
    rw [if_neg last, h.bytes a (by omega), List.getD_append _ _ _ _ (by omega)]

/-- Bytes that leave the unit incomplete. -/
theorem Collecting.gives_append {bs rest : List Byte} {r : RefRun} (hl : pre.length + bs.length < frameLen c.layout)
    (after : ∀ g, Collecting c (pre ++ bs) g → Gives g rest r) : Gives f (bs ++ rest) (r.later bs.length) := by
  induction bs generalizing pre f with
  | nil => exact after f (by rwa [List.append_nil])
  | cons b bs ih =>
    obtain rfl := h.cfg
    rw [List.length_cons] at hl
    have more : f.fidx.toNat + 1 < frameLen f.cfg.layout := by rw [h.fidx]; omega
    obtain ⟨wf, bytes⟩ := h.stored b (by omega)
    have next : Collecting f.cfg (pre ++ [b]) (f.byteTaken b) :=
      ⟨h.phase, rfl, wf, by rw [List.length_append, ← h.fidx]; exact fidx_succ_toNat more, bytes⟩
    have later := ih next (by rw [List.length_append, List.length_singleton]; omega) (by simpa using after)
    have silent := gives_cons_silent (g := f.byteTaken b) h.active (fun s hs => by subst hs; exact readsByte_store h.phase more b) rfl later
    rwa [RefRun.later, RefRun.later, Nat.add_assoc] at silent

/-- The head of a unit that one byte completes. -/
theorem Collecting.head (b : Byte) (hl : pre.length + 1 = frameLen c.layout) :
    wordAt (f.stored b).read 0 = unitWord (pre ++ [b]) 0 := by
  obtain ⟨-, bytes⟩ := h.stored b hl.le
  have four := four_le_frameLen c.layout
  have byte (a : Nat) (ha : a < 4) : (f.stored b).read a = unitByte (pre ++ [b]) a :=
    bytes a (by rw [List.length_append, List.length_singleton]; omega)
  rw [wordAt_eq, byte 0 (by decide), byte 1 (by decide), byte 2 (by decide), byte 3 (by decide)]
  rfl

/-- The byte that completes a unit with a wrong marker. -/
theorem Collecting.gives_desync {b : Byte} {rest : List Byte} (hl : pre.length + 1 = frameLen c.layout)
    (marker : unitWord (pre ++ [b]) 0 ≠ c.magic) :
    Gives f (b :: rest) { units := [], cause := .desync, consumed := 1 } := by
  rw [← h.head b hl] at marker
  obtain rfl := h.cfg
  rw [← h.fidx] at hl
  exact gives_cons_silent (g := f.desynced b) h.active (fun s hs => by subst hs; exact readsByte_desync h.phase hl b marker) rfl
    (gives_done rfl rest)

/-- The byte that completes a unit with the right marker. -/
theorem Collecting.gives_unit {b : Byte} {rest : List Byte} {r : RefRun} (hl : pre.length + 1 = frameLen c.layout)
    (marker : unitWord (pre ++ [b]) 0 = c.magic) (after : ∀ g, Collecting c [] g → Gives g rest r) :
    Gives f (b :: rest) { units := (pre ++ [b]) :: r.units, cause := r.cause, consumed := r.consumed + 1 } := by
  rw [← h.head b hl] at marker
  obtain ⟨wf, bytes⟩ := h.stored b hl.le
  rw [List.length_append, List.length_singleton, hl] at bytes
  obtain rfl := h.cfg
  rw [← h.fidx] at hl
  have between : Collecting f.cfg [] (f.unitTaken b) := ⟨h.phase, rfl, wf, rfl, fun a ha => by cases ha⟩
  exact gives_cons (g := f.unitTaken b) (us := [pre ++ [b]]) h.active
    (fun s hs => by subst hs; exact readsByte_sample h.phase hl b marker bytes) rfl (after _ between)

end

/-- A unit's head is the marker's word exactly where its first bytes are the marker's. -/
theorem unitWord_eq_iff {u : List Byte} (hu : 4 ≤ u.length) (w : Word) : unitWord u 0 = w ↔ u.take 4 = bytes32 w := by
  refine ⟨fun e => ?_, fun e => unitWord_of_bytes u 0 w e⟩
  obtain ⟨b0, b1, b2, b3, rest, rfl⟩ : ∃ b0 b1 b2 b3 rest, u = b0 :: b1 :: b2 :: b3 :: rest := by
    match u, hu with
    | b0 :: b1 :: b2 :: b3 :: rest, _ => exact ⟨b0, b1, b2, b3, rest, rfl⟩
  rw [← e]
  exact (bytes32_le32 b0 b1 b2 b3).symm

/-- A whole unit from between two units on: DESYNC, or its Sample. -/
theorem Collecting.gives_whole {c : FsConfig} {f : FrameSync} (h : Collecting c [] f) {u rest : List Byte}
    (hu : u.length = frameLen c.layout) :
    (unitWord u 0 ≠ c.magic → Gives f (u ++ rest) { units := [], cause := .desync, consumed := frameLen c.layout }) ∧
    ∀ r, unitWord u 0 = c.magic → (∀ g, Collecting c [] g → Gives g rest r) →
      Gives f (u ++ rest) { units := u :: r.units, cause := r.cause, consumed := frameLen c.layout + r.consumed } := by
  have four := four_le_frameLen c.layout
  obtain ⟨init, last, rfl⟩ : ∃ init last, u = init ++ [last] :=
    (List.eq_nil_or_concat' u).resolve_left (by rintro rfl; rw [List.length_nil] at hu; omega)
  rw [List.length_append, List.length_singleton] at hu
  rw [List.append_assoc, List.singleton_append]
  refine ⟨fun marker => ?_, fun r marker after => ?_⟩
  · have run := h.gives_append (bs := init) (rest := last :: rest) (by simp only [List.length_nil]; omega)
      fun g hg => hg.gives_desync hu marker
    rwa [RefRun.later, Nat.add_comm, hu] at run
  · have run := h.gives_append (bs := init) (rest := last :: rest) (by simp only [List.length_nil]; omega)
      fun g hg => hg.gives_unit hu marker after
    rwa [RefRun.later, Nat.add_assoc, Nat.add_comm 1, hu, Nat.add_comm _ (frameLen c.layout)] at run

/-- Fewer bytes than a unit: the stream ends within it. -/
theorem Collecting.gives_truncated {c : FsConfig} {f : FrameSync} (h : Collecting c [] f) {bytes : List Byte}
    (short : bytes.length < frameLen c.layout) :
    Gives f bytes { units := [], cause := .eos, consumed := bytes.length } := by
  have run := h.gives_append (bs := bytes) (rest := []) (by rwa [List.length_nil, Nat.zero_add])
    fun g hg => gives_closed hg.active
  rwa [List.append_nil, RefRun.later, Nat.zero_add] at run

/-- From between two units on, a session gives what the loop of the reference function says. -/
theorem Collecting.gives_refUnits {c : FsConfig} {f : FrameSync} (h : Collecting c [] f) {n : Nat} {bytes : List Byte}
    (hn : bytes.length < n) : Gives f bytes (refUnits (bytes32 c.magic) (frameLen c.layout) n bytes) := by
  induction n generalizing f bytes with
  | zero => exact absurd hn (Nat.not_lt_zero _)
  | succ n ih =>
    have four := four_le_frameLen c.layout
    rw [refUnits]
    by_cases short : bytes.length < frameLen c.layout
    · rw [if_pos short]
      exact h.gives_truncated short
    · rw [if_neg short]
      have length : (bytes.take (frameLen c.layout)).length = frameLen c.layout := by
        rw [List.length_take]
        omega
      have head := unitWord_eq_iff (length.symm ▸ four) c.magic
      rw [List.take_take, Nat.min_eq_left four] at head
      obtain ⟨wrong, right⟩ := h.gives_whole (rest := bytes.drop (frameLen c.layout)) length
      rw [List.take_append_drop] at wrong right
      by_cases marker : bytes.take 4 = bytes32 c.magic
      · rw [if_neg (not_not.mpr marker)]
        exact right _ (head.mpr marker) fun g hg => ih hg (by rw [List.length_drop]; omega)
      · rw [if_pos marker]
        exact wrong (mt head.mp marker)

/-! ### The header -/

/-- FS within the header, with `n` of its bytes to come. -/
structure Skipping (c : FsConfig) (n : Nat) (f : FrameSync) : Prop where
  phase   : f.phase = .skip
  cfg     : f.cfg = c
  wf      : Memory.wf f.fb = true
  skipcnt : f.skipcnt.toNat = n
  more    : 1 ≤ n

theorem Skipping.active {c : FsConfig} {n : Nat} {f : FrameSync} (h : Skipping c n f) : f.active := .inr (.inl h.phase)

/-- The last byte of the header. -/
theorem Skipping.skipped_last {c : FsConfig} {f : FrameSync} (h : Skipping c 1 f) : Collecting c [] f.asked.skipped := by
  have last : f.asked.skipcnt.toNat = 1 := h.skipcnt
  rw [FrameSync.skipped_last last]
  exact ⟨rfl, h.cfg, h.wf, rfl, fun a ha => by cases ha⟩

/-- A byte of the header before its last. -/
theorem Skipping.skipped_more {c : FsConfig} {n : Nat} {f : FrameSync} (h : Skipping c (n + 2) f) :
    Skipping c (n + 1) f.asked.skipped := by
  have count : f.asked.skipcnt.toNat = n + 2 := h.skipcnt
  rw [FrameSync.skipped_more (by omega)]
  have less : (f.asked.skipcnt - 1).toNat = n + 1 := by bv_omega
  exact ⟨h.phase, h.cfg, h.wf, less, by omega⟩

/-- The header, and then the units; or a stream that ends within the header. -/
theorem Skipping.gives {c : FsConfig} {n : Nat} {f : FrameSync} (h : Skipping c n f) {bytes : List Byte} {r : RefRun}
    (after : n ≤ bytes.length → ∀ g, Collecting c [] g → Gives g (bytes.drop n) r) :
    Gives f bytes (if bytes.length < n then { units := [], cause := .eos, consumed := bytes.length } else r.later n) := by
  induction bytes generalizing n f with
  | nil =>
    rw [if_pos (show ([] : List Byte).length < n from h.more)]
    exact gives_closed h.active
  | cons b bytes ih =>
    have cfg : f.asked.skipped.cfg = f.cfg := f.asked.skipped_cfg
    have reads (s : State) (hs : s.fs = f) : ReadsByte s b f.asked.skipped [] := by
      subst hs
      exact readsByte_skip h.phase b
    match n, h, after with
    | 1, h, after =>
      rw [if_neg (by rw [List.length_cons]; omega)]
      exact gives_cons_silent h.active reads cfg (after (by rw [List.length_cons]; omega) _ h.skipped_last)
    | n + 2, h, after =>
      have run := gives_cons_silent h.active reads cfg (ih h.skipped_more fun hl => after (Nat.succ_le_succ hl))
      by_cases short : bytes.length < n + 1
      · rw [if_pos short] at run
        rw [if_pos (by rw [List.length_cons]; omega)]
        exact run
      · rw [if_neg short] at run
        rw [if_neg (by rw [List.length_cons]; omega)]
        exact run

/-! ### After the lock -/

/-- `decode` from the byte after the marker on (40_frame_sync.md R140). -/
def refBody (c : FsConfig) (t : List Byte) : RefRun :=
  if t.length < 4 * c.hdrWords.toNat then { units := [], cause := .eos, consumed := t.length }
  else (refUnits (bytes32 c.magic) (frameLen c.layout) (t.length + 1) (t.drop (4 * c.hdrWords.toNat))).later
    (4 * c.hdrWords.toNat)

/-- FS after the marker: between two units, or before a header. -/
def Locked (c : FsConfig) (f : FrameSync) : Prop :=
  (c.hdrWords.toNat = 0 ∧ Collecting c [] f) ∨ Skipping c (4 * c.hdrWords.toNat) f

theorem Locked.gives {c : FsConfig} {f : FrameSync} (h : Locked c f) (bytes : List Byte) : Gives f bytes (refBody c bytes) := by
  rcases h with ⟨none, between⟩ | header
  · rw [refBody, none, Nat.mul_zero, if_neg (Nat.not_lt_zero _)]
    exact between.gives_refUnits (Nat.lt_succ_self _)
  · exact header.gives fun _ g hg => hg.gives_refUnits (by rw [List.length_drop]; omega)

end Sys2Proof.Machine
end

section
/-! SUPPORT. Proofs of the statements of 40_frame_sync.md section 4 (R140, R141), concluded: the hunt against `findMarker`, and the
properties (a), (b) and (c). -/

namespace Sys2Proof.Machine

/-! ### The hunting window as bytes -/

theorem bytes32_injective {v w : Word} (h : bytes32 v = bytes32 w) : v = w := by
  rw [← unitWord_of_bytes (bytes32 v) 0 v rfl, ← unitWord_of_bytes (bytes32 v) 0 w h]

/-- The window with one more byte: its oldest byte dropped, the new one last. -/
theorem bytes32_shiftWindow (w : Word) (d : Byte) : bytes32 (shiftWindow w d) = (bytes32 w).tail ++ [d] := by
  have hd := d.isLt
  have hw := w.isLt
  have shifted : (shiftWindow w d).toNat = w.toNat / 256 + 16777216 * d.toNat := by
    rw [shiftWindow_eq, BitVec.toNat_ofNat, Nat.mod_eq_of_lt (by omega)]
  simp only [bytes32, List.tail_cons, List.cons_append, List.nil_append, List.cons.injEq, and_true]
  refine ⟨?_, ?_, ?_, ?_⟩
  all_goals
    apply BitVec.eq_of_toNat_eq
    simp only [BitVec.extractLsb'_toNat, Nat.shiftRight_eq_div_pow, shifted]
    omega

/-- FS hunting, where `pre` is the last bytes of the session in its window, at most three: what a marker can still begin with. -/
structure Hunting (c : FsConfig) (pre : List Byte) (f : FrameSync) : Prop where
  phase  : f.phase = .hunt
  cfg    : f.cfg = c
  wf     : Memory.wf f.fb = true
  length : pre.length = min f.wcnt.toNat 3
  window : (bytes32 f.w).drop (4 - pre.length) = pre

/-- The last three bytes with one more. -/
def slide (pre : List Byte) (b : Byte) : List Byte := if pre.length < 3 then pre ++ [b] else pre.tail ++ [b]

section
variable {c : FsConfig} {pre : List Byte} {f : FrameSync} (h : Hunting c pre f)
include h

theorem Hunting.active : f.active := .inl h.phase

theorem Hunting.short : pre.length ≤ 3 := by
  rw [h.length]
  exact min_le_right _ _

/-- A full window is its oldest byte and the last three. -/
theorem Hunting.tail_window (full : pre.length = 3) : (bytes32 f.w).tail = pre := by
  have := h.window
  rwa [full, List.drop_one] at this

/-- FS locks when the last three bytes and the new one are the marker. -/
theorem Hunting.lock_iff (b : Byte) :
    (countWindow f.wcnt = 4 ∧ shiftWindow f.w b = f.cfg.magic) ↔ (pre.length = 3 ∧ pre ++ [b] = bytes32 c.magic) := by
  have count : countWindow f.wcnt = 4 ↔ pre.length = 3 := by
    rw [countWindow_eq_four, h.length]
    omega
  rw [count]
  refine and_congr_right fun full => ?_
  rw [← h.tail_window full, ← bytes32_shiftWindow, h.cfg]
  exact ⟨congrArg bytes32, bytes32_injective⟩

/-- A byte that does not complete the marker. -/
theorem Hunting.hunted_search {b : Byte} (search : ¬(pre.length = 3 ∧ pre ++ [b] = bytes32 c.magic)) :
    Hunting c (slide pre b) (f.asked.hunted b) := by
  rw [f.asked.hunted_search b (mt (h.lock_iff b).mp search)]
  have short := h.short
  have length := h.length
  have count := countWindow_toNat f.wcnt
  refine ⟨h.phase, h.cfg, h.wf, ?_, ?_⟩
  · show (slide pre b).length = min (countWindow f.wcnt).toNat 3
    unfold slide
    split
    · rw [List.length_append, List.length_singleton]
      omega
    · rw [List.length_append, List.length_singleton, List.length_tail]
      omega
  · show (bytes32 (shiftWindow f.w b)).drop _ = _
    rw [bytes32_shiftWindow]
    unfold slide
    split
    · rw [List.length_append, List.length_singleton, List.drop_append_of_le_length (by rw [List.length_tail, bytes32_length]; omega),
        List.drop_tail, show 4 - (pre.length + 1) + 1 = 4 - pre.length by omega, h.window]
    · have full : pre.length = 3 := by omega
      rw [List.length_append, List.length_singleton, List.length_tail, h.tail_window full, full,
        List.drop_append_of_le_length (by omega), List.drop_one]

/-- The byte that completes the marker. -/
theorem Hunting.hunted_lock {b : Byte} (lock : pre.length = 3 ∧ pre ++ [b] = bytes32 c.magic) :
    Locked c (f.asked.hunted b) := by
  have locks := (h.lock_iff b).mpr lock
  have cfg := h.cfg
  by_cases none : hdrBytes f.cfg = 0
  · rw [f.asked.hunted_lock_frame b locks none]
    exact .inl ⟨cfg ▸ (hdrBytes_eq_zero f.cfg).mp none, rfl, cfg, h.wf, rfl, fun a ha => by cases ha⟩
  · rw [f.asked.hunted_lock_skip b locks none]
    have words : f.cfg.hdrWords.toNat ≠ 0 := mt (hdrBytes_eq_zero f.cfg).mpr none
    exact .inr ⟨rfl, cfg, h.wf, cfg ▸ hdrBytes_toNat f.cfg, by rw [← cfg]; omega⟩

end

/-! ### The reference function, byte by byte -/

/-- The bytes left over from a unit onwards need no more fuel than there are bytes. -/
theorem refUnits_fuel (m : List Byte) {fl : Nat} (hfl : 0 < fl) {n k : Nat} {s : List Byte} (hn : s.length < n)
    (hk : s.length < k) : refUnits m fl n s = refUnits m fl k s := by
  induction n generalizing k s with
  | zero => exact absurd hn (Nat.not_lt_zero _)
  | succ n ih =>
    obtain ⟨k, rfl⟩ := Nat.exists_eq_add_one_of_ne_zero (Nat.ne_zero_of_lt hk)
    rw [refUnits, refUnits]
    by_cases short : s.length < fl
    · rw [if_pos short, if_pos short]
    · rw [ih (k := k) (s := s.drop fl) (by rw [List.length_drop]; omega) (by rw [List.length_drop]; omega)]

/-- Fewer bytes than the marker hold no marker. -/
theorem findMarker_of_short {m s : List Byte} (h : s.length < m.length) : findMarker m s = none := by
  induction s with
  | nil => rfl
  | cons b s ih =>
    have ne : (b :: s).take 4 ≠ m := by
      rintro rfl
      rw [List.length_take] at h
      omega
    rw [findMarker, if_neg ne, ih (by rw [List.length_cons] at h; omega), Option.map_none]

/-- A stream without room for the marker. -/
theorem refDecode_of_short (c : FsConfig) {s : List Byte} (h : s.length < 4) :
    refDecode c s = { units := [], cause := .eos, consumed := s.length } := by
  rw [refDecode, findMarker_of_short (by rwa [bytes32_length])]

/-- A stream that begins with the marker. -/
theorem refDecode_marker (c : FsConfig) (rest : List Byte) :
    refDecode c (bytes32 c.magic ++ rest) = (refBody c rest).later 4 := by
  have found : findMarker (bytes32 c.magic) (bytes32 c.magic ++ rest) = some 0 := if_pos rfl
  have fl : 0 < frameLen c.layout := Nat.lt_of_lt_of_le (by decide) (four_le_frameLen c.layout)
  have length : (bytes32 c.magic ++ rest).length = rest.length + 4 := by rw [List.length_append, bytes32_length, Nat.add_comm]
  rw [refDecode, found]
  simp only [refBody, RefRun.later, length, Nat.zero_add]
  by_cases short : rest.length < 4 * c.hdrWords.toNat
  · rw [if_pos short, if_pos (by omega)]
  · have dropped : (bytes32 c.magic ++ rest).drop (4 + 4 * c.hdrWords.toNat) = rest.drop (4 * c.hdrWords.toNat) := by
      rw [← List.drop_drop]
      rfl
    rw [if_neg short, if_neg (by omega), dropped,
      refUnits_fuel _ fl (k := rest.length + 1) (by rw [List.length_drop]; omega) (by rw [List.length_drop]; omega)]
    simp only [RefRun.mk.injEq, true_and]
    omega

/-- A byte at which no marker begins. -/
theorem refDecode_cons (c : FsConfig) {b : Byte} {s : List Byte} (h : (b :: s).take 4 ≠ bytes32 c.magic) :
    refDecode c (b :: s) = (refDecode c s).later 1 := by
  have fl : 0 < frameLen c.layout := Nat.lt_of_lt_of_le (by decide) (four_le_frameLen c.layout)
  rw [refDecode, refDecode, findMarker, if_neg h]
  cases found : findMarker (bytes32 c.magic) s with
  | none => rfl
  | some i =>
    simp only [Option.map_some, List.length_cons, show i + 1 + 4 + 4 * c.hdrWords.toNat = i + 4 + 4 * c.hdrWords.toNat + 1 by omega,
      List.drop_succ_cons, Nat.add_lt_add_iff_right]
    by_cases short : s.length < i + 4 + 4 * c.hdrWords.toNat
    · rw [if_pos short, if_pos short]
      rfl
    · rw [if_neg short, if_neg short,
        refUnits_fuel _ fl (k := s.length + 1) (by rw [List.length_drop]; omega) (by rw [List.length_drop]; omega)]
      simp only [RefRun.later, RefRun.mk.injEq, true_and]
      omega

/-! ### The whole session -/

/-- While hunting, a session gives what the reference function says of the bytes still in the window and the rest. -/
theorem Hunting.gives {c : FsConfig} {pre : List Byte} {f : FrameSync} (h : Hunting c pre f) (bytes : List Byte) :
    ∃ r, Gives f bytes r ∧ refDecode c (pre ++ bytes) = r.later pre.length := by
  induction bytes generalizing pre f with
  | nil =>
    refine ⟨_, gives_closed h.active, ?_⟩
    have short := h.short
    rw [List.append_nil, refDecode_of_short c (by omega), RefRun.later, Nat.zero_add]
  | cons b bytes ih =>
    have reads (s : State) (hs : s.fs = f) : ReadsByte s b (f.asked.hunted b) [] := by
      subst hs
      exact readsByte_hunt h.phase b
    have cfg : (f.asked.hunted b).cfg = f.cfg := f.asked.hunted_cfg b
    have joined : pre ++ b :: bytes = pre ++ [b] ++ bytes := List.append_cons pre b bytes
    by_cases lock : pre.length = 3 ∧ pre ++ [b] = bytes32 c.magic
    · refine ⟨_, gives_cons_silent h.active reads cfg ((h.hunted_lock lock).gives bytes), ?_⟩
      rw [joined, lock.2, refDecode_marker, lock.1]
      rfl
    · obtain ⟨r, run, rest⟩ := ih (h.hunted_search lock)
      refine ⟨_, gives_cons_silent h.active reads cfg run, ?_⟩
      unfold slide at rest
      split at rest
      · rw [joined, rest, RefRun.later_later, List.length_append, List.length_singleton, Nat.add_comm 1]
      · have full : pre.length = 3 := by have := h.short; omega
        obtain ⟨p, pre, rfl⟩ := List.exists_cons_of_length_eq_add_one full
        have search : (p :: (pre ++ b :: bytes)).take 4 ≠ bytes32 c.magic := by
          have head : (p :: (pre ++ b :: bytes)).take 4 = p :: pre ++ [b] := by
            rw [← List.cons_append, joined]
            exact List.take_left' (by rw [List.length_append, full]; rfl)
          rw [head]
          exact fun marker => lock ⟨full, marker⟩
        rw [List.cons_append, refDecode_cons c search, List.append_cons]
        rw [List.tail_cons] at rest
        rw [rest, RefRun.later_later, RefRun.later_later, List.length_append, List.length_singleton, List.length_cons,
          Nat.add_comm 1]

/-- FS right after a legal START hunts with an empty window, under the configuration latched. -/
theorem hunting_of_start {cfg : ConfigInputs} {s0 s : State} (hm : Memory.wf s0.fs.fb = true) (legal : configLegal cfg = true)
    (h : exec (.start cfg) s0 = .next s) :
    Hunting s.fs.cfg [] s.fs ∧ s.fs.cfg.magic = cfg.magic ∧ s.fs.cfg.hdrWords = cfg.hdrWords := by
  obtain ⟨l, hl⟩ := layoutOfCode_of_configLegal legal
  rw [exec_start_of_legal hl legal] at h
  cases h
  exact ⟨⟨rfl, rfl, hm, rfl, rfl⟩, rfl, rfl⟩

/-- From right after START, a session gives what the reference function says. -/
theorem Hunting.gives_refDecode {c : FsConfig} {f : FrameSync} (h : Hunting c [] f) (bytes : List Byte) :
    Gives f bytes (refDecode c bytes) := by
  obtain ⟨r, run, e⟩ := h.gives bytes
  rw [List.nil_append] at e
  rwa [e]

/-- Settles O57: byte by byte the session follows the reference function through hunt, header and units. -/
theorem sessionIsTheReferenceFunction : Obligations.SessionIsTheReferenceFunction := by
  unfold Obligations.SessionIsTheReferenceFunction
  intro cfg s0 s bytes hm legal h
  obtain ⟨hunting, -, -⟩ := hunting_of_start hm legal h
  exact hunting.gives_refDecode bytes s rfl

/-! ### The properties of 40_frame_sync.md R141 -/

/-- Complete frames with the marker, and a tail shorter than a frame: the frames, and the end of the stream. -/
theorem refUnits_frames {m : List Byte} {fl : Nat} {frames : List (List Byte)}
    (valid : ∀ u ∈ frames, u.length = fl ∧ u.take 4 = m) (four : 4 ≤ fl) {tail : List Byte} (short : tail.length < fl) {n : Nat}
    (hn : (frames.flatten ++ tail).length < n) :
    (refUnits m fl n (frames.flatten ++ tail)).units = frames ∧ (refUnits m fl n (frames.flatten ++ tail)).cause = .eos := by
  induction frames generalizing n with
  | nil =>
    obtain ⟨n, rfl⟩ := Nat.exists_eq_add_one_of_ne_zero (Nat.ne_zero_of_lt hn)
    rw [List.flatten_nil, List.nil_append, refUnits, if_pos short]
    exact ⟨rfl, rfl⟩
  | cons u frames ih =>
    obtain ⟨n, rfl⟩ := Nat.exists_eq_add_one_of_ne_zero (Nat.ne_zero_of_lt hn)
    obtain ⟨length, marker⟩ := valid u List.mem_cons_self
    rw [List.flatten_cons, List.append_assoc] at hn ⊢
    rw [List.length_append] at hn
    obtain ⟨units, cause⟩ := ih (fun v hv => valid v (List.mem_cons_of_mem _ hv)) (n := n) (by omega)
    have head : (u ++ (frames.flatten ++ tail)).take 4 = m := by rw [List.take_append_of_le_length (by omega), marker]
    rw [refUnits, if_neg (by rw [List.length_append]; omega), if_neg (not_not.mpr head), List.drop_left' length,
      List.take_left' length]
    exact ⟨congrArg (u :: ·) units, cause⟩

/-- Marker, header, complete frames and a short tail. -/
theorem refDecode_frames (c : FsConfig) {header tail : List Byte} {frames : List (List Byte)}
    (hh : header.length = 4 * c.hdrWords.toNat)
    (valid : ∀ u ∈ frames, u.length = frameLen c.layout ∧ u.take 4 = bytes32 c.magic) (short : tail.length < frameLen c.layout) :
    (refDecode c (bytes32 c.magic ++ header ++ frames.flatten ++ tail)).units = frames ∧
      (refDecode c (bytes32 c.magic ++ header ++ frames.flatten ++ tail)).cause = .eos := by
  rw [List.append_assoc, List.append_assoc, refDecode_marker, refBody,
    if_neg (by rw [List.length_append]; omega), List.drop_left' hh]
  exact refUnits_frames valid (four_le_frameLen c.layout) short (by rw [List.length_append (as := header)]; omega)

/-- Bytes at which no marker begins. -/
theorem refDecode_skip (c : FsConfig) (garbage rest : List Byte)
    (h : ∀ j, j < garbage.length → ((garbage ++ rest).drop j).take 4 ≠ bytes32 c.magic) :
    refDecode c (garbage ++ rest) = (refDecode c rest).later garbage.length := by
  induction garbage with
  | nil => rfl
  | cons b garbage ih =>
    have here : (b :: (garbage ++ rest)).take 4 ≠ bytes32 c.magic := h 0 (Nat.succ_pos _)
    rw [List.cons_append, refDecode_cons c here, ih fun j hj => h (j + 1) (Nat.succ_lt_succ hj), RefRun.later_later]
    rfl

/-- No marker begins in garbage that does not hold it, even where the marker follows: two occurrences do not overlap. -/
theorem no_marker_in_garbage {garbage : List Byte} (free : ∀ k, (garbage.drop k).take 4 ≠ markerBytes) (rest : List Byte)
    (j : Nat) (hj : j < garbage.length) : ((garbage ++ (markerBytes ++ rest)).drop j).take 4 ≠ markerBytes := by
  intro here
  have there : ((garbage ++ (markerBytes ++ rest)).drop garbage.length).take 4 = markerBytes := by
    rw [List.drop_left]
    rfl
  have apart := markerBytes_occurrences_disjoint _ j garbage.length hj here there
  refine free j ?_
  rwa [List.drop_append_of_le_length hj.le, List.take_append_of_le_length (by rw [List.length_drop]; omega)] at here

/-- Settles O58: with nothing after the frames the reference function gives them all. -/
theorem eachFrameGivesOneSample : Obligations.EachFrameGivesOneSample := by
  unfold Obligations.EachFrameGivesOneSample
  intro cfg s0 s header frames hm legal hmagic h hh valid
  obtain ⟨hunting, magic, words⟩ := hunting_of_start hm legal h
  have marker : markerBytes = bytes32 s.fs.cfg.magic := by rw [magic, hmagic]; rfl
  rw [marker] at valid ⊢
  obtain ⟨units, cause⟩ := refDecode_frames s.fs.cfg (tail := []) (words ▸ hh) valid
    (Nat.lt_of_lt_of_le (by decide) (four_le_frameLen _))
  rw [List.append_nil] at units cause
  obtain ⟨r, run, samples, phase, ended, -⟩ := hunting.gives_refDecode (bytes32 s.fs.cfg.magic ++ header ++ frames.flatten) s rfl
  exact ⟨r, run, units ▸ samples, phase, cause ▸ ended⟩

/-- Settles O60: the tail is no unit of the reference function. -/
theorem truncatedFrameGivesNoSample : Obligations.TruncatedFrameGivesNoSample := by
  unfold Obligations.TruncatedFrameGivesNoSample
  intro cfg s0 s header tail frames hm legal hmagic h hh valid _ short
  obtain ⟨hunting, magic, words⟩ := hunting_of_start hm legal h
  have marker : markerBytes = bytes32 s.fs.cfg.magic := by rw [magic, hmagic]; rfl
  rw [marker] at valid ⊢
  obtain ⟨units, cause⟩ := refDecode_frames s.fs.cfg (words ▸ hh) valid short
  obtain ⟨r, run, samples, -, ended, -⟩ :=
    hunting.gives_refDecode (bytes32 s.fs.cfg.magic ++ header ++ frames.flatten ++ tail) s rfl
  rw [units] at samples
  have length := ((sameSamples_iff _ _).mp samples).length_eq
  exact ⟨r, run, length.trans (List.length_map _), samples, cause ▸ ended⟩

/-- Settles O59: the reference function gives the same units and cause with the garbage and without it. -/
theorem garbageWithoutTheMarkerChangesNoSample : Obligations.GarbageWithoutTheMarkerChangesNoSample := by
  unfold Obligations.GarbageWithoutTheMarkerChangesNoSample
  intro cfg s0 s garbage rest hm legal hmagic h free
  obtain ⟨hunting, magic, -⟩ := hunting_of_start hm legal h
  have marker : markerBytes = bytes32 s.fs.cfg.magic := by rw [magic, hmagic]; rfl
  have skipped := refDecode_skip s.fs.cfg garbage (markerBytes ++ rest)
    fun j hj => marker ▸ no_marker_in_garbage free rest j hj
  obtain ⟨r1, run1, samples1, -, cause1, -⟩ := hunting.gives_refDecode (garbage ++ markerBytes ++ rest) s rfl
  obtain ⟨r2, run2, samples2, -, cause2, -⟩ := hunting.gives_refDecode (markerBytes ++ rest) s rfl
  rw [List.append_assoc, skipped] at samples1 cause1
  exact ⟨r1, r2, run1, run2, sameSamples_of_both samples1 samples2, cause1.trans cause2.symm⟩

end Sys2Proof.Machine
end
